-- ==== Sys2Proof/Word.lean ====
section
/-! DEFINITION. The bit-vector types of the machine and their plainest names. -/

namespace Sys2Proof

/-- One byte of memory or of an instruction (R50). -/
abbrev Byte := BitVec 8

/-- A 32-bit element of a vector ("float32", R150), never interpreted. -/
abbrev Elem := BitVec 32

/-- A general register, a linear address, the instruction pointer (R25, R27, R50). -/
abbrev Word64 := BitVec 64

/-- The whole of a vector register: `MAX_VL` = 512 bits (R20, R6, D1). -/
abbrev Vec := BitVec 512

end Sys2Proof
end

