-- ==== Sys2Proof/Syntax/Fields.lean ====
section
/-! DEFINITION. The parts an instruction is made of: modes, segments, prefixes in front of the opcode, and the operand fields. -/

namespace Sys2Proof

/-- The processor operating modes (R6, R188). -/
inductive Mode where
  | long64
  | compat32
  | prot32
  | prot16
  | real
  | v86
  deriving DecidableEq, Repr

/-- The segment registers, numbered 0 to 5 in this order (R26). -/
inductive SegReg where
  | es
  | cs
  | ss
  | ds
  | fs
  | gs
  deriving DecidableEq, Repr

/-- The vector lengths (R108). -/
inductive VL where
  | v128
  | v256
  | v512
  deriving DecidableEq, Repr

/-- The encoding classes (R108). -/
inductive Cls where
  | legacy
  | vex
  | evex
  deriving DecidableEq, Repr

/-- The direction the opcode byte fixes: `28` or `29` (R82, R108). -/
inductive Op where
  | load28
  | store29
  deriving DecidableEq, Repr

/-- Whether an access reads or writes (R59). -/
inductive Access where
  | read
  | write
  deriving DecidableEq, Repr

/-- The legacy bytes of an instruction in scope (R87): some `67H` bytes, and at most one segment override with
the `67H` bytes after it. Every order the bytes can stand in is one value of this type. -/
structure Prefixes where
  before67 : Nat
  override : Option (SegReg × Nat)
  deriving DecidableEq, Repr

/-- The four bits of a REX byte (R86). -/
structure Rex where
  w : Bool
  r : Bool
  x : Bool
  b : Bool
  deriving DecidableEq, Repr

/-- A displacement after a 32- or 64-bit addressing form: none, 8 bits or 32 bits (R95). -/
inductive Disp where
  | none
  | d8 (d : BitVec 8)
  | d32 (d : BitVec 32)
  deriving DecidableEq, Repr

/-- A displacement after a 16-bit addressing form (R98). -/
inductive Disp16 where
  | none
  | d8 (d : BitVec 8)
  | d16 (d : BitVec 16)
  deriving DecidableEq, Repr

/-- The addressing forms of a memory operand, with the bits that select them (R95 to R98). -/
inductive MemForm where
  /-- a base register named by `rm`, no SIB byte (R95) -/
  | base (rm : BitVec 3) (disp : Disp)
  /-- a SIB byte with a base register (R96) -/
  | sib (scale : BitVec 2) (index base : BitVec 3) (disp : Disp)
  /-- a SIB byte with `base = 101b` under `mod = 00b`: no base register, 32-bit displacement (R96) -/
  | sibDisp32 (scale : BitVec 2) (index : BitVec 3) (d : BitVec 32)
  /-- `mod = 00b`, `rm = 101b`: RIP-relative in 64-bit mode, absolute in the 32-bit modes (R95, R97) -/
  | disp32 (d : BitVec 32)
  /-- a 16-bit form built on registers (R98) -/
  | addr16 (rm : BitVec 3) (disp : Disp16)
  /-- `mod = 00b`, `rm = 110b` under 16-bit addressing: `disp16` alone (R98) -/
  | addr16Disp (d : BitVec 16)
  deriving DecidableEq, Repr

/-- The `ModRM:r/m` operand as encoded: a register field, or a memory form (R84). -/
inductive Rm where
  | reg (rm : BitVec 3)
  | mem (m : MemForm)
  deriving DecidableEq, Repr

/-- A legacy SSE instruction's fields after the opcode is known (R86, R87). -/
structure LegacyForm where
  legacy : Prefixes
  rex : Option Rex
  reg : BitVec 3
  rm : Rm
  deriving DecidableEq, Repr

/-- The VEX bytes: the two-byte form with its `R`, or the three-byte form with `R`, `X`, `B` and `W` (R88).
The bits are held as they extend a register number, that is, not inverted. -/
inductive VexHead where
  | two (r : Bool)
  | three (r x b w : Bool)
  deriving DecidableEq, Repr

/-- A VEX instruction's fields after the opcode and the length are known (R88 to R90). -/
structure VexForm where
  legacy : Prefixes
  head : VexHead
  reg : BitVec 3
  rm : Rm
  deriving DecidableEq, Repr

/-- An EVEX instruction's fields after the opcode and the length are known (R91 to R94). The extension bits are
held not inverted; `r'` extends `reg`, `aaa` names the writemask, `z` selects zeroing. -/
structure EvexForm where
  legacy : Prefixes
  r : Bool
  x : Bool
  b : Bool
  r' : Bool
  z : Bool
  aaa : BitVec 3
  reg : BitVec 3
  rm : Rm
  deriving DecidableEq, Repr

end Sys2Proof
end

