-- ==== Sys2Proof/Syntax.lean ====
section
/-! DEFINITION. The instructions: one constructor per row of spec/opcode_table.json (R81, R109). -/

namespace Sys2Proof

/-- The twelve encodings of the opcode table, in the source's order (R81). -/
inductive Instr where
  /-- row 1, `0F 28 /r`, `MOVAPS xmm1, xmm2/m128` (R130) -/
  | movapsLoad (f : LegacyForm)
  /-- row 2, `0F 29 /r`, `MOVAPS xmm2/m128, xmm1` (R131) -/
  | movapsStore (f : LegacyForm)
  /-- row 3, `VEX.128.0F.WIG 28 /r`, `VMOVAPS xmm1, xmm2/m128` (R140) -/
  | vmovapsVex128Load (f : VexForm)
  /-- row 4, `VEX.128.0F.WIG 29 /r`, `VMOVAPS xmm2/m128, xmm1` (R141) -/
  | vmovapsVex128Store (f : VexForm)
  /-- row 5, `VEX.256.0F.WIG 28 /r`, `VMOVAPS ymm1, ymm2/m256` (R142) -/
  | vmovapsVex256Load (f : VexForm)
  /-- row 6, `VEX.256.0F.WIG 29 /r`, `VMOVAPS ymm2/m256, ymm1` (R143) -/
  | vmovapsVex256Store (f : VexForm)
  /-- row 7, `EVEX.128.0F.W0 28 /r`, `VMOVAPS xmm1` under mask, `xmm2/m128` (R151) -/
  | vmovapsEvex128Load (f : EvexForm)
  /-- row 8, `EVEX.256.0F.W0 28 /r`, `VMOVAPS ymm1` under mask, `ymm2/m256` (R152) -/
  | vmovapsEvex256Load (f : EvexForm)
  /-- row 9, `EVEX.512.0F.W0 28 /r`, `VMOVAPS zmm1` under mask, `zmm2/m512` (R153) -/
  | vmovapsEvex512Load (f : EvexForm)
  /-- row 10, `EVEX.128.0F.W0 29 /r`, `VMOVAPS xmm2/m128` under mask, `xmm1` (R154) -/
  | vmovapsEvex128Store (f : EvexForm)
  /-- row 11, `EVEX.256.0F.W0 29 /r`, `VMOVAPS ymm2/m256` under mask, `ymm1` (R155) -/
  | vmovapsEvex256Store (f : EvexForm)
  /-- row 12, `EVEX.512.0F.W0 29 /r`, `VMOVAPS zmm2/m512` under mask, `zmm1` (R156) -/
  | vmovapsEvex512Store (f : EvexForm)
  deriving DecidableEq, Repr

end Sys2Proof
end

