-- ==== Sys2Proof/Decode.lean ====
section
/-! DEFINITION. From bytes to instructions (R84 to R104), total and rejecting by name; then the encoder, the length (R102)
and `decodeTableWord`. -/

namespace Sys2Proof

/-! ## Bits and bytes -/

/-- `sext_64` of a displacement (R9, R99). -/
def sext64 {w : Nat} (d : BitVec w) : Word64 := d.signExtend 64

/-- A 16-bit displacement from its bytes, little-endian (R99). -/
def word16 (b0 b1 : Byte) : BitVec 16 := b1 ++ b0

/-- A 32-bit displacement from its bytes, little-endian (R99). -/
def word32 (b0 b1 b2 b3 : Byte) : BitVec 32 := b3 ++ b2 ++ b1 ++ b0

/-- The bytes of a 16-bit displacement in memory order (R99). -/
def bytes16 (d : BitVec 16) : List Byte := [d.extractLsb' 0 8, d.extractLsb' 8 8]

/-- The bytes of a 32-bit displacement in memory order (R99). -/
def bytes32 (d : BitVec 32) : List Byte :=
  [d.extractLsb' 0 8, d.extractLsb' 8 8, d.extractLsb' 16 8, d.extractLsb' 24 8]

/-- Three fields of 2, 3 and 3 bits, high to low: a ModRM byte (R84) or a SIB byte (R85). -/
def byte233 (a : BitVec 2) (b c : BitVec 3) : Byte := a ++ b ++ c

/-- The field at bits 7:6: ModRM `mod`, SIB `scale`. -/
def field76 (m : Byte) : BitVec 2 := m.extractLsb' 6 2

/-- The field at bits 5:3: ModRM `reg`, SIB `index`. -/
def field53 (m : Byte) : BitVec 3 := m.extractLsb' 3 3

/-- The field at bits 2:0: ModRM `rm`, SIB `base`, EVEX `aaa`. -/
def field20 (m : Byte) : BitVec 3 := m.extractLsb' 0 3

/-- The segment-override byte of each segment (R87). -/
def SegReg.byte : SegReg → Byte
  | .es => 0x26
  | .cs => 0x2E
  | .ss => 0x36
  | .ds => 0x3E
  | .fs => 0x64
  | .gs => 0x65

/-- The opcode byte of each direction (R82). -/
def Op.byte : Op → Byte
  | .load28 => 0x28
  | .store29 => 0x29

/-- The direction an opcode byte fixes; no other opcode byte is in scope (R82, R103). -/
def opOf (b : Byte) : Option Op :=
  if b = 0x28 then some .load28 else if b = 0x29 then some .store29 else none

/-! ## Why bytes are not an instruction that runs -/

/-- The encodings that raise `#UD` (R90, R93, R104). -/
inductive UdCause where
  /-- a VEX or EVEX encoding in `Real` or `V86` mode (R90, R93) -/
  | realOrV86
  /-- a REX byte before VEX or EVEX (R90, R93, R103) -/
  | rexBefore
  /-- `66H`, `F2H` or `F3H` before VEX or EVEX (R90, R93) -/
  | simdBefore
  /-- `F0H` (R87, R104) -/
  | lock
  /-- the stored `vvvv` is not `1111b` (the source; R104) -/
  | vvvv
  /-- the stored `V'` bit of EVEX is 0 (D20) -/
  | vPrime
  /-- `EVEX.W` = 1 (D20) -/
  | evexW
  /-- `EVEX.L'L` = 11b (D20) -/
  | evexLL
  /-- `EVEX.b` = 1 (D20) -/
  | evexB
  /-- `P0[3:2]` not 00b or `P1[2]` = 0 (D20) -/
  | evexFixed
  /-- `z` = 1 with `aaa` = 000b (D19) -/
  | zeroingNoMask
  /-- `z` = 1 with a memory destination (D18, R158) -/
  | zeroingMemory
  deriving DecidableEq, Repr

/-- The byte sequences the spec's rules refuse. -/
inductive DecodeRefusal where
  /-- not one of the twelve encodings (R103, D21) -/
  | notInScope
  /-- more than one segment override (R100, D28) -/
  | segmentOverrides
  /-- `B`, `R'` or `V'` stored 0 in a protected 16- or 32-bit mode (R90, R93, D26) -/
  | extensionBits
  deriving DecidableEq, Repr

/-- What a byte string decodes to. -/
inductive Decoded where
  /-- an instruction in scope, at most 15 bytes long -/
  | instr (i : Instr)
  /-- an encoding that raises `#UD` -/
  | invalidOpcode (why : UdCause)
  /-- longer than 15 bytes: `#GP(0)` (R102) -/
  | tooLong
  /-- the bytes end before the instruction does -/
  | truncated
  /-- refused by name -/
  | refused (why : DecodeRefusal)
  deriving DecidableEq, Repr

/-- Why the decoder of one window of bytes stops short of an instruction. -/
inductive Reject where
  | ranOut
  | ud (why : UdCause)
  | refused (why : DecodeRefusal)
  deriving DecidableEq, Repr

/-! ## Legacy bytes (R87, R103 step 1) -/

/-- What one legacy byte says (R87). -/
inductive LegacyByte where
  | seg (s : SegReg)
  | addr
  | lock
  | simd
  deriving DecidableEq, Repr

/-- The legacy byte values: segment overrides, `67H`, `F0H`, and `66H`, `F2H`, `F3H` (R87). -/
def legacyByte (b : Byte) : Option LegacyByte :=
  if b = 0x26 then some (.seg .es)
  else if b = 0x2E then some (.seg .cs)
  else if b = 0x36 then some (.seg .ss)
  else if b = 0x3E then some (.seg .ds)
  else if b = 0x64 then some (.seg .fs)
  else if b = 0x65 then some (.seg .gs)
  else if b = 0x67 then some .addr
  else if b = 0xF0 then some .lock
  else if b = 0x66 then some .simd
  else if b = 0xF2 then some .simd
  else if b = 0xF3 then some .simd
  else none

/-- What the legacy bytes before the opcode, VEX or EVEX amount to: `67H` bytes, then each segment override with the
`67H` bytes after it, and whether `F0H`, or one of `66H`, `F2H`, `F3H`, was among them. -/
structure LegacyRun where
  before67 : Nat
  overrides : List (SegReg × Nat)
  lock : Bool
  simd : Bool
  deriving DecidableEq, Repr

def LegacyRun.empty : LegacyRun := ⟨0, [], false, false⟩

/-- Put one legacy byte in front of a run. -/
def LegacyRun.cons : LegacyByte → LegacyRun → LegacyRun
  | .seg s, r => { r with before67 := 0, overrides := (s, r.before67) :: r.overrides }
  | .addr, r => { r with before67 := r.before67 + 1 }
  | .lock, r => { r with lock := true }
  | .simd, r => { r with simd := true }

/-- Consume the legacy bytes, remembering each (R103 step 1). -/
def scanLegacy : List Byte → LegacyRun × List Byte
  | [] => (.empty, [])
  | b :: bs =>
    match legacyByte b with
    | none => (.empty, b :: bs)
    | some l => ((scanLegacy bs).1.cons l, (scanLegacy bs).2)

/-- The run as an instruction's `Prefixes`, unless it has more than one segment override (R100, D28). -/
def LegacyRun.toPrefixes (r : LegacyRun) : Option Prefixes :=
  match r.overrides with
  | [] => some ⟨r.before67, none⟩
  | [o] => some ⟨r.before67, some o⟩
  | _ :: _ :: _ => none

/-- Whether a `67H` byte is among them (R101). -/
def Prefixes.has67 (p : Prefixes) : Bool :=
  p.before67 != 0 || (match p.override with | some (_, n) => n != 0 | none => false)

/-- Whether a `67H` byte is in the run (R101). -/
def LegacyRun.has67 (r : LegacyRun) : Bool := r.before67 != 0 || r.overrides.any (fun o => o.2 != 0)

/-- Whether the address size is 16 bits (R101): the default of the mode, switched by `67H`; never in 64-bit mode. -/
def Mode.addr16 (m : Mode) (has67 : Bool) : Bool :=
  match m with
  | .long64 => false
  | .compat32 | .prot32 => has67
  | .prot16 | .real | .v86 => !has67

/-- `Real` and `V86` mode (R90, R93, R172, R173). -/
def Mode.realOrV86 : Mode → Bool
  | .real | .v86 => true
  | .long64 | .compat32 | .prot32 | .prot16 => false

/-! ## ModRM, SIB and displacement (R84, R85, R95 to R99) -/

/-- The displacement that `mod` 00b, 01b or 10b asks for after a 32- or 64-bit form (R95). -/
def readDisp (md : BitVec 2) (bs : List Byte) : Option Disp :=
  if md = 0 then some .none
  else if md = 1 then
    match bs with
    | b0 :: _ => some (.d8 b0)
    | _ => none
  else
    match bs with
    | b0 :: b1 :: b2 :: b3 :: _ => some (.d32 (word32 b0 b1 b2 b3))
    | _ => none

/-- The displacement that `mod` asks for after a 16-bit form (R98). -/
def readDisp16 (md : BitVec 2) (bs : List Byte) : Option Disp16 :=
  if md = 0 then some .none
  else if md = 1 then
    match bs with
    | b0 :: _ => some (.d8 b0)
    | _ => none
  else
    match bs with
    | b0 :: b1 :: _ => some (.d16 (word16 b0 b1))
    | _ => none

/-- The form with a SIB byte (R96). -/
def readSib (md : BitVec 2) (bs : List Byte) : Option MemForm :=
  match bs with
  | [] => none
  | s :: t =>
    if md = 0 ∧ field20 s = 5 then
      match t with
      | b0 :: b1 :: b2 :: b3 :: _ => some (.sibDisp32 (field76 s) (field53 s) (word32 b0 b1 b2 b3))
      | _ => none
    else
      match readDisp md t with
      | some d => some (.sib (field76 s) (field53 s) (field20 s) d)
      | none => none

/-- A memory operand under 32- or 64-bit addressing (R95). -/
def readMem (md : BitVec 2) (rm : BitVec 3) (bs : List Byte) : Option MemForm :=
  if rm = 4 then readSib md bs
  else if md = 0 ∧ rm = 5 then
    match bs with
    | b0 :: b1 :: b2 :: b3 :: _ => some (.disp32 (word32 b0 b1 b2 b3))
    | _ => none
  else
    match readDisp md bs with
    | some d => some (.base rm d)
    | none => none

/-- A memory operand under 16-bit addressing (R98). -/
def readMem16 (md : BitVec 2) (rm : BitVec 3) (bs : List Byte) : Option MemForm :=
  if md = 0 ∧ rm = 6 then
    match bs with
    | b0 :: b1 :: _ => some (.addr16Disp (word16 b0 b1))
    | _ => none
  else
    match readDisp16 md bs with
    | some d => some (.addr16 rm d)
    | none => none

/-- `ModRM.reg` and the `r/m` operand from the bytes after the opcode; none when the bytes end first. -/
def readOperands (addr16 : Bool) (bs : List Byte) : Option (BitVec 3 × Rm) :=
  match bs with
  | [] => none
  | m :: t =>
    if field76 m = 3 then some (field53 m, .reg (field20 m))
    else
      match (if addr16 then readMem16 (field76 m) (field20 m) t else readMem (field76 m) (field20 m) t) with
      | some f => some (field53 m, .mem f)
      | none => none

/-- Whether the `r/m` operand is memory. -/
def Rm.isMem : Rm → Bool
  | .reg _ => false
  | .mem _ => true

/-! ## The three classes (R103 step 3) -/

def mkLegacy : Op → LegacyForm → Instr
  | .load28, f => .movapsLoad f
  | .store29, f => .movapsStore f

/-- The VEX row of a length bit `L` and an opcode (R89). -/
def mkVex : Bool → Op → VexForm → Instr
  | false, .load28, f => .vmovapsVex128Load f
  | false, .store29, f => .vmovapsVex128Store f
  | true, .load28, f => .vmovapsVex256Load f
  | true, .store29, f => .vmovapsVex256Store f

/-- The EVEX row of a vector length and an opcode (R92). -/
def mkEvex : VL → Op → EvexForm → Instr
  | .v128, .load28, f => .vmovapsEvex128Load f
  | .v256, .load28, f => .vmovapsEvex256Load f
  | .v512, .load28, f => .vmovapsEvex512Load f
  | .v128, .store29, f => .vmovapsEvex128Store f
  | .v256, .store29, f => .vmovapsEvex256Store f
  | .v512, .store29, f => .vmovapsEvex512Store f

/-- Put the legacy bytes into the instruction, or refuse several segment overrides (D28). -/
def finish (r : LegacyRun) (mk : Prefixes → Instr) : Except Reject Instr :=
  match r.toPrefixes with
  | some p => .ok (mk p)
  | none => .error (.refused .segmentOverrides)

/-- After `0FH` (R86, R103 step 3a). `bs` begins at the opcode byte. -/
def decodeLegacy (m : Mode) (r : LegacyRun) (rex : Option Rex) (bs : List Byte) : Except Reject Instr :=
  match bs with
  | [] => .error .ranOut
  | o :: t =>
    match opOf o with
    | none => .error (.refused .notInScope)
    | some op =>
      if r.simd then .error (.refused .notInScope)
      else
        match readOperands (m.addr16 r.has67) t with
        | none => .error .ranOut
        | some (reg, rm) =>
          if r.lock then .error (.ud .lock)
          else finish r (fun p => mkLegacy op ⟨p, rex, reg, rm⟩)

/-- Bytes that VEX or EVEX says are another instruction: refused, but `#UD` after a REX byte (R103 step 2). -/
def otherOpcode (rexBefore : Bool) : Reject :=
  if rexBefore then .ud .rexBefore else .refused .notInScope

/-- The `#UD` conditions that VEX and EVEX share (R90, R93, R172, R173). -/
def sharedUd (m : Mode) (r : LegacyRun) (rexBefore : Bool) (vvvv : BitVec 4) : Option UdCause :=
  if m.realOrV86 then some .realOrV86
  else if rexBefore then some .rexBefore
  else if r.simd then some .simdBefore
  else if r.lock then some .lock
  else if vvvv ≠ 15 then some .vvvv
  else none

/-- Whether the VEX bytes store `B` as 0, that is, extend an `r/m` or base register (R88). -/
def VexHead.b : VexHead → Bool
  | .two _ => false
  | .three _ _ b _ => b

/-- After the VEX bytes: map, `vvvv`, `L` and `pp` are read (R89). `bs` begins at the opcode byte. -/
def decodeVex (m : Mode) (r : LegacyRun) (rexBefore : Bool) (head : VexHead) (map : BitVec 5) (vvvv : BitVec 4)
    (l : Bool) (pp : BitVec 2) (bs : List Byte) : Except Reject Instr :=
  match bs with
  | [] => .error .ranOut
  | o :: t =>
    match opOf o with
    | none => .error (otherOpcode rexBefore)
    | some op =>
      if map ≠ 1 ∨ pp ≠ 0 then .error (otherOpcode rexBefore)
      else
        match readOperands (m.addr16 r.has67) t with
        | none => .error .ranOut
        | some (reg, rm) =>
          match sharedUd m r rexBefore vvvv with
          | some c => .error (.ud c)
          | none =>
            if m ≠ .long64 ∧ head.b then .error (.refused .extensionBits)
            else finish r (fun p => mkVex l op ⟨p, head, reg, rm⟩)

/-- `VEX` two-byte form (R88): `bs` begins after `C5H`. -/
def decodeVex2 (m : Mode) (r : LegacyRun) (rexBefore : Bool) (bs : List Byte) : Except Reject Instr :=
  match bs with
  | [] => .error .ranOut
  | p :: t =>
    if m ≠ .long64 ∧ field76 p ≠ 3 then .error (.refused .notInScope)
    else decodeVex m r rexBefore (.two (!p.getLsbD 7)) 1 (p.extractLsb' 3 4) (p.getLsbD 2) (p.extractLsb' 0 2) t

/-- `VEX` three-byte form (R88): `bs` begins after `C4H`. -/
def decodeVex3 (m : Mode) (r : LegacyRun) (rexBefore : Bool) (bs : List Byte) : Except Reject Instr :=
  match bs with
  | [] => .error .ranOut
  | p :: t =>
    if m ≠ .long64 ∧ field76 p ≠ 3 then .error (.refused .notInScope)
    else
      match t with
      | [] => .error .ranOut
      | q :: u =>
        decodeVex m r rexBefore (.three (!p.getLsbD 7) (!p.getLsbD 6) (!p.getLsbD 5) (q.getLsbD 7))
          (p.extractLsb' 0 5) (q.extractLsb' 3 4) (q.getLsbD 2) (q.extractLsb' 0 2) u

/-- The vector length of `EVEX.L'L`; `11b` is reserved (R91). -/
def evexLength (ll : BitVec 2) : Option VL :=
  if ll = 0 then some .v128 else if ll = 1 then some .v256 else if ll = 2 then some .v512 else none

/-- The `#UD` conditions of the EVEX fields (R104) that hold in every mode; `V'` is apart, for R93. -/
def evexFieldUd (p0 p1 p2 : Byte) (op : Op) (rm : Rm) : Option UdCause :=
  if p1.getLsbD 7 then some .evexW
  else if p2.getLsbD 4 then some .evexB
  else if p0.extractLsb' 2 2 ≠ 0 ∨ p1.getLsbD 2 = false then some .evexFixed
  else if p2.getLsbD 7 ∧ field20 p2 = 0 then some .zeroingNoMask
  else if p2.getLsbD 7 ∧ op = .store29 ∧ rm.isMem then some .zeroingMemory
  else none

/-- After the three EVEX payload bytes (R91, R92). `bs` begins at the opcode byte. -/
def decodeEvex (m : Mode) (r : LegacyRun) (rexBefore : Bool) (p0 p1 p2 : Byte) (bs : List Byte) :
    Except Reject Instr :=
  match bs with
  | [] => .error .ranOut
  | o :: t =>
    match opOf o with
    | none => .error (otherOpcode rexBefore)
    | some op =>
      if p0.extractLsb' 0 2 ≠ 1 ∨ p1.extractLsb' 0 2 ≠ 0 then .error (otherOpcode rexBefore)
      else
        match readOperands (m.addr16 r.has67) t with
        | none => .error .ranOut
        | some (reg, rm) =>
          match sharedUd m r rexBefore (p1.extractLsb' 3 4) with
          | some c => .error (.ud c)
          | none =>
            match evexFieldUd p0 p1 p2 op rm, evexLength (p2.extractLsb' 5 2) with
            | some c, _ => .error (.ud c)
            | none, none => .error (.ud .evexLL)
            | none, some vl =>
              if m ≠ .long64 ∧ (p0.getLsbD 5 = false ∨ p0.getLsbD 4 = false ∨ p2.getLsbD 3 = false) then
                .error (.refused .extensionBits)
              else if p2.getLsbD 3 = false then .error (.ud .vPrime)
              else
                finish r (fun p => mkEvex vl op
                  ⟨p, !p0.getLsbD 7, !p0.getLsbD 6, !p0.getLsbD 5, !p0.getLsbD 4, p2.getLsbD 7, field20 p2, reg, rm⟩)

/-- `EVEX` (R91): `bs` begins after `62H`. -/
def decodeEvex3 (m : Mode) (r : LegacyRun) (rexBefore : Bool) (bs : List Byte) : Except Reject Instr :=
  match bs with
  | [] => .error .ranOut
  | p0 :: t =>
    if m ≠ .long64 ∧ field76 p0 ≠ 3 then .error (.refused .notInScope)
    else
      match t with
      | p1 :: p2 :: u => decodeEvex m r rexBefore p0 p1 p2 u
      | _ => .error .ranOut

/-- The byte that says which class the instruction is (R103 step 3). -/
def decodeClass (m : Mode) (r : LegacyRun) (rexBefore : Bool) (b : Byte) (t : List Byte) : Except Reject Instr :=
  if b = 0xC5 then decodeVex2 m r rexBefore t
  else if b = 0xC4 then decodeVex3 m r rexBefore t
  else if b = 0x62 then decodeEvex3 m r rexBefore t
  else .error (.refused .notInScope)

/-- A REX byte (R86). -/
def isRex (b : Byte) : Bool := b.extractLsb' 4 4 == 4

def rexOf (b : Byte) : Rex := ⟨b.getLsbD 3, b.getLsbD 2, b.getLsbD 1, b.getLsbD 0⟩

/-- The decoding procedure of R103 on a window of bytes that is long enough or runs out. -/
def decodeWindow (m : Mode) (bs : List Byte) : Except Reject Instr :=
  match (scanLegacy bs).2 with
  | [] => .error .ranOut
  | b :: t =>
    if b = 0x0F then decodeLegacy m (scanLegacy bs).1 none t
    else if m = .long64 ∧ isRex b then
      match t with
      | [] => .error .ranOut
      | c :: u =>
        if c = 0x0F then decodeLegacy m (scanLegacy bs).1 (some (rexOf b)) u
        else decodeClass m (scanLegacy bs).1 true c u
    else decodeClass m (scanLegacy bs).1 false b t

/-- The longest instruction, in bytes (R102). -/
def maxLength : Nat := 15

/-- The decoder, total on any bytes (R103). An instruction that does not end within 15 bytes is too long (R102). -/
def decode (m : Mode) (bs : List Byte) : Decoded :=
  match decodeWindow m (bs.take maxLength) with
  | .ok i => .instr i
  | .error (.ud c) => .invalidOpcode c
  | .error (.refused c) => .refused c
  | .error .ranOut => if maxLength ≤ bs.length then .tooLong else .truncated

/-! ## The encoder -/

def Prefixes.bytes (p : Prefixes) : List Byte :=
  List.replicate p.before67 0x67 ++
    (match p.override with
    | some (s, n) => s.byte :: List.replicate n 0x67
    | none => [])

/-- The `mod` field of a displacement (R95). -/
def Disp.md : Disp → BitVec 2
  | .none => 0
  | .d8 _ => 1
  | .d32 _ => 2

def Disp.bytes : Disp → List Byte
  | .none => []
  | .d8 d => [d]
  | .d32 d => bytes32 d

/-- The `mod` field of a displacement (R98). -/
def Disp16.md : Disp16 → BitVec 2
  | .none => 0
  | .d8 _ => 1
  | .d16 _ => 2

def Disp16.bytes : Disp16 → List Byte
  | .none => []
  | .d8 d => [d]
  | .d16 d => bytes16 d

/-- ModRM, SIB and displacement of the operands (R84, R85, R95 to R98). -/
def operandBytes (reg : BitVec 3) : Rm → List Byte
  | .reg rm => [byte233 3 reg rm]
  | .mem (.base rm d) => byte233 d.md reg rm :: d.bytes
  | .mem (.sib s i b d) => byte233 d.md reg 4 :: byte233 s i b :: d.bytes
  | .mem (.sibDisp32 s i d) => byte233 0 reg 4 :: byte233 s i 5 :: bytes32 d
  | .mem (.disp32 d) => byte233 0 reg 5 :: bytes32 d
  | .mem (.addr16 rm d) => byte233 d.md reg rm :: d.bytes
  | .mem (.addr16Disp d) => byte233 0 reg 6 :: bytes16 d

/-- The REX byte `0100 W R X B` (R86). -/
def Rex.byte (x : Rex) : Byte :=
  (4#4) ++ BitVec.ofBool x.w ++ BitVec.ofBool x.r ++ BitVec.ofBool x.x ++ BitVec.ofBool x.b

/-- The VEX bytes (R88, R89). -/
def VexHead.bytes (l : Bool) : VexHead → List Byte
  | .two r => [0xC5, BitVec.ofBool (!r) ++ (15#4) ++ BitVec.ofBool l ++ (0#2)]
  | .three r x b w =>
    [0xC4, BitVec.ofBool (!r) ++ BitVec.ofBool (!x) ++ BitVec.ofBool (!b) ++ (1#5),
      BitVec.ofBool w ++ (15#4) ++ BitVec.ofBool l ++ (0#2)]

/-- The field `L'L` (R91). -/
def VL.ll : VL → BitVec 2
  | .v128 => 0
  | .v256 => 1
  | .v512 => 2

/-- The EVEX bytes (R91, R92). -/
def EvexForm.head (vl : VL) (f : EvexForm) : List Byte :=
  [0x62,
    BitVec.ofBool (!f.r) ++ BitVec.ofBool (!f.x) ++ BitVec.ofBool (!f.b) ++ BitVec.ofBool (!f.r') ++ (1#4),
    0x7C,
    BitVec.ofBool f.z ++ vl.ll ++ (0#1) ++ (1#1) ++ f.aaa]

def encodeLegacy (op : Op) (f : LegacyForm) : List Byte :=
  f.legacy.bytes ++ (match f.rex with | some x => [x.byte] | none => []) ++ (0x0F :: op.byte :: operandBytes f.reg f.rm)

def encodeVex (l : Bool) (op : Op) (f : VexForm) : List Byte :=
  f.legacy.bytes ++ f.head.bytes l ++ (op.byte :: operandBytes f.reg f.rm)

def encodeEvex (vl : VL) (op : Op) (f : EvexForm) : List Byte :=
  f.legacy.bytes ++ f.head vl ++ (op.byte :: operandBytes f.reg f.rm)

/-- The bytes of an instruction, lowest address first (R80). -/
def encode : Instr → List Byte
  | .movapsLoad f => encodeLegacy .load28 f
  | .movapsStore f => encodeLegacy .store29 f
  | .vmovapsVex128Load f => encodeVex false .load28 f
  | .vmovapsVex128Store f => encodeVex false .store29 f
  | .vmovapsVex256Load f => encodeVex true .load28 f
  | .vmovapsVex256Store f => encodeVex true .store29 f
  | .vmovapsEvex128Load f => encodeEvex .v128 .load28 f
  | .vmovapsEvex256Load f => encodeEvex .v256 .load28 f
  | .vmovapsEvex512Load f => encodeEvex .v512 .load28 f
  | .vmovapsEvex128Store f => encodeEvex .v128 .store29 f
  | .vmovapsEvex256Store f => encodeEvex .v256 .store29 f
  | .vmovapsEvex512Store f => encodeEvex .v512 .store29 f

/-! ## Length (R102) -/

def Prefixes.len (p : Prefixes) : Nat :=
  p.before67 + (match p.override with | some (_, n) => n + 1 | none => 0)

def Disp.len : Disp → Nat
  | .none => 0
  | .d8 _ => 1
  | .d32 _ => 4

def Disp16.len : Disp16 → Nat
  | .none => 0
  | .d8 _ => 1
  | .d16 _ => 2

/-- The bytes of ModRM, SIB and displacement (R102). -/
def Rm.len : Rm → Nat
  | .reg _ => 1
  | .mem (.base _ d) => 1 + d.len
  | .mem (.sib _ _ _ d) => 1 + 1 + d.len
  | .mem (.sibDisp32 _ _ _) => 1 + 1 + 4
  | .mem (.disp32 _) => 1 + 4
  | .mem (.addr16 _ d) => 1 + d.len
  | .mem (.addr16Disp _) => 1 + 2

def LegacyForm.len (f : LegacyForm) : Nat :=
  f.legacy.len + ((match f.rex with | some _ => 1 | none => 0) + 1) + 1 + f.rm.len

def VexHead.len : VexHead → Nat
  | .two _ => 2
  | .three _ _ _ _ => 3

def VexForm.len (f : VexForm) : Nat := f.legacy.len + f.head.len + 1 + f.rm.len

def EvexForm.len (f : EvexForm) : Nat := f.legacy.len + 4 + 1 + f.rm.len

/-- The total length of an instruction in bytes (R102). -/
def Instr.len : Instr → Nat
  | .movapsLoad f | .movapsStore f => f.len
  | .vmovapsVex128Load f | .vmovapsVex128Store f | .vmovapsVex256Load f | .vmovapsVex256Store f => f.len
  | .vmovapsEvex128Load f | .vmovapsEvex256Load f | .vmovapsEvex512Load f
  | .vmovapsEvex128Store f | .vmovapsEvex256Store f | .vmovapsEvex512Store f => f.len

/-! ## A table word -/

/-- The first `n` bytes of the number `w`, its least significant byte first. -/
def bytesOfNat : Nat → Nat → List Byte
  | 0, _ => []
  | n + 1, w => BitVec.ofNat 8 w :: bytesOfNat n (w / 256)

/-- The bytes of an instruction whose first `nbits` bits are `w` and whose later bits are 0, as many as the longest
instruction has. -/
def tableBytes (nbits w : Nat) : List Byte :=
  bytesOfNat (nbits / 8) w ++ List.replicate (maxLength - nbits / 8) 0

/-- The instruction the decoder reads, in 64-bit mode (the spec's D2), from a table word: log 32. -/
def decodeTableWord (nbits w : Nat) : Option Instr :=
  match decode .long64 (tableBytes nbits w) with
  | .instr i => some i
  | _ => none

end Sys2Proof
end

