-- ==== Sys2Proof/Config.lean ====
section
/-! DEFINITION. What an implementation fixes: the parameters of R6, and the values this model names where the spec gives none. -/

namespace Sys2Proof

/-- `MAX_VL`: the width in bits of a vector register (R6).
DESIGN CHOICE (the spec's D1): 512 only. Unsafe on a processor without AVX512F: log 2. -/
def Config.maxVL : Nat := 512

/-- `NUM_VEC`: how many vector registers are held; an EVEX encoding in 64-bit mode can name all 32 (R20). -/
def Config.numVec : Nat := 32

/-- What a byte of memory that nothing has listed reads as.
DESIGN CHOICE: the spec gives memory no contents (R34). Unsafe: log 26. -/
def Config.freshByte : Byte := 0

/-- The processor signature in RDX at reset (R34), whose value no rule gives.
DESIGN CHOICE 0. Unsafe: log 25. -/
def Config.processorSignature : Word64 := 0

/-- `LA_BITS`: the number of significant linear-address bits in `Long64` (R6, R57). -/
inductive LaBits where
  | la48
  | la57
  deriving DecidableEq, Repr

/-- `ALIGN_ON`: which address the alignment test reads (R54, D7). -/
inductive AlignOn where
  | linear
  | effective
  deriving DecidableEq, Repr

/-- The parameters of R6 that a launch state fixes (R201): the CPUID flags of R29, and the open parameters; and D24 as a switch. -/
structure Params where
  sse : Bool
  avx : Bool
  avx512f : Bool
  avx512vl : Bool
  laBits : LaBits
  alignOn : AlignOn
  faultSuppression : Bool
  /-- whether the 16-bit addressing forms are executed by R98's table; false is R98's own decision, that they are refused
  (D24, R183; log 17) -/
  sixteenBit : Bool
  deriving DecidableEq, Repr

/-- The parameters of the reset state: all four feature flags set, `LA_BITS` 48, and what D7, D9 and D24 decide.
DESIGN CHOICE: logs 6, 7, 17, 25, 33. -/
def Config.params : Params :=
  { sse := true, avx := true, avx512f := true, avx512vl := true, laBits := .la48, alignOn := .linear, faultSuppression := true,
    sixteenBit := false }

end Sys2Proof
end

