-- ==== Sys2Proof/Machine/State.lean ====
section
/-! DEFINITION. The state of the machine as plain data, the reasons a step stops, and the state after reset. -/

namespace Sys2Proof.Machine

/-- A segment register's hidden part: base, limit and access rights (R26, R57, R58; log 31). -/
structure Segment where
  base : Word64
  limit : BitVec 32
  null : Bool
  readable : Bool
  writable : Bool
  deriving DecidableEq, Repr

/-- An answer of the oracle `Translate` for a page (R59): the physical page, or a page fault with its error code. -/
inductive Answer where
  | ok (frame : BitVec 52)
  | pageFault (code : BitVec 32)
  deriving DecidableEq, Repr

/-- One answer of `Translate`: it depends on `la[63:12]`, the access kind and the privilege level alone (R59). -/
structure TranslateRow where
  page : BitVec 52
  access : Access
  cpl : BitVec 2
  answer : Answer
  deriving DecidableEq, Repr

/-- A range of linear addresses: `size` addresses from `base` on (R64, R68, R206). -/
structure AddrRange where
  base : Nat
  size : Nat
  deriving DecidableEq, Repr

/-- Memory: (physical address, byte) pairs, canonical when `Mem.wf` holds (R31, R50). -/
abbrev Mem := List Host.Cell

/-- The machine's state: all that R201 puts into a launch state, and the registers R28, R30, R32 and R34 name. -/
structure State where
  /-- the vector registers ZMM0 to ZMM31; XMM and YMM are their low parts (R20, R21) -/
  zmm : Vector Vec 32
  /-- the opmask registers k0 to k7 (R24) -/
  k : Vector (BitVec 64) 8
  /-- the general registers, by number (R25) -/
  gpr : Vector Word64 16
  /-- the segment registers, by number (R26) -/
  segs : Vector Segment 6
  /-- the instruction pointer (R27) -/
  pc : Word64
  /-- the flags register (R28, R34) -/
  rflags : BitVec 32
  /-- the SIMD floating-point control and status register (R28, R34) -/
  mxcsr : BitVec 32
  /-- control register 0 (R30) -/
  cr0 : BitVec 32
  /-- control register 2: the linear address of a page fault (R32, R178) -/
  cr2 : Word64
  /-- control register 4 (R30) -/
  cr4 : BitVec 32
  /-- extended control register 0 (R30) -/
  xcr0 : BitVec 64
  /-- the processor operating mode (R6, R188) -/
  mode : Mode
  /-- the current privilege level, which `Translate` reads (R59, R188) -/
  cpl : BitVec 2
  /-- the feature flags and open parameters (R6, R29) -/
  params : Params
  /-- the answers of `Translate` while paging is on (R59, R201) -/
  translation : List TranslateRow
  /-- the address map: the admitted linear addresses (R64, R201) -/
  admitted : List AddrRange
  /-- where the program text lies (R68, R201, R206) -/
  text : AddrRange
  /-- the bytes of memory (R31, R50) -/
  mem : Mem
  /-- whether a debug register is armed (R189) -/
  debugArmed : Bool
  deriving DecidableEq, Repr

/-- The exceptions an encoding in scope can raise (R170). A step that raises one stops (R183): safe, since nothing can
be proved of what a handler would see (log 12). -/
inductive Fault where
  /-- `#UD`, vector 6: raised by the tests of R171 to R173 and by the decoder (R104); safe -/
  | invalidOpcode
  /-- `#NM`, vector 7: raised when `CR0.TS` = 1 and no `#UD` condition holds (R174); safe -/
  | deviceNotAvailable
  /-- `#SS(0)`, vector 12: raised by address formation in `SS` (R177); safe -/
  | stackSegment
  /-- `#GP(0)`, vector 13: raised by length, address formation and alignment (R102, R175, R176); safe -/
  | generalProtection
  /-- `#PF(code)`, vector 14, with the linear address CR2 receives: raised by `Translate` (R178); safe -/
  | pageFault (code : BitVec 32) (cr2 : Word64)
  deriving DecidableEq, Repr

/-- What the model refuses, each by a rule of the spec. Every refusal is safe: no claim about a completed run can rest on it. -/
inductive Refusal where
  /-- an arm of `exec` without a meaning; no arm answers it -/
  | notModelled (mnemonic : String)
  /-- raised by `step`: the bytes are not one of the twelve encodings (R103, R183, D21); safe -/
  | notInScope
  /-- raised by `step`: more than one segment override (R100, D28); safe -/
  | segmentOverrides
  /-- raised by a memory operand: a 16-bit addressing form while `sixteenBit` is false (R98, R183, D24; log 17); safe -/
  | sixteenBitAddressing
  /-- raised by `step`: VEX or EVEX extension bits in a 16- or 32-bit protected mode (R90, R93, D26); safe -/
  | extensionBits
  /-- raised by `step`: the instruction's bytes are not all readable through the address map (R206; log 27); safe -/
  | fetchOutsideMap
  /-- raised by `step`: a debug register is armed or `TF` is set (R189); safe -/
  | debugTrap
  /-- raised by a memory operand: an address outside the address map (R59, R64, D11); safe -/
  | notAdmitted (la : Word64)
  /-- raised by a memory operand: the launch state gives no answer of `Translate` for the page (R59, R64; log 10); safe -/
  | noTranslation (la : Word64)
  /-- raised by a store form: its bytes overlap the program text (R68, D13); safe -/
  | storeOverText
  deriving DecidableEq, Repr

/-- Why an operation inside an instruction stops it. -/
inductive Stop where
  | fault (f : Fault)
  | refusal (r : Refusal)
  deriving DecidableEq, Repr

/-- The outcome of a step (R183). -/
abbrev Outcome := Host.Outcome State Fault Refusal

/-- The code segment after reset: base `FFFF0000H` (R34); limit and rights PRESUMED, the family's (log 25). -/
def Segment.resetCode : Segment := { base := 0xFFFF0000, limit := 0xFFFF, null := false, readable := true, writable := true }

/-- Every other segment after reset. PRESUMED: the family's values (log 25). -/
def Segment.resetData : Segment := { base := 0, limit := 0xFFFF, null := false, readable := true, writable := true }

/-- The machine right after reset: the values of R34 (log 24); where R34 gives none, the values of log 25;
the address map, the translation and the text as logs 9, 10 and 11 say; nothing listed in memory (log 26). -/
def State.reset : State :=
  { zmm := .replicate 32 0
    k := .replicate 8 0
    gpr := (Vector.replicate 16 0).set 2 Config.processorSignature
    segs := (Vector.replicate 6 Segment.resetData).set 1 Segment.resetCode
    pc := 0xFFF0
    rflags := 0x2
    mxcsr := 0x1F80
    cr0 := 0x60000010
    cr2 := 0
    cr4 := 0
    xcr0 := 1
    mode := .real
    cpl := 0
    params := Config.params
    translation := []
    admitted := [⟨0, 2 ^ 64⟩]
    text := ⟨0, 0⟩
    mem := []
    debugArmed := false }

end Sys2Proof.Machine
end

