-- ==== Sys2Proof/Machine/Flags.lean ====
section
/-! DEFINITION. The control bits and feature flags an instruction reads (R29, R30), and the `#UD` and `#NM` tests over
them (R171 to R174). No encoding in scope writes a flag (R28): there is no flag computation. -/

namespace Sys2Proof.Machine

/-- `CR0.PE` (R30): 0 exactly in `Real` mode (log 3). -/
def State.pe (s : State) : Bool := s.cr0.getLsbD 0
/-- `CR0.EM` (R30). -/
def State.em (s : State) : Bool := s.cr0.getLsbD 2
/-- `CR0.TS` (R30). -/
def State.ts (s : State) : Bool := s.cr0.getLsbD 3
/-- `CR0.PG` (R59). PRESUMED: bit 31 (log 23). -/
def State.pg (s : State) : Bool := s.cr0.getLsbD 31
/-- `CR4.OSFXSR` (R30). -/
def State.osfxsr (s : State) : Bool := s.cr4.getLsbD 9
/-- `CR4.OSXSAVE` (R30). -/
def State.osxsave (s : State) : Bool := s.cr4.getLsbD 18
/-- The flag `TF` of single-stepping (R189). PRESUMED: bit 8 (log 23). -/
def State.tf (s : State) : Bool := s.rflags.getLsbD 8
/-- `XCR0[2:1]` = 11b (R172). -/
def State.xcr0Avx (s : State) : Bool := s.xcr0.extractLsb' 1 2 == 3
/-- `XCR0[7:5]` = 111b (R173). -/
def State.xcr0Evex (s : State) : Bool := s.xcr0.extractLsb' 5 3 == 7

/-- Paging is on: `CR0.PG` = 1 (R59); never in `Real` mode (R178). -/
def State.pagingOn (s : State) : Bool := s.pg && s.mode != .real

/-- The `#UD` conditions of the legacy rows (R171). A `LOCK` byte is the decoder's. -/
def State.udLegacy (s : State) : Bool := s.em || !s.osfxsr || !s.params.sse

/-- The `#UD` conditions of the VEX rows (R172). `vvvv` and the bytes before VEX are the decoder's. -/
def State.udVex (s : State) : Bool :=
  s.mode.realOrV86 || !s.osxsave || !s.xcr0Avx || !s.params.avx

/-- The `#UD` conditions of the EVEX rows from the state (R173). The fields are the decoder's, but for `z`. -/
def State.udEvex (s : State) (vl : VL) : Bool :=
  s.mode.realOrV86 || !s.osxsave || !s.xcr0Avx || !s.xcr0Evex || !s.params.avx512f ||
    (vl != .v512 && !s.params.avx512vl)

end Sys2Proof.Machine
end

