-- ==== Sys2Proof/Machine/Ops.lean ====
section
/-! DEFINITION. The named operations over registers and memory, raising an exception, and fetching an instruction's bytes. -/

namespace Sys2Proof.Machine

/-! ## Vectors and their elements (R21, R150) -/

/-- Element `j` of a vector: bits `[32j+31:32j]` (R150). -/
def elem (v : Vec) (j : Nat) : Elem := v.extractLsb' (32 * j) 32

/-- Byte `b` of a vector operand: bits `[8b+7:8b]` (R52). -/
def byteOf (v : Vec) (b : Nat) : Byte := v.extractLsb' (8 * b) 8

/-- The vector whose elements below `n` are given by `f` and whose bits from `32n` on are 0. -/
def fromElems (f : Nat → Elem) : Nat → Vec
  | 0 => 0
  | n + 1 => fromElems f n ||| ((f n).setWidth 512 <<< (32 * n))

/-- `KL`: the number of 32-bit elements of a vector length (R150). -/
def vlElems : VL → Nat
  | .v128 => 4
  | .v256 => 8
  | .v512 => 16

/-- `VL/8`: the bytes of an operand, and its required alignment (R51, R53). -/
def vlBytes (vl : VL) : Nat := 4 * vlElems vl

/-! ## Registers -/

/-- Read a vector register (R9). -/
def State.vec (s : State) (n : Fin 32) : Vec := s.zmm[n]

/-- Write all bits of a vector register (R9). -/
def State.setVec (s : State) (n : Fin 32) (v : Vec) : State := { s with zmm := s.zmm.set n v }

/-- Read an opmask register (R9, R24). -/
def State.mask (s : State) (n : Fin 8) : BitVec 64 := s.k[n]

/-- Read a general register at its full width (R9, R25). No instruction writes one (R33). -/
def State.reg (s : State) (n : Fin 16) : Word64 := s.gpr[n]

/-- The number of a segment register (R26). -/
def segNumber : SegReg → Fin 6
  | .es => 0
  | .cs => 1
  | .ss => 2
  | .ds => 3
  | .fs => 4
  | .gs => 5

/-- Read a segment register's hidden part (R26). -/
def State.seg (s : State) (r : SegReg) : Segment := s.segs[segNumber r]

/-- The low 32 bits, zero-extended: what the modes other than `Long64` keep of an address (R27, R57). -/
def low32 (a : Word64) : Word64 := (a.setWidth 32).setWidth 64

/-- What the mode keeps of a linear address and of the instruction pointer: 64 bits in `Long64`, 32 elsewhere (R27, R50). -/
def State.wrap (s : State) (a : Word64) : Word64 := if s.mode = .long64 then a else low32 a

/-- The address of the next instruction: `pc + len` modulo 2^64 in `Long64`, modulo 2^32 elsewhere (R27; log 16). -/
def State.nextPc (s : State) (len : Nat) : Word64 := s.wrap (s.pc + BitVec.ofNat 64 len)

/-- `pc <- pc + len` (R27). -/
def State.advance (s : State) (len : Nat) : State := { s with pc := s.nextPc len }

/-! ## Exceptions (R170, R182, R183) -/

/-- The vector number of an exception (R170). -/
def Fault.vector : Fault → Nat
  | .invalidOpcode => 6
  | .deviceNotAvailable => 7
  | .stackSegment => 12
  | .generalProtection => 13
  | .pageFault _ _ => 14

/-- The error code of an exception, where it has one (R170). -/
def Fault.errorCode : Fault → Option (BitVec 32)
  | .invalidOpcode | .deviceNotAvailable => none
  | .stackSegment | .generalProtection => some 0
  | .pageFault c _ => some c

/-- What CR2 receives: the faulting linear address, on a page fault only (R170, R178). -/
def Fault.cr2 : Fault → Option Word64
  | .pageFault _ la => some la
  | .invalidOpcode | .deviceNotAvailable | .stackSegment | .generalProtection => none

/-- The state a fault leaves: everything as it was, `pc` at the faulting instruction, and CR2 on a page fault (R182). -/
def State.afterFault (s : State) (f : Fault) : State :=
  match f.cr2 with
  | some la => { s with cr2 := la }
  | none => s

/-- Raise an exception: it ends the instruction and is not delivered (R9, R183; log 12). There is no return (R184). -/
def raise (f : Fault) : Outcome := .fault f

def Stop.outcome : Stop → Outcome
  | .fault f => raise f
  | .refusal r => .refused r

/-! ## Memory (R31, R50, R52) -/

/-- Bits 63 down to `LA_BITS - 1` are all equal (R57). -/
def canonical (b : LaBits) (la : Word64) : Bool :=
  match b with
  | .la48 => (la.setWidth 48).signExtend 64 == la
  | .la57 => (la.setWidth 57).signExtend 64 == la

/-- The byte at a physical address. -/
def Mem.read : Mem → Nat → Byte
  | [], _ => Config.freshByte
  | (a', b) :: m, a => if a' = a then b else Mem.read m a

/-- Write one byte, keeping the canonical form. -/
def Mem.write : Mem → Nat → Byte → Mem
  | [], a, v => if v = Config.freshByte then [] else [(a, v)]
  | (a', b) :: m, a, v =>
    if a < a' then (if v = Config.freshByte then (a', b) :: m else (a, v) :: (a', b) :: m)
    else if a = a' then (if v = Config.freshByte then m else (a, v) :: m)
    else (a', b) :: Mem.write m a v

/-- Write bytes one after another. -/
def Mem.writeAll : Mem → List Host.Cell → Mem
  | m, [] => m
  | m, c :: cs => Mem.writeAll (Mem.write m c.1 c.2) cs

/-- The canonical form: addresses strictly rising, and no entry equal to what an unlisted address reads as. -/
def Mem.wf : Mem → Bool
  | [] => true
  | (a, b) :: m => m.all (fun c => decide (a < c.1)) && b != Config.freshByte && Mem.wf m

/-! ## The address map and translation (R59, R64) -/

/-- Whether a range holds an address. -/
def AddrRange.holds (r : AddrRange) (a : Word64) : Bool := decide (r.base ≤ a.toNat ∧ a.toNat < r.base + r.size)

/-- Whether the address map admits a linear address (R64). -/
def State.admits (s : State) (la : Word64) : Bool := s.admitted.any (fun r => r.holds la)

/-- The page number `la[63:12]` (R59). -/
def pageOf (la : Word64) : BitVec 52 := la.extractLsb' 12 52

/-- `Translate(la, rw, cpl)` (R59): the identity while paging is off, else the launch state's answer, if it gives one. -/
def State.translate (s : State) (rw : Access) (la : Word64) : Option Answer :=
  if s.pagingOn then
    match s.translation.find? (fun r => r.page == pageOf la && r.access == rw && r.cpl == s.cpl) with
    | some r => some r.answer
    | none => none
  else some (.ok (pageOf la))

/-- The physical address of a byte: the page's frame and `la[11:0]` (R59), where `Translate` answers one. -/
def State.phys? (s : State) (rw : Access) (la : Word64) : Option Nat :=
  match s.translate rw la with
  | some (.ok frame) => some (frame ++ la.extractLsb' 0 12 : BitVec (52 + 12)).toNat
  | _ => none

/-- The physical address of an accessible byte (and `la` itself where there is none, which no access uses). -/
def State.phys (s : State) (rw : Access) (la : Word64) : Nat := (s.phys? rw la).getD la.toNat

/-- Why the byte at a linear address cannot be accessed, if it cannot (R59, R64, R178). -/
def State.probeByte (s : State) (rw : Access) (la : Word64) : Option Stop :=
  if s.admits la then
    match s.translate rw la with
    | some (.ok _) => none
    | some (.pageFault c) => some (.fault (.pageFault c la))
    | none => some (.refusal (.noTranslation la))
  else some (.refusal (.notAdmitted la))

/-- The first byte of a list that cannot be accessed, and why (R59: "the first faulting byte"). -/
def State.probe (s : State) (rw : Access) : List Word64 → Option Stop
  | [] => none
  | la :: las =>
    match s.probeByte rw la with
    | some e => some e
    | none => s.probe rw las

/-- The byte at an accessible linear address (R52). -/
def State.byteAt (s : State) (la : Word64) : Byte := s.mem.read (s.phys .read la)

/-- The linear address `b` bytes above another, of the width R50 gives the mode.
DESIGN CHOICE: the spec states no sum `la + b` past the top of linear space; it goes on at 0 (log 38). -/
def State.offset (s : State) (la : Word64) (b : Nat) : Word64 := s.wrap (la + BitVec.ofNat 64 b)

/-- `MemRead(la, 4)`: four bytes, the lowest address in the low byte (R9, R52). -/
def State.elemAt (s : State) (la : Word64) : Elem :=
  s.byteAt (s.offset la 3) ++ s.byteAt (s.offset la 2) ++ s.byteAt (s.offset la 1) ++ s.byteAt la

/-! ## Loading and storing an operand (R51, R60, R178) -/

/-- The bytes an access touches: those of the selected elements (R60). -/
def touched (kl : Nat) (sel : Nat → Bool) : List Nat := (List.range (4 * kl)).filter (fun b => sel (b / 4))

/-- The bytes whose translation is asked for: the touched ones, or all of the operand when `FAULT_SUPPRESSION` is false (R60). -/
def State.tested (s : State) (kl : Nat) (sel : Nat → Bool) : List Nat :=
  if s.params.faultSuppression then touched kl sel else List.range (4 * kl)

/-- The selected elements of a memory operand; an unselected element is not read (R60). -/
def State.gather (s : State) (la : Word64) (kl : Nat) (sel : Nat → Bool) : Vec :=
  fromElems (fun j => if sel j then s.elemAt (s.offset la (4 * j)) else 0) kl

/-- The (physical address, byte) pairs a store writes: the bytes of the selected elements (R60). -/
def State.storeCells (s : State) (la : Word64) (kl : Nat) (sel : Nat → Bool) (src : Vec) : List Host.Cell :=
  (touched kl sel).map (fun b => (s.phys .write (s.offset la b), byteOf src b))

/-- Write the selected elements of a vector to memory (R60). -/
def State.scatter (s : State) (la : Word64) (kl : Nat) (sel : Nat → Bool) (src : Vec) : State :=
  { s with mem := s.mem.writeAll (s.storeCells la kl sel src) }

/-- The linear address of byte `n` of the program text; with `n` its size, the address just after it (R206). -/
def State.textAddr (s : State) (n : Nat) : Word64 := s.offset (BitVec.ofNat 64 s.text.base) n

/-- Whether a linear address is that of a byte of the program text (R68). -/
def State.textHolds (s : State) (la : Word64) : Bool :=
  decide ((s.wrap (la - BitVec.ofNat 64 s.text.base)).toNat < s.text.size)

/-- The physical addresses of the program text (R68). -/
def State.textPhys (s : State) : List Nat := (List.range s.text.size).filterMap (fun n => s.phys? .read (s.textAddr n))

/-- Whether a byte to be stored is a byte of the program text, by its linear or its physical address (R68; log 11). -/
def State.inText (s : State) (la : Word64) : Bool :=
  s.textHolds la || s.textPhys.contains (s.phys .write la)

/-- Whether a store overlaps the program text (R68). -/
def State.overText (s : State) (la : Word64) (kl : Nat) (sel : Nat → Bool) : Bool :=
  (touched kl sel).any (fun b => s.inText (s.offset la b))

/-- Load the selected elements at `la`, or stop at the first byte that cannot be read. -/
def State.load (s : State) (la : Word64) (kl : Nat) (sel : Nat → Bool) (k : Vec → Outcome) : Outcome :=
  match s.probe .read ((s.tested kl sel).map (s.offset la)) with
  | some e => e.outcome
  | none => k (s.gather la kl sel)

/-- Store the selected elements at `la`: every test is made before the first byte is written (R182). -/
def State.store (s : State) (la : Word64) (kl : Nat) (sel : Nat → Bool) (src : Vec) (k : State → Outcome) : Outcome :=
  match s.probe .write ((s.tested kl sel).map (s.offset la)) with
  | some e => e.outcome
  | none => if s.overText la kl sel then .refused .storeOverText else k (s.scatter la kl sel src)

/-! ## Fetching (R27, R50, R56) -/

/-- The linear address of byte `n` of the instruction at `pc` (R26, R27, R34; log 27). -/
def State.fetchAddr (s : State) (n : Nat) : Word64 :=
  if s.mode = .long64 then s.pc + BitVec.ofNat 64 n else low32 ((s.seg .cs).base + (s.pc + BitVec.ofNat 64 n))

/-- Whether an instruction byte can be fetched: canonical in `Long64` (R27, U15), and readable (log 27). -/
def State.fetchable (s : State) (la : Word64) : Bool :=
  (s.mode != .long64 || canonical s.params.laBits la) && (s.probeByte .read la).isNone

/-- At most `fuel` bytes from byte `n` of the instruction on, up to the first that cannot be fetched. -/
def State.fetchFrom (s : State) : Nat → Nat → List Byte
  | 0, _ => []
  | fuel + 1, n =>
    if s.fetchable (s.fetchAddr n) then s.byteAt (s.fetchAddr n) :: s.fetchFrom fuel (n + 1) else []

/-- The bytes the decoder is given: as many as the longest instruction has (R102). -/
def State.fetch (s : State) : List Byte := s.fetchFrom maxLength 0

/-- Whether the model refuses to step because a debug trap would follow (R189; log 22). -/
def State.debugTrap (s : State) : Bool := s.debugArmed || s.tf

/-! ## Launching a program (R201, R202, R206; log 1) -/

/-- Put bytes into memory from a physical address on. -/
def Mem.place : Mem → Nat → List Byte → Mem
  | m, _, [] => m
  | m, a, b :: bs => Mem.place (m.write a b) (a + 1) bs

/-- The control state of a launch in 64-bit mode: `PE` set, `EM`, `TS` and `PG` clear, `OSFXSR` and `OSXSAVE` set,
the `XCR0` bits of R202 set, no debug trap. -/
def State.launch (s : State) : State :=
  { s with
    mode := .long64
    cr0 := (s.cr0 ||| 0x1) &&& 0x7FFFFFF3
    cr4 := s.cr4 ||| 0x40200
    xcr0 := s.xcr0 ||| 0xE6
    rflags := s.rflags &&& 0xFFFFFEFF
    debugArmed := false }

/-- Launch with the given bytes at `pc`, the first `len` of them the program text, every address admitted. -/
def State.launchBytes (s : State) (bytes : List Byte) (len : Nat) : State :=
  { s.launch with
    mem := s.mem.place s.pc.toNat bytes
    text := ⟨s.pc.toNat, len⟩
    admitted := [⟨0, 2 ^ 64⟩] }

end Sys2Proof.Machine
end

