-- ==== Sys2Proof/Machine/Operands.lean ====
section
/-! DEFINITION. The Level A record of an instruction (R108), its operands (R93 to R101), the tests every instruction makes
(R129, R181), and the load and store forms all twelve encodings share. -/

namespace Sys2Proof.Machine

/-! ## Register numbers (R86, R88, R93) -/

/-- The bits that extend register numbers, from REX, VEX or EVEX, not inverted; 0 when absent. -/
structure Ext where
  r' : Bool
  r : Bool
  x : Bool
  b : Bool
  deriving DecidableEq, Repr

/-- A five-bit vector register number. -/
def vecNumber (hi lo : Bool) (n : BitVec 3) : Fin 32 :=
  ((BitVec.ofBool hi ++ BitVec.ofBool lo ++ n : BitVec (1 + 1 + 3))).toFin

/-- A four-bit general register number. -/
def gprNumber (hi : Bool) (n : BitVec 3) : Fin 16 := (BitVec.ofBool hi ++ n : BitVec (1 + 3)).toFin

def legacyExt (f : LegacyForm) : Ext :=
  match f.rex with
  | some x => ⟨false, x.r, x.x, x.b⟩
  | none => ⟨false, false, false, false⟩

def vexExt (f : VexForm) : Ext :=
  match f.head with
  | .two r => ⟨false, r, false, false⟩
  | .three r x b _ => ⟨false, r, x, b⟩

def evexExt (f : EvexForm) : Ext := ⟨f.r', f.r, f.x, f.b⟩

/-! ## Effective address and segment (R95 to R101) -/

/-- The address sizes (R101). -/
inductive AddrSize where
  | a64
  | a32
  | a16
  deriving DecidableEq, Repr

/-- The address size of a mode with or without `67H` (R101). -/
def addrSize (m : Mode) (has67 : Bool) : AddrSize :=
  match m with
  | .long64 => if has67 then .a32 else .a64
  | .compat32 | .prot32 | .prot16 | .real | .v86 => if m.addr16 has67 then .a16 else .a32

/-- Truncate a sum to the address size and zero-extend it (R57, R95, R98; log 34). -/
def narrow : AddrSize → Word64 → Word64
  | .a64, a => a
  | .a32, a => low32 a
  | .a16, a => (a.setWidth 16).setWidth 64

/-- The value of a displacement; an EVEX `disp8` is scaled by `n`, the operand's bytes, others by 1 (R99). -/
def dispValue (n : Nat) : Disp → Word64
  | .none => 0
  | .d8 d => sext64 d * BitVec.ofNat 64 n
  | .d32 d => sext64 d

/-- The value of a displacement of a 16-bit form (R98). -/
def disp16Value (n : Nat) : Disp16 → Word64
  | .none => 0
  | .d8 d => sext64 d * BitVec.ofNat 64 n
  | .d16 d => sext64 d

/-- The scaled index of a SIB form; none when `X ++ index` is register number 4 (R96). -/
def State.indexValue (s : State) (x : Bool) (scale : BitVec 2) (index : BitVec 3) : Word64 :=
  if gprNumber x index = 4 then 0 else s.reg (gprNumber x index) <<< scale.toNat

/-- The registers a 16-bit form sums (R98): `BX` is number 3, `BP` 5, `SI` 6, `DI` 7. -/
def State.base16 (s : State) (rm : BitVec 3) : Word64 :=
  match rm.toNat with
  | 0 => s.reg 3 + s.reg 6
  | 1 => s.reg 3 + s.reg 7
  | 2 => s.reg 5 + s.reg 6
  | 3 => s.reg 5 + s.reg 7
  | 4 => s.reg 6
  | 5 => s.reg 7
  | 6 => s.reg 5
  | _ => s.reg 3

/-- The sum of an addressing form before it is truncated (R95 to R98). `len` is the instruction's length, for the
RIP-relative form (R97); `n` scales an 8-bit displacement (R99). -/
def State.formSum (s : State) (e : Ext) (n len : Nat) : MemForm → Word64
  | .base rm d => s.reg (gprNumber e.b rm) + dispValue n d
  | .sib sc i b d => s.reg (gprNumber e.b b) + s.indexValue e.x sc i + dispValue n d
  | .sibDisp32 sc i d => s.indexValue e.x sc i + sext64 d
  | .disp32 d => (if s.mode = .long64 then s.nextPc len else 0) + sext64 d
  | .addr16 rm d => s.base16 rm + disp16Value n d
  | .addr16Disp d => sext64 d

/-- The effective address of a memory operand (R95 to R101). -/
def State.effectiveAddress (s : State) (e : Ext) (p : Prefixes) (n len : Nat) (m : MemForm) : Word64 :=
  narrow (addrSize s.mode p.has67) (s.formSum e n len m)

/-- Whether a base register makes `SS` the default: number 4 or 5 with `B` = 0 (R100). -/
def stackBase (b : Bool) (n : BitVec 3) : Bool := !b && (n == 4 || n == 5)

/-- The default segment of an addressing form (R98, R100). -/
def defaultSegment (e : Ext) : MemForm → SegReg
  | .base rm _ => if stackBase e.b rm then .ss else .ds
  | .sib _ _ b _ => if stackBase e.b b then .ss else .ds
  | .sibDisp32 _ _ _ => .ds
  | .disp32 _ => .ds
  | .addr16 rm _ => if rm == 2 || rm == 3 || rm == 6 then .ss else .ds
  | .addr16Disp _ => .ds

/-- The segment of the operand: an override replaces the default, but in 64-bit mode only `FS` and `GS` do (R100). -/
def operandSegment (m : Mode) (e : Ext) (p : Prefixes) (f : MemForm) : SegReg :=
  match p.override with
  | none => defaultSegment e f
  | some (.fs, _) => .fs
  | some (.gs, _) => .gs
  | some (r, _) => if m = .long64 then defaultSegment e f else r

/-! ## The Level A record (R108) -/

/-- The `r/m` operand of the record: a vector register, or a segment and an effective address (R108); or a 16-bit
addressing form that is refused, of which no address is formed (R98, D24; log 17). -/
inductive RmOperand where
  | reg (n : Fin 32)
  | mem (seg : SegReg) (ea : Word64)
  | refused16
  deriving DecidableEq, Repr

def RmOperand.isMem : RmOperand → Bool
  | .reg _ => false
  | .mem _ _ | .refused16 => true

/-- The record a decoder produces and the instruction rules consume (R108). -/
structure Record where
  cls : Cls
  vl : VL
  op : Op
  reg : Fin 32
  rm : RmOperand
  aaa : BitVec 3
  z : Bool
  len : Nat
  deriving DecidableEq, Repr

/-- Whether an addressing form is one of the 16-bit forms (R98). -/
def sixteenBitForm : MemForm → Bool
  | .base _ _ | .sib _ _ _ _ | .sibDisp32 _ _ _ | .disp32 _ => false
  | .addr16 _ _ | .addr16Disp _ => true

/-- The `r/m` operand. `hi` is bit 4 of a register number, which EVEX alone has (R93). -/
def State.rmOperand (s : State) (e : Ext) (hi : Bool) (p : Prefixes) (n len : Nat) : Rm → RmOperand
  | .reg rm => .reg (vecNumber hi e.b rm)
  | .mem m =>
    if sixteenBitForm m && !s.params.sixteenBit then .refused16
    else .mem (operandSegment s.mode e p m) (s.effectiveAddress e p n len m)

def legacyRecord (op : Op) (f : LegacyForm) (s : State) : Record :=
  { cls := .legacy, vl := .v128, op := op
    reg := vecNumber false (legacyExt f).r f.reg
    rm := s.rmOperand (legacyExt f) false f.legacy 1 f.len f.rm
    aaa := 0, z := false, len := f.len }

def vexRecord (vl : VL) (op : Op) (f : VexForm) (s : State) : Record :=
  { cls := .vex, vl := vl, op := op
    reg := vecNumber false (vexExt f).r f.reg
    rm := s.rmOperand (vexExt f) false f.legacy 1 f.len f.rm
    aaa := 0, z := false, len := f.len }

def evexRecord (vl : VL) (op : Op) (f : EvexForm) (s : State) : Record :=
  { cls := .evex, vl := vl, op := op
    reg := vecNumber f.r' f.r f.reg
    rm := s.rmOperand (evexExt f) f.x f.legacy (vlBytes vl) f.len f.rm
    aaa := f.aaa, z := f.z, len := f.len }

/-- The record of an instruction in a state (R108, R109). -/
def recordOf (i : Instr) (s : State) : Record :=
  match i with
  | .movapsLoad f => legacyRecord .load28 f s
  | .movapsStore f => legacyRecord .store29 f s
  | .vmovapsVex128Load f => vexRecord .v128 .load28 f s
  | .vmovapsVex128Store f => vexRecord .v128 .store29 f s
  | .vmovapsVex256Load f => vexRecord .v256 .load28 f s
  | .vmovapsVex256Store f => vexRecord .v256 .store29 f s
  | .vmovapsEvex128Load f => evexRecord .v128 .load28 f s
  | .vmovapsEvex256Load f => evexRecord .v256 .load28 f s
  | .vmovapsEvex512Load f => evexRecord .v512 .load28 f s
  | .vmovapsEvex128Store f => evexRecord .v128 .store29 f s
  | .vmovapsEvex256Store f => evexRecord .v256 .store29 f s
  | .vmovapsEvex512Store f => evexRecord .v512 .store29 f s

/-- `sel(j)`: element `j` is selected (R94, R150). -/
def Record.sel (r : Record) (s : State) (j : Nat) : Bool := r.aaa == 0 || (s.mask r.aaa.toFin).getLsbD j

/-! ## The tests (R129, R181) -/

/-- The `#UD` tests of the record's class (R171 to R173, R104 for `z`). -/
def Record.ud (r : Record) (s : State) : Bool :=
  match r.cls with
  | .legacy => s.udLegacy
  | .vex => s.udVex
  | .evex => s.udEvex r.vl || (r.z && r.aaa == 0) || (r.z && r.op == .store29 && r.rm.isMem)

/-- Steps 1 and 2 of every instruction: length, `#UD`, `#NM` (R129, R181). -/
def Record.tests (r : Record) (s : State) (k : Outcome) : Outcome :=
  if maxLength < r.len then raise .generalProtection
  else if r.ud s then raise .invalidOpcode
  else if s.ts then raise .deviceNotAvailable
  else k

/-- The address fault of a segment: `#SS(0)` for `SS`, else `#GP(0)` (R57, R176, R177). -/
def addressFault (r : SegReg) : Fault :=
  match r with
  | .ss => .stackSegment
  | .es | .cs | .ds | .fs | .gs => .generalProtection

/-- The segment base in 64-bit mode: `FS` and `GS` alone contribute (R26, R57). -/
def State.base64 (s : State) (r : SegReg) : Word64 :=
  match r with
  | .fs | .gs => (s.seg r).base
  | .es | .cs | .ss | .ds => 0

/-- The segment checks of the protected modes on an operand of `n` bytes (R58). -/
def Segment.allows (g : Segment) (rw : Access) (ea : Word64) (n : Nat) : Bool :=
  !g.null && decide (ea.toNat + n ≤ g.limit.toNat + 1) &&
    (match rw with | .read => g.readable | .write => g.writable)

/-- `LinAddr`: the linear address of an operand of `n` bytes, or the address fault (R57, R58). -/
def State.linAddr (s : State) (r : SegReg) (ea : Word64) (n : Nat) (rw : Access) : Except Fault Word64 :=
  match s.mode with
  | .long64 =>
    if canonical s.params.laBits (s.base64 r + ea) then .ok (s.base64 r + ea) else .error (addressFault r)
  | .real | .v86 =>
    if ea.toNat + n ≤ 0x10000 then .ok (low32 ((s.seg r).base + ea)) else .error (addressFault r)
  | .compat32 | .prot32 | .prot16 =>
    if (s.seg r).allows rw ea n then .ok (low32 ((s.seg r).base + ea)) else .error (addressFault r)

/-- The address the alignment test reads (R54, D7). -/
def State.alignAddress (s : State) (la ea : Word64) : Word64 :=
  match s.params.alignOn with
  | .linear => la
  | .effective => ea

/-- The alignment test of an operand of `n` bytes (R53). -/
def State.aligned (s : State) (la ea : Word64) (n : Nat) : Bool := (s.alignAddress la ea).toNat % n == 0

/-- Address formation and the alignment test: step 3 of R129 up to the access. -/
def State.address (s : State) (seg : SegReg) (ea : Word64) (n : Nat) (rw : Access) (k : Word64 → Outcome) : Outcome :=
  match s.linAddr seg ea n rw with
  | .error f => raise f
  | .ok la => if s.aligned la ea n then k la else raise .generalProtection

/-! ## The two forms (R82, R129) -/

/-- Write a vector register and step over the instruction: step 4 of R129 with a register destination. -/
def State.finishReg (s : State) (d : Fin 32) (v : Vec) (len : Nat) : Outcome := .next ((s.setVec d v).advance len)

/-- Opcode `28`: read the `r/m` operand, write `value old src` into `reg`, where `old` is what `reg` held. -/
def loadForm (value : Vec → Vec → Vec) (r : Record) (s : State) : Outcome :=
  r.tests s
    (match r.rm with
    | .reg n => s.finishReg r.reg (value (s.vec r.reg) (s.vec n)) r.len
    | .mem seg ea =>
      s.address seg ea (vlBytes r.vl) .read (fun la =>
        s.load la (vlElems r.vl) (r.sel s) (fun src => s.finishReg r.reg (value (s.vec r.reg) src) r.len))
    | .refused16 => .refused .sixteenBitAddressing)

/-- Opcode `29`: read `reg`, write the `r/m` operand: a register as opcode `28` does (R105), or the selected elements in memory. -/
def storeForm (value : Vec → Vec → Vec) (r : Record) (s : State) : Outcome :=
  r.tests s
    (match r.rm with
    | .reg d => s.finishReg d (value (s.vec d) (s.vec r.reg)) r.len
    | .mem seg ea =>
      s.address seg ea (vlBytes r.vl) .write (fun la =>
        s.store la (vlElems r.vl) (r.sel s) (s.vec r.reg) (fun t => .next (t.advance r.len)))
    | .refused16 => .refused .sixteenBitAddressing)

end Sys2Proof.Machine
end

