-- ==== Sys2Proof/Machine/Evex.lean ====
section
/-! DEFINITION. The EVEX rows, `VMOVAPS` under a writemask at 128, 256 and 512 bits (R150 to R158). -/

namespace Sys2Proof.Machine

/-- `Blend` (R150), with the bits from `VL` on zeroed whatever the mask (R157): a selected element comes from the source,
another keeps the old value (merging, `z` = 0) or becomes 0 (zeroing, `z` = 1). -/
def blend (vl : VL) (sel : Nat → Bool) (z : Bool) (old src : Vec) : Vec :=
  fromElems (fun j => if sel j then elem src j else if z then 0 else elem old j) (vlElems vl)

/-- An EVEX write of a vector register by a record's mask fields. -/
def evexValue (r : Record) (s : State) : Vec → Vec → Vec := blend r.vl (r.sel s) r.z

/-- `VMOVAPS xmm1, xmm2/m128` under mask (R151). -/
def execVmovapsEvex128Load (f : EvexForm) (s : State) : Outcome :=
  loadForm (evexValue (evexRecord .v128 .load28 f s) s) (evexRecord .v128 .load28 f s) s

/-- `VMOVAPS ymm1, ymm2/m256` under mask (R152). -/
def execVmovapsEvex256Load (f : EvexForm) (s : State) : Outcome :=
  loadForm (evexValue (evexRecord .v256 .load28 f s) s) (evexRecord .v256 .load28 f s) s

/-- `VMOVAPS zmm1, zmm2/m512` under mask (R153). -/
def execVmovapsEvex512Load (f : EvexForm) (s : State) : Outcome :=
  loadForm (evexValue (evexRecord .v512 .load28 f s) s) (evexRecord .v512 .load28 f s) s

/-- `VMOVAPS xmm2/m128, xmm1` under mask (R154). -/
def execVmovapsEvex128Store (f : EvexForm) (s : State) : Outcome :=
  storeForm (evexValue (evexRecord .v128 .store29 f s) s) (evexRecord .v128 .store29 f s) s

/-- `VMOVAPS ymm2/m256, ymm1` under mask (R155). -/
def execVmovapsEvex256Store (f : EvexForm) (s : State) : Outcome :=
  storeForm (evexValue (evexRecord .v256 .store29 f s) s) (evexRecord .v256 .store29 f s) s

/-- `VMOVAPS zmm2/m512, zmm1` under mask (R156). -/
def execVmovapsEvex512Store (f : EvexForm) (s : State) : Outcome :=
  storeForm (evexValue (evexRecord .v512 .store29 f s) s) (evexRecord .v512 .store29 f s) s

end Sys2Proof.Machine
end

