-- ==== Sys2Proof/Machine/Legacy.lean ====
section
/-! DEFINITION. The legacy SSE rows, `MOVAPS` (R130, R131). -/

namespace Sys2Proof.Machine

/-- A legacy write of a vector register: bits `[127:0]` from the source, bits `[MAX_VL-1:128]` unmodified (R22, R130). -/
def legacyValue (old src : Vec) : Vec := fromElems (fun j => if j < 4 then elem src j else elem old j) 16

/-- `MOVAPS xmm1, xmm2/m128` (R130). -/
def execMovapsLoad (f : LegacyForm) (s : State) : Outcome := loadForm legacyValue (legacyRecord .load28 f s) s

/-- `MOVAPS xmm2/m128, xmm1` (R131). -/
def execMovapsStore (f : LegacyForm) (s : State) : Outcome := storeForm legacyValue (legacyRecord .store29 f s) s

end Sys2Proof.Machine
end

