-- ==== Sys2Proof/Machine/Vex.lean ====
section
/-! DEFINITION. The VEX rows, `VMOVAPS` at 128 and 256 bits (R140 to R143). -/

namespace Sys2Proof.Machine

/-- A VEX write of a vector register: bits `[VL-1:0]` from the source, bits `[MAX_VL-1:VL]` zeroed (R22, R140, R142). -/
def vexValue (vl : VL) (_old src : Vec) : Vec := fromElems (fun j => elem src j) (vlElems vl)

/-- `VMOVAPS xmm1, xmm2/m128`, VEX (R140). -/
def execVmovapsVex128Load (f : VexForm) (s : State) : Outcome :=
  loadForm (vexValue .v128) (vexRecord .v128 .load28 f s) s

/-- `VMOVAPS xmm2/m128, xmm1`, VEX (R141). -/
def execVmovapsVex128Store (f : VexForm) (s : State) : Outcome :=
  storeForm (vexValue .v128) (vexRecord .v128 .store29 f s) s

/-- `VMOVAPS ymm1, ymm2/m256`, VEX (R142). -/
def execVmovapsVex256Load (f : VexForm) (s : State) : Outcome :=
  loadForm (vexValue .v256) (vexRecord .v256 .load28 f s) s

/-- `VMOVAPS ymm2/m256, ymm1`, VEX (R143). -/
def execVmovapsVex256Store (f : VexForm) (s : State) : Outcome :=
  storeForm (vexValue .v256) (vexRecord .v256 .store29 f s) s

end Sys2Proof.Machine
end

