-- ==== Sys2Proof/Machine/Dispatch.lean ====
section
/-! DEFINITION. One arm per constructor of Instr (R109). -/

namespace Sys2Proof.Machine

def exec (i : Instr) (s : State) : Host.Outcome State Fault Refusal :=
  match i with
  | .movapsLoad f => Sys2Proof.Machine.execMovapsLoad f s
  | .movapsStore f => Sys2Proof.Machine.execMovapsStore f s
  | .vmovapsVex128Load f => Sys2Proof.Machine.execVmovapsVex128Load f s
  | .vmovapsVex128Store f => Sys2Proof.Machine.execVmovapsVex128Store f s
  | .vmovapsVex256Load f => Sys2Proof.Machine.execVmovapsVex256Load f s
  | .vmovapsVex256Store f => Sys2Proof.Machine.execVmovapsVex256Store f s
  | .vmovapsEvex128Load f => Sys2Proof.Machine.execVmovapsEvex128Load f s
  | .vmovapsEvex256Load f => Sys2Proof.Machine.execVmovapsEvex256Load f s
  | .vmovapsEvex512Load f => Sys2Proof.Machine.execVmovapsEvex512Load f s
  | .vmovapsEvex128Store f => Sys2Proof.Machine.execVmovapsEvex128Store f s
  | .vmovapsEvex256Store f => Sys2Proof.Machine.execVmovapsEvex256Store f s
  | .vmovapsEvex512Store f => Sys2Proof.Machine.execVmovapsEvex512Store f s

end Sys2Proof.Machine
end

