-- ==== Sys2Proof/Machine/Step.lean ====
section
/-! DEFINITION. One step of the machine (R183, R204), and the placing of an instruction where the next step fetches it. -/

namespace Sys2Proof.Machine

/-- The refusal of bytes the decoder refuses. -/
def refusalOf : DecodeRefusal → Refusal
  | .notInScope => .notInScope
  | .segmentOverrides => .segmentOverrides
  | .extensionBits => .extensionBits

/-- Fetch, decode and execute one instruction.
DESIGN CHOICE: bytes refused by D26 or D28 are refused though a `#UD` or `#NM` of the state holds too, which only `exec`
tests; the spec gives no order (log 30). -/
def step (s : State) : Host.Outcome State Fault Refusal :=
  if s.debugTrap then .refused .debugTrap
  else
    match decode s.mode s.fetch with
    | .instr i => exec i s
    | .invalidOpcode _ => raise .invalidOpcode
    | .tooLong => raise .generalProtection
    | .truncated => .refused .fetchOutsideMap
    | .refused c => .refused (refusalOf c)

/-- The length of the instruction a table word decodes to. -/
def tableLength (nbits w : Nat) : Nat :=
  match decodeTableWord nbits w with
  | some i => i.len
  | none => nbits / 8

/-- The launch (R201) of a program that is one instruction: its bytes at `pc`, in 64-bit mode (log 1). -/
def State.withFetchWord (s : State) (nbits w : Nat) : State :=
  s.launchBytes (tableBytes nbits w) (tableLength nbits w)

end Sys2Proof.Machine
end

