-- ==== Sys2Proof/WellFormed.lean ====
section
/-! DEFINITION. Which instructions are well formed in a mode: what the encodings of R84 to R104 admit. -/

namespace Sys2Proof

/-- The addressing forms an address size admits, and the field values that stand for another form (R95 to R98). -/
def MemForm.wf (addr16 : Bool) : MemForm → Bool
  | .base rm d => !addr16 && rm != 4 && !(rm == 5 && d == .none)
  | .sib _ _ b d => !addr16 && !(b == 5 && d == .none)
  | .sibDisp32 _ _ _ => !addr16
  | .disp32 _ => !addr16
  | .addr16 rm d => addr16 && !(rm == 6 && d == .none)
  | .addr16Disp _ => addr16

def Rm.wf (addr16 : Bool) : Rm → Bool
  | .reg _ => true
  | .mem m => m.wf addr16

/-- A REX byte exists only in 64-bit mode (R86); at most 15 bytes (R102). -/
def LegacyForm.wf (m : Mode) (f : LegacyForm) : Bool :=
  decide (f.len ≤ maxLength) && f.rm.wf (m.addr16 f.legacy.has67) && (m == .long64 || f.rex == none)

/-- No extension bit is set: all that the modes other than 64-bit admit (R90, D26). -/
def VexHead.narrow : VexHead → Bool
  | .two r => !r
  | .three r x b _ => !r && !x && !b

/-- VEX is no encoding of `Real` and `V86` mode (R90). -/
def VexForm.wf (m : Mode) (f : VexForm) : Bool :=
  !m.realOrV86 && decide (f.len ≤ maxLength) && f.rm.wf (m.addr16 f.legacy.has67) && (m == .long64 || f.head.narrow)

/-- `z` needs a writemask and a destination that is not memory (R104, R108). -/
def EvexForm.maskWf (op : Op) (f : EvexForm) : Bool :=
  !f.z || (f.aaa != 0 && !(op == .store29 && f.rm.isMem))

/-- EVEX is no encoding of `Real` and `V86` mode (R93). -/
def EvexForm.wf (m : Mode) (op : Op) (f : EvexForm) : Bool :=
  !m.realOrV86 && decide (f.len ≤ maxLength) && f.rm.wf (m.addr16 f.legacy.has67) &&
    (m == .long64 || (!f.r && !f.x && !f.b && !f.r')) && f.maskWf op

/-- Well-formedness of an instruction in a mode. -/
def Instr.wf (m : Mode) : Instr → Bool
  | .movapsLoad f | .movapsStore f => f.wf m
  | .vmovapsVex128Load f | .vmovapsVex128Store f | .vmovapsVex256Load f | .vmovapsVex256Store f => f.wf m
  | .vmovapsEvex128Load f | .vmovapsEvex256Load f | .vmovapsEvex512Load f => f.wf m .load28
  | .vmovapsEvex128Store f | .vmovapsEvex256Store f | .vmovapsEvex512Store f => f.wf m .store29

end Sys2Proof
end

