-- ==== Sys2Proof/Safety.lean ====
section
/-! DEFINITION. What statements are made of: the invariant, what must be enabled (R202), when an operand can be accessed,
what a completed move leaves (R33), the tables of addresses in plain arithmetic, and how a run ends (R206). -/

namespace Sys2Proof.Machine

/-- The invariant of the machine: memory is canonical, `Real` mode is `CR0.PE` = 0 (R30; log 3), and outside `Long64` the
instruction pointer has 32 bits (R27). -/
def State.Inv (s : State) : Prop :=
  s.mem.wf = true ∧ (s.mode = .real ↔ s.pe = false) ∧ (s.mode ≠ .long64 → s.pc.toNat < 2 ^ 32)

/-- What software must have set before an encoding executes without `#UD` or `#NM` (R202). -/
def State.enabled (s : State) (c : Cls) (vl : VL) : Bool :=
  !s.ts &&
    match c with
    | .legacy => s.params.sse && !s.em && s.osfxsr
    | .vex => s.params.avx && !s.mode.realOrV86 && s.osxsave && s.xcr0Avx
    | .evex =>
      s.params.avx512f && !s.mode.realOrV86 && s.osxsave && s.xcr0Avx && s.xcr0Evex && (vl == .v512 || s.params.avx512vl)

/-- The record's memory operand forms the linear address `la` without a fault and passes the alignment test (R53, R57, R58). -/
def State.operandAt (s : State) (r : Record) (rw : Access) (la : Word64) : Prop :=
  ∃ seg ea, r.rm = .mem seg ea ∧ s.linAddr seg ea (vlBytes r.vl) rw = .ok la ∧ s.aligned la ea (vlBytes r.vl) = true

/-- Every byte of the operand whose translation is asked for can be accessed (R59, R60, R64). -/
def State.accessible (s : State) (r : Record) (rw : Access) (la : Word64) : Prop :=
  ∀ b, b < vlBytes r.vl → (r.sel s (b / 4) = true ∨ s.params.faultSuppression = false) →
    s.probeByte rw (s.offset la b) = none

/-- A move completed with vector register `d` as its destination: the register's sixteen elements are as given, `pc` is past
the instruction, and nothing else changed (R22, R27, R33). -/
def CompletesInReg (o : Outcome) (s : State) (d : Fin 32) (len : Nat) (value : Nat → Elem) : Prop :=
  ∃ v : Vec, (∀ j, j < 16 → elem v j = value j) ∧
    o = .next { s with zmm := s.zmm.set d v, pc := s.nextPc len }

/-- A move completed with memory as its destination: each byte of a selected element holds the source's byte, every other byte of
memory reads as before, `pc` is past the instruction, and nothing else changed (R33, R52, R60). -/
def CompletesInMem (o : Outcome) (s : State) (la : Word64) (r : Record) (src : Vec) : Prop :=
  ∃ m : Mem,
    (∀ b, b < vlBytes r.vl → r.sel s (b / 4) = true → m.read (s.phys .write (s.offset la b)) = byteOf src b) ∧
    (∀ a, (∀ b, b < vlBytes r.vl → r.sel s (b / 4) = true → a ≠ s.phys .write (s.offset la b)) → m.read a = s.mem.read a) ∧
    o = .next { s with mem := m, pc := s.nextPc r.len }

/-- Change the next state of an outcome; a stop is left as it is. -/
def onNext (g : State → State) : Outcome → Outcome
  | .next t => .next (g t)
  | .fault f => .fault f
  | .refused r => .refused r

/-- The access the opcode makes to a memory operand (R51): opcode `28` reads, opcode `29` writes. -/
def accessOf : Op → Access
  | .load28 => .read
  | .store29 => .write

/-- The tests before the operand is looked at all pass (R129 steps 1 and 2). -/
def Record.passes (r : Record) (s : State) : Prop := r.len ≤ maxLength ∧ r.ud s = false ∧ s.ts = false

/-- The translation of byte `b` of the operand is asked for (R59, R60): its element is selected, or there is no fault suppression. -/
def Record.asksFor (r : Record) (s : State) (b : Nat) : Prop :=
  b < vlBytes r.vl ∧ (r.sel s (b / 4) = true ∨ s.params.faultSuppression = false)

/-- The access comes to byte `b` of the operand at `la`: it is asked for, and every byte asked for below it can be accessed (R59). -/
def Record.comesTo (r : Record) (s : State) (rw : Access) (la : Word64) (b : Nat) : Prop :=
  r.asksFor s b ∧ ∀ c, c < b → r.asksFor s c → s.probeByte rw (s.offset la c) = none

/-- Two records of one register-to-register copy: `a` with opcode `28`, `b` with opcode `29` (R105). -/
def sameCopy (a b : Record) : Prop :=
  a.rm = .reg b.reg ∧ b.rm = .reg a.reg ∧ a.aaa = b.aaa ∧ a.z = b.z ∧ a.len = b.len

/-! ## Addresses as the rules word them -/

/-- Bits 63 down to `n` of a linear address are all equal (R57). -/
def TopBitsEqual (n : Nat) (la : Word64) : Prop := ∀ i : Fin 64, n ≤ i.val → la.getLsbD i = la.getLsbD 63

/-- `LA_BITS - 1` (R57). -/
def topBit : LaBits → Nat
  | .la48 => 47
  | .la57 => 56

/-- Modulo `2^bits`, zero-extended (R57, R95, R98). -/
def modulo (bits : Nat) (a : Word64) : Word64 := BitVec.ofNat 64 (a.toNat % 2 ^ bits)

/-- The address size in bits (R101). -/
def addressBits (m : Mode) (has67 : Bool) : Nat :=
  match m with
  | .long64 => if has67 then 32 else 64
  | .compat32 | .prot32 => if has67 then 16 else 32
  | .prot16 | .real | .v86 => if has67 then 32 else 16

/-- What a displacement adds to an address: an 8-bit one `n` times its value (R95, R99). -/
def displacement (n : Nat) : Disp → Word64
  | .none => 0
  | .d8 d => d.signExtend 64 * BitVec.ofNat 64 n
  | .d32 d => d.signExtend 64

/-- What a displacement of a 16-bit form adds (R98, R99). -/
def displacement16 (n : Nat) : Disp16 → Word64
  | .none => 0
  | .d8 d => d.signExtend 64 * BitVec.ofNat 64 n
  | .d16 d => d.signExtend 64

/-- The row answers `Translate` for an address and an access at the state's privilege level (R59). -/
def State.rowFits (s : State) (rw : Access) (la : Word64) (r : TranslateRow) : Prop :=
  r.page = la.extractLsb' 12 52 ∧ r.access = rw ∧ r.cpl = s.cpl

/-! ## The end of a run -/

/-- How a run ends (R183, R206). A faulted run is never a completed one. -/
inductive RunEnd where
  | complete (s : State)
  | fault (f : Fault) (s : State)
  | refused (r : Refusal) (s : State)
  | outOfSteps (s : State)
  deriving DecidableEq, Repr

/-- `pc` is just past the program text, also where that is past the top of linear space (R206; log 38). -/
def State.atEnd (s : State) : Bool := s.fetchAddr 0 == s.textAddr s.text.size

/-- Run the program text, at most `n` steps (R206). The end of a run is a definition, not the machine's behaviour: `step` goes on. -/
def run : Nat → State → RunEnd
  | 0, s => if s.atEnd then .complete s else .outOfSteps s
  | n + 1, s =>
    if s.atEnd then .complete s
    else
      match step s with
      | .next t => run n t
      | .fault f => .fault f (s.afterFault f)
      | .refused r => .refused r s

end Sys2Proof.Machine
end

