-- ==== Sys2Proof/Certificates/Slice0/Obligations.lean ====
section
/-! DEFINITION. The statements for the provers, from the numbered rules of spec/. -/

open Sys2Proof Sys2Proof.Machine

/-! ## Encoding and decoding -/

/-- Every well-formed instruction, in every mode and whatever bytes follow, decodes from its encoding (R80, R84 to R103). -/
def Obligations.DecodeEncodeRoundTrip : Prop :=
  ∀ (m : Mode) (i : Instr) (rest : List Byte), i.wf m = true → decode m (encode i ++ rest) = .instr i

/-- What the decoder accepts is well formed, and the bytes it read are that instruction's encoding: no bit is dropped (R102, R103). -/
def Obligations.DecodedBytesAreTheEncoding : Prop :=
  ∀ (m : Mode) (bs : List Byte) (i : Instr), decode m bs = .instr i →
    i.wf m = true ∧ i.len ≤ bs.length ∧ encode i = bs.take i.len

/-- Six words of 95_test_vectors.md section 2 (E1, E5, E15, E17, E25, E27), as the rules' layouts give them. -/
def Obligations.SpecWordsDecode : Prop :=
  decode .long64 [0x0F, 0x28, 0xCA] = .instr (.movapsLoad ⟨⟨0, none⟩, none, 1, .reg 2⟩) ∧
  decode .long64 [0x45, 0x0F, 0x28, 0xC7] =
    .instr (.movapsLoad ⟨⟨0, none⟩, some ⟨false, true, false, true⟩, 0, .reg 7⟩) ∧
  decode .long64 [0xC5, 0x7C, 0x29, 0x0F] = .instr (.vmovapsVex256Store ⟨⟨0, none⟩, .two true, 1, .mem (.base 7 .none)⟩) ∧
  decode .long64 [0xC4, 0xC1, 0xF8, 0x28, 0xCA] =
    .instr (.vmovapsVex128Load ⟨⟨0, none⟩, .three false false true true, 1, .reg 2⟩) ∧
  decode .long64 [0x62, 0xF1, 0x7C, 0x0F, 0x28, 0x6A, 0x01] =
    .instr (.vmovapsEvex128Load ⟨⟨0, none⟩, false, false, false, false, false, 7, 5, .mem (.base 2 (.d8 1))⟩) ∧
  decode .long64 [0x62, 0x61, 0x7C, 0x49, 0x29, 0x3E] =
    .instr (.vmovapsEvex512Store ⟨⟨0, none⟩, true, false, false, true, false, 1, 7, .mem (.base 6 .none)⟩)

/-- A well-formed instruction gives a well-formed Level A record (the last paragraph of R108). -/
def Obligations.RecordIsWellFormed : Prop :=
  ∀ (i : Instr) (s : State), i.wf s.mode = true →
    let r := recordOf i s
    3 ≤ r.len ∧ r.len ≤ 15 ∧
    (r.cls = .legacy → r.vl = .v128 ∧ r.aaa = 0 ∧ r.z = false ∧ r.reg < 16 ∧ ∀ n, r.rm = .reg n → n < 16) ∧
    (r.cls = .vex → r.vl ≠ .v512 ∧ r.aaa = 0 ∧ r.z = false ∧ r.reg < 16 ∧ ∀ n, r.rm = .reg n → n < 16) ∧
    (r.z = true → r.aaa ≠ 0 ∧ ¬ (r.op = .store29 ∧ r.rm.isMem = true)) ∧
    (s.mode ≠ .long64 → r.reg < 8 ∧ ∀ n, r.rm = .reg n → n < 8)

/-- The two encodings of a register-to-register copy have the same effect, in each class and length; `0F 28 CA` and `0F 29 D1`
are such a pair. R105 infers it from R82 and the Operation headings. -/
def Obligations.RegisterCopiesAgree : Prop :=
  decode .long64 [0x0F, 0x28, 0xCA] = .instr (.movapsLoad ⟨⟨0, none⟩, none, 1, .reg 2⟩) ∧
  decode .long64 [0x0F, 0x29, 0xD1] = .instr (.movapsStore ⟨⟨0, none⟩, none, 2, .reg 1⟩) ∧
  ∀ s : State,
    exec (.movapsLoad ⟨⟨0, none⟩, none, 1, .reg 2⟩) s = exec (.movapsStore ⟨⟨0, none⟩, none, 2, .reg 1⟩) s ∧
    (∀ f g, sameCopy (legacyRecord .load28 f s) (legacyRecord .store29 g s) → exec (.movapsLoad f) s = exec (.movapsStore g) s) ∧
    (∀ f g, sameCopy (vexRecord .v128 .load28 f s) (vexRecord .v128 .store29 g s) →
      exec (.vmovapsVex128Load f) s = exec (.vmovapsVex128Store g) s) ∧
    (∀ f g, sameCopy (vexRecord .v256 .load28 f s) (vexRecord .v256 .store29 g s) →
      exec (.vmovapsVex256Load f) s = exec (.vmovapsVex256Store g) s) ∧
    (∀ f g, sameCopy (evexRecord .v128 .load28 f s) (evexRecord .v128 .store29 g s) →
      exec (.vmovapsEvex128Load f) s = exec (.vmovapsEvex128Store g) s) ∧
    (∀ f g, sameCopy (evexRecord .v256 .load28 f s) (evexRecord .v256 .store29 g s) →
      exec (.vmovapsEvex256Load f) s = exec (.vmovapsEvex256Store g) s) ∧
    (∀ f g, sameCopy (evexRecord .v512 .load28 f s) (evexRecord .v512 .store29 g s) →
      exec (.vmovapsEvex512Load f) s = exec (.vmovapsEvex512Store g) s)

/-- The bytes `a ++ b` are the encoding `e` with one or more `F0H` put anywhere among the legacy bytes it begins with, and are at
most 15: `a` holds segment overrides, `67H` and `F0H` alone (R87, R103). -/
def lockedFrom (e a b : List Byte) : Prop :=
  0xF0 ∈ a ∧ (∀ x ∈ a, x ∈ [0x26, 0x2E, 0x36, 0x3E, 0x64, 0x65, 0x67, 0xF0]) ∧ a.filter (· ≠ 0xF0) ++ b = e ∧ a.length + b.length ≤ 15

/-- `F0H` anywhere among the legacy bytes before any encoding in scope raises `#UD` (R67, R87, R104). -/
def Obligations.LockedMoveIsInvalidOpcode : Prop :=
  ∀ (m : Mode) (i : Instr) (a b rest : List Byte), i.wf m = true → lockedFrom (encode i) a b →
    decode m (a ++ (b ++ rest)) = .invalidOpcode .lock

/-- `66H`, `F2H` or `F3H` first: a legacy encoding becomes bytes the model refuses, a VEX or EVEX encoding raises `#UD`
(R87, R90, R93). -/
def Obligations.SimdByteBeforeMove : Prop :=
  ∀ (m : Mode) (b : Byte) (op : Op) (rest : List Byte), b = 0x66 ∨ b = 0xF2 ∨ b = 0xF3 →
    (∀ f : LegacyForm, f.wf m = true → f.len ≤ 14 →
      decode m (b :: (encodeLegacy op f ++ rest)) = .refused .notInScope) ∧
    (∀ (l : Bool) (f : VexForm), f.wf m = true → f.len ≤ 14 →
      decode m (b :: (encodeVex l op f ++ rest)) = .invalidOpcode .simdBefore) ∧
    (∀ (vl : VL) (f : EvexForm), f.wf m op = true → f.len ≤ 14 →
      decode m (b :: (encodeEvex vl op f ++ rest)) = .invalidOpcode .simdBefore)

/-- A REX byte before VEX or EVEX raises `#UD` in 64-bit mode (R90, R93, R103). -/
def Obligations.RexBeforeVexOrEvex : Prop :=
  ∀ (x : Rex) (op : Op) (rest : List Byte),
    (∀ (l : Bool) (f : VexForm), f.legacy = ⟨0, none⟩ → f.wf .long64 = true →
      decode .long64 (x.byte :: (encodeVex l op f ++ rest)) = .invalidOpcode .rexBefore) ∧
    (∀ (vl : VL) (f : EvexForm), f.legacy = ⟨0, none⟩ → f.wf .long64 op = true →
      decode .long64 (x.byte :: (encodeEvex vl op f ++ rest)) = .invalidOpcode .rexBefore)

/-- A second segment override makes any encoding in scope one that the model refuses, in every mode (R100). -/
def Obligations.SeveralSegmentOverridesAreRefused : Prop :=
  ∀ (m : Mode) (r : SegReg) (op : Op) (rest : List Byte),
    (∀ f : LegacyForm, f.legacy.override ≠ none → f.wf m = true → f.len ≤ 14 →
      decode m (r.byte :: (encodeLegacy op f ++ rest)) = .refused .segmentOverrides) ∧
    (∀ (l : Bool) (f : VexForm), f.legacy.override ≠ none → f.wf m = true → f.len ≤ 14 →
      decode m (r.byte :: (encodeVex l op f ++ rest)) = .refused .segmentOverrides) ∧
    (∀ (vl : VL) (f : EvexForm), f.legacy.override ≠ none → f.wf m op = true → f.len ≤ 14 →
      decode m (r.byte :: (encodeEvex vl op f ++ rest)) = .refused .segmentOverrides)

/-- `VEX.vvvv` or `EVEX.vvvv` other than `1111b` raises `#UD`, for both VEX forms and EVEX, both opcodes, every operand and
every mode in which the bytes are VEX or EVEX (R90, R93, R104). That it does so outside 64-bit mode also where `B`, `R'` or `V'`
is stored 0, which R90 and R93 (D26) have the model refuse, is the model's own order of answers: DESIGN CHOICE, log 30. -/
def Obligations.VvvvOtherThanOnesIsInvalidOpcode : Prop :=
  ∀ (m : Mode) (o : Byte) (t : List Byte), o = 0x28 ∨ o = 0x29 → 6 ≤ t.length →
    (∀ p : Byte, m = .long64 ∨ field76 p = 3 → p.extractLsb' 3 4 ≠ 15 → p.extractLsb' 0 2 = 0 →
      ∃ why, decode m (0xC5 :: p :: o :: t) = .invalidOpcode why) ∧
    (∀ p q : Byte, m = .long64 ∨ field76 p = 3 → p.extractLsb' 0 5 = 1 → q.extractLsb' 3 4 ≠ 15 → q.extractLsb' 0 2 = 0 →
      ∃ why, decode m (0xC4 :: p :: q :: o :: t) = .invalidOpcode why) ∧
    (∀ p0 p1 p2 : Byte, m = .long64 ∨ field76 p0 = 3 → p0.extractLsb' 0 2 = 1 → p1.extractLsb' 3 4 ≠ 15 →
      p1.extractLsb' 0 2 = 0 → ∃ why, decode m (0x62 :: p0 :: p1 :: p2 :: o :: t) = .invalidOpcode why)

/-- Each reserved EVEX setting of R104 raises `#UD` in every mode in which the bytes are EVEX: `W` = 1, `L'L` = 11b, `b` = 1, a
wrong fixed bit, zeroing without a writemask, zeroing of a memory destination; and `V'` stored 0 in 64-bit mode (elsewhere R93
has the model refuse it). That these settings raise `#UD` is D18 to D20 (DESIGN CHOICE, log 14); that they do so outside 64-bit
mode also where `B`, `R'` or `V'` is stored 0, which R93 (D26) has the model refuse, is the model's order of answers (DESIGN
CHOICE, log 30). -/
def Obligations.EvexReservedSettingsAreInvalidOpcode : Prop :=
  ∀ (md : Mode) (p0 p1 p2 o m : Byte) (t : List Byte), o = 0x28 ∨ o = 0x29 → 5 ≤ t.length →
    md = .long64 ∨ field76 p0 = 3 → p0.extractLsb' 0 2 = 1 → p1.extractLsb' 0 2 = 0 →
    ((md = .long64 ∧ p2.getLsbD 3 = false) ∨ p1.getLsbD 7 = true ∨ p2.extractLsb' 5 2 = 3 ∨ p2.getLsbD 4 = true ∨
      p0.extractLsb' 2 2 ≠ 0 ∨ p1.getLsbD 2 = false ∨ (p2.getLsbD 7 = true ∧ p2.extractLsb' 0 3 = 0) ∨
      (p2.getLsbD 7 = true ∧ o = 0x29 ∧ m.extractLsb' 6 2 ≠ 3)) →
    ∃ why, decode md (0x62 :: p0 :: p1 :: p2 :: o :: m :: t) = .invalidOpcode why

/-! ## Steps -/

/-- A step runs the instruction its bytes decode to, with nothing around it (R204). -/
def Obligations.StepRunsDecodedInstruction : Prop :=
  ∀ (s : State) (i : Instr), s.debugTrap = false → decode s.mode s.fetch = .instr i → step s = exec i s

/-- When the bytes at the program counter can be fetched and are the encoding of a well-formed instruction, a step at that
state is that instruction's execution (R50, R103, R204). -/
def Obligations.StepRunsEncodingAtPc : Prop :=
  ∀ (s : State) (i : Instr), i.wf s.mode = true → s.debugTrap = false →
    (∀ n (h : n < (encode i).length),
      s.fetchable (s.fetchAddr n) = true ∧ s.byteAt (s.fetchAddr n) = (encode i)[n]) →
    step s = exec i s

/-- What a step answers where the bytes are no instruction that runs (R90, R93, R100, R102, R103, R104, R183, R189). That bytes
which end too soon are refused is the model's choice (log 27); that several overrides and extension bits are refused also where a
`#UD` of R171 to R173 or `#NM` of the state applies is the model's order of answers (DESIGN CHOICE, log 30). -/
def Obligations.StepStopsWhereDecodingStops : Prop :=
  ∀ s : State,
    (s.debugTrap = true → step s = .refused .debugTrap) ∧
    (s.debugTrap = false →
      (∀ why, decode s.mode s.fetch = .invalidOpcode why → step s = .fault .invalidOpcode) ∧
      (decode s.mode s.fetch = .tooLong → step s = .fault .generalProtection) ∧
      (decode s.mode s.fetch = .truncated → step s = .refused .fetchOutsideMap) ∧
      (decode s.mode s.fetch = .refused .notInScope → step s = .refused .notInScope) ∧
      (decode s.mode s.fetch = .refused .segmentOverrides → step s = .refused .segmentOverrides) ∧
      (decode s.mode s.fetch = .refused .extensionBits → step s = .refused .extensionBits))

/-- A step is refused where the first byte of the instruction cannot be fetched: in `Long64` at an address whose bits 63 down to
`LA_BITS - 1` are not all equal, outside the address map, or without a translation. The model's choice (R27, U15, D11; logs 16, 27). -/
def Obligations.UnfetchableInstructionIsRefused : Prop :=
  ∀ s : State, s.debugTrap = false →
    ((s.mode = .long64 ∧ ¬ TopBitsEqual (topBit s.params.laBits) s.pc) ∨ s.admits (s.fetchAddr 0) = false ∨
      (s.admits (s.fetchAddr 0) = true ∧ ∀ frame, s.translate .read (s.fetchAddr 0) ≠ some (.ok frame))) →
    step s = .refused .fetchOutsideMap

/-- A completed step moved `pc` by the length of the instruction it ran, 3 to 15 bytes (R27, R102). -/
def Obligations.CompletedStepAdvancesPc : Prop :=
  ∀ s t : State, step s = .next t →
    ∃ i, decode s.mode s.fetch = .instr i ∧ 3 ≤ i.len ∧ i.len ≤ 15 ∧
      t.pc = if s.mode = .long64 then s.pc + BitVec.ofNat 64 i.len
        else ((s.pc + BitVec.ofNat 64 i.len).setWidth 32).setWidth 64

/-- Every step keeps the invariant (R27, R30, R188). -/
def Obligations.StepKeepsTheInvariant : Prop :=
  ∀ s t : State, s.Inv → step s = .next t → t.Inv

/-- The reset state meets the invariant. -/
def Obligations.ResetMeetsTheInvariant : Prop := State.reset.Inv

/-- No step changes anything but vector registers, memory and `pc`: no opmask, general, segment, flags or control register,
not the mode, not the launch parameters (R28, R33, R188). -/
def Obligations.StepKeepsControlState : Prop :=
  ∀ s t : State, step s = .next t → { t with zmm := s.zmm, pc := s.pc, mem := s.mem } = s

/-! ## The write set (frames) -/

/-- The complete write set of all twelve encodings: with a register destination, that register and `pc`; with a memory
destination, the bytes of the selected elements at the operand's linear address, and `pc`; on a fault, nothing but CR2. R33
infers it from the Operation section; that flags and MXCSR stay is D6 (DESIGN CHOICE, log 5), that a fault writes nothing is
R182's D14 (DESIGN CHOICE, log 12). -/
def Obligations.CompleteWriteSet : Prop :=
  ∀ (i : Instr) (s : State),
    let r := recordOf i s
    (∀ t d, exec i s = .next t → (r.op = .load28 ∧ d = r.reg) ∨ (r.op = .store29 ∧ r.rm = .reg d) →
      t = { s with zmm := s.zmm.set d (t.vec d), pc := s.nextPc r.len }) ∧
    (∀ t seg ea la, exec i s = .next t → r.op = .store29 → r.rm = .mem seg ea →
      s.linAddr seg ea (vlBytes r.vl) .write = .ok la →
      t = { s with mem := t.mem, pc := s.nextPc r.len } ∧
      ∀ a, (∀ b, b < vlBytes r.vl → r.sel s (b / 4) = true → a ≠ s.phys .write (s.offset la b)) →
        t.mem.read a = s.mem.read a) ∧
    (∀ f, exec i s = .fault f → { s.afterFault f with cr2 := s.cr2 } = s)

/-- The flags register and MXCSR are neither read nor written: other values in them change nothing else. R28 infers it from the
Operation section by D6: DESIGN CHOICE, log 5. -/
def Obligations.FlagsNeitherReadNorWritten : Prop :=
  ∀ (i : Instr) (s : State) (a b : BitVec 32),
    exec i { s with rflags := a, mxcsr := b } = onNext (fun t => { t with rflags := a, mxcsr := b }) (exec i s)

/-- Of the opmask registers only the bits below `KL` of `k1` to `k7` are read: other bits, and `k0`, change nothing (R24, R94). -/
def Obligations.MaskBitsFromTheLengthOnAreIgnored : Prop :=
  ∀ (i : Instr) (s : State) (k' : Vector (BitVec 64) 8),
    (∀ n : Fin 8, n ≠ 0 → ∀ j, j < vlElems (recordOf i s).vl → k'[n].getLsbD j = (s.mask n).getLsbD j) →
    exec i { s with k := k' } = onNext (fun t => { t with k := k' }) (exec i s)

/-- The instruction is not privileged: another privilege level at which `Translate` gives the same answers changes nothing
(R188; D29, log 20). While paging is off, every level is one. -/
def Obligations.PrivilegeLevelIsNotTested : Prop :=
  ∀ (i : Instr) (s : State) (c : BitVec 2),
    (s.pagingOn = true → ∀ rw la, { s with cpl := c }.translate rw la = s.translate rw la) →
    exec i { s with cpl := c } = onNext (fun t => { t with cpl := c }) (exec i s)

/-! ## What each instruction does, and where it completes -/

/-- `MOVAPS xmm1, xmm2/m128` (R130): elements 0 to 3 from the source, elements 4 to 15 kept. -/
def Obligations.LegacyLoadCompletes : Prop :=
  ∀ (f : LegacyForm) (s : State),
    let r := legacyRecord .load28 f s
    f.len ≤ 15 → s.enabled .legacy .v128 = true →
    (∀ n, r.rm = .reg n →
      CompletesInReg (exec (.movapsLoad f) s) s r.reg f.len
        (fun j => if j < 4 then elem (s.vec n) j else elem (s.vec r.reg) j)) ∧
    (∀ la, s.operandAt r .read la → s.accessible r .read la →
      CompletesInReg (exec (.movapsLoad f) s) s r.reg f.len
        (fun j => if j < 4 then s.elemAt (s.offset la (4 * j)) else elem (s.vec r.reg) j))

/-- `MOVAPS xmm2/m128, xmm1` (R131): a register destination keeps elements 4 to 15; a memory destination takes 16 bytes. -/
def Obligations.LegacyStoreCompletes : Prop :=
  ∀ (f : LegacyForm) (s : State),
    let r := legacyRecord .store29 f s
    f.len ≤ 15 → s.enabled .legacy .v128 = true →
    (∀ d, r.rm = .reg d →
      CompletesInReg (exec (.movapsStore f) s) s d f.len
        (fun j => if j < 4 then elem (s.vec r.reg) j else elem (s.vec d) j)) ∧
    (∀ la, s.mem.wf = true → s.operandAt r .write la → s.accessible r .write la → s.overText la 4 (r.sel s) = false →
      CompletesInMem (exec (.movapsStore f) s) s la r (s.vec r.reg))

/-- A VEX load or copy of length `vl` (R140, R142): `KL` elements from the source, the rest zeroed. -/
def vexLoadCompletes (vl : VL) (f : VexForm) (s : State) (o : Outcome) : Prop :=
  let r := vexRecord vl .load28 f s
  (∀ n, r.rm = .reg n →
    CompletesInReg o s r.reg f.len (fun j => if j < vlElems vl then elem (s.vec n) j else 0)) ∧
  (∀ la, s.operandAt r .read la → s.accessible r .read la →
    CompletesInReg o s r.reg f.len (fun j => if j < vlElems vl then s.elemAt (s.offset la (4 * j)) else 0))

/-- A VEX store or copy of length `vl` (R141, R143). -/
def vexStoreCompletes (vl : VL) (f : VexForm) (s : State) (o : Outcome) : Prop :=
  let r := vexRecord vl .store29 f s
  (∀ d, r.rm = .reg d →
    CompletesInReg o s d f.len (fun j => if j < vlElems vl then elem (s.vec r.reg) j else 0)) ∧
  (∀ la, s.mem.wf = true → s.operandAt r .write la → s.accessible r .write la →
    s.overText la (vlElems vl) (r.sel s) = false → CompletesInMem o s la r (s.vec r.reg))

/-- `VMOVAPS xmm1, xmm2/m128` and `VMOVAPS ymm1, ymm2/m256`, VEX (R140, R142). -/
def Obligations.VexLoadsComplete : Prop :=
  ∀ (f : VexForm) (s : State), f.len ≤ 15 → s.enabled .vex .v128 = true →
    vexLoadCompletes .v128 f s (exec (.vmovapsVex128Load f) s) ∧
    vexLoadCompletes .v256 f s (exec (.vmovapsVex256Load f) s)

/-- `VMOVAPS xmm2/m128, xmm1` and `VMOVAPS ymm2/m256, ymm1`, VEX (R141, R143). -/
def Obligations.VexStoresComplete : Prop :=
  ∀ (f : VexForm) (s : State), f.len ≤ 15 → s.enabled .vex .v128 = true →
    vexStoreCompletes .v128 f s (exec (.vmovapsVex128Store f) s) ∧
    vexStoreCompletes .v256 f s (exec (.vmovapsVex256Store f) s)

/-- The mask of an EVEX instruction selects element `j` (R94, R150): no writemask, or bit `j` of the opmask register. -/
def selects (f : EvexForm) (s : State) (j : Nat) : Prop := f.aaa = 0 ∨ (s.mask f.aaa.toFin).getLsbD j = true

/-- An element of an EVEX register destination (R150, R157): selected, from the source; not selected, kept or zeroed;
above `VL`, zeroed. The element values are given by what they must equal, for each of the three cases. -/
def blended (vl : VL) (f : EvexForm) (s : State) (old new : Nat → Elem) (v : Nat → Elem) : Prop :=
  ∀ j, j < 16 →
    (j < vlElems vl → selects f s j → v j = new j) ∧
    (j < vlElems vl → ¬ selects f s j → v j = if f.z then 0 else old j) ∧
    (vlElems vl ≤ j → v j = 0)

/-- An EVEX load or copy of length `vl` completes (R151 to R153). -/
def evexLoadCompletes (vl : VL) (f : EvexForm) (s : State) (o : Outcome) : Prop :=
  let r := evexRecord vl .load28 f s
  f.maskWf .load28 = true → s.enabled .evex vl = true →
  (∀ n, r.rm = .reg n →
    ∃ v, blended vl f s (elem (s.vec r.reg)) (elem (s.vec n)) v ∧ CompletesInReg o s r.reg f.len v) ∧
  (∀ la, s.operandAt r .read la → s.accessible r .read la →
    ∃ v, blended vl f s (elem (s.vec r.reg)) (fun j => s.elemAt (s.offset la (4 * j))) v ∧ CompletesInReg o s r.reg f.len v)

/-- An EVEX store or copy of length `vl` completes (R154 to R156). -/
def evexStoreCompletes (vl : VL) (f : EvexForm) (s : State) (o : Outcome) : Prop :=
  let r := evexRecord vl .store29 f s
  f.maskWf .store29 = true → s.enabled .evex vl = true →
  (∀ d, r.rm = .reg d →
    ∃ v, blended vl f s (elem (s.vec d)) (elem (s.vec r.reg)) v ∧ CompletesInReg o s d f.len v) ∧
  (∀ la, s.mem.wf = true → s.operandAt r .write la → s.accessible r .write la →
    s.overText la (vlElems vl) (r.sel s) = false → CompletesInMem o s la r (s.vec r.reg))

/-- `VMOVAPS xmm1`, `ymm1` and `zmm1` under mask, from `xmm2/m128`, `ymm2/m256` and `zmm2/m512` (R150 to R153). -/
def Obligations.EvexLoadsComplete : Prop :=
  ∀ (f : EvexForm) (s : State), f.len ≤ 15 →
    evexLoadCompletes .v128 f s (exec (.vmovapsEvex128Load f) s) ∧
    evexLoadCompletes .v256 f s (exec (.vmovapsEvex256Load f) s) ∧
    evexLoadCompletes .v512 f s (exec (.vmovapsEvex512Load f) s)

/-- `VMOVAPS xmm2/m128`, `ymm2/m256` and `zmm2/m512` under mask, from `xmm1`, `ymm1` and `zmm1` (R150, R154 to R156). -/
def Obligations.EvexStoresComplete : Prop :=
  ∀ (f : EvexForm) (s : State), f.len ≤ 15 →
    evexStoreCompletes .v128 f s (exec (.vmovapsEvex128Store f) s) ∧
    evexStoreCompletes .v256 f s (exec (.vmovapsEvex256Store f) s) ∧
    evexStoreCompletes .v512 f s (exec (.vmovapsEvex512Store f) s)

/-- Upper bits under masking (R157): an EVEX encoding with a register destination `d` zeroes `d` above `VL` whatever the mask;
merging keeps the unselected elements below `VL`, all of them when the mask selects none. -/
def Obligations.MaskingZeroesUpperBits : Prop :=
  ∀ (i : Instr) (s t : State) (d : Fin 32),
    let r := recordOf i s
    r.cls = .evex → exec i s = .next t → (r.op = .load28 ∧ d = r.reg) ∨ (r.op = .store29 ∧ r.rm = .reg d) →
    ∀ j, j < 16 →
      (vlElems r.vl ≤ j → elem (t.vec d) j = 0) ∧
      (j < vlElems r.vl → r.z = false → r.sel s j = false → elem (t.vec d) j = elem (s.vec d) j)

/-- An EVEX encoding without a writemask and the VEX encoding with the same operands end in the same state but for `pc`
(95_test_vectors.md 4.1; R140 to R143, R150). -/
def Obligations.EvexWithoutMaskEqualsVex : Prop :=
  ∀ (f : EvexForm) (g : VexForm) (s t u : State) (vl : VL) (op : Op),
    f.aaa = 0 → (evexRecord vl op f s).reg = (vexRecord vl op g s).reg →
    (evexRecord vl op f s).rm = (vexRecord vl op g s).rm →
    (vl = .v128 ∧ op = .load28 → exec (.vmovapsEvex128Load f) s = .next t → exec (.vmovapsVex128Load g) s = .next u →
      { t with pc := u.pc } = u) ∧
    (vl = .v128 ∧ op = .store29 → exec (.vmovapsEvex128Store f) s = .next t → exec (.vmovapsVex128Store g) s = .next u →
      { t with pc := u.pc } = u) ∧
    (vl = .v256 ∧ op = .load28 → exec (.vmovapsEvex256Load f) s = .next t → exec (.vmovapsVex256Load g) s = .next u →
      { t with pc := u.pc } = u) ∧
    (vl = .v256 ∧ op = .store29 → exec (.vmovapsEvex256Store f) s = .next t → exec (.vmovapsVex256Store g) s = .next u →
      { t with pc := u.pc } = u)

/-- A 512-bit store without a mask, then a load of the same operand, gives the stored register back (R52, R65, R153, R156), paging
off or on, where `Translate` answers reads of the operand's bytes as it answers writes. -/
def Obligations.StoreThenLoadGivesTheVectorBack : Prop :=
  ∀ (f g : EvexForm) (s t u : State) (seg : SegReg) (ea : Word64),
    s.mem.wf = true → f.aaa = 0 → g.aaa = 0 →
    (∀ la, s.linAddr seg ea 64 .write = .ok la →
      ∀ b, b < 64 → s.translate .read (s.offset la b) = s.translate .write (s.offset la b)) →
    (evexRecord .v512 .store29 f s).rm = .mem seg ea → (evexRecord .v512 .load28 g t).rm = .mem seg ea →
    exec (.vmovapsEvex512Store f) s = .next t → exec (.vmovapsEvex512Load g) t = .next u →
    u.vec (evexRecord .v512 .load28 g t).reg = s.vec (evexRecord .v512 .store29 f s).reg

/-! ## Exceptions -/

/-- `#UD` of the legacy rows (R171): `CR0.EM` = 1, `CR4.OSFXSR` = 0 or `CPUID_SSE` = 0, in every mode; and `F0H` anywhere among
the legacy bytes. An encoding longer than 15 bytes raises `#GP(0)` first (R102, R181). -/
def Obligations.LegacyInvalidOpcode : Prop :=
  (∀ (f : LegacyForm) (s : State), f.len ≤ 15 → s.em = true ∨ s.osfxsr = false ∨ s.params.sse = false →
    exec (.movapsLoad f) s = .fault .invalidOpcode ∧ exec (.movapsStore f) s = .fault .invalidOpcode) ∧
  (∀ (m : Mode) (op : Op) (f : LegacyForm) (a b rest : List Byte), f.wf m = true → lockedFrom (encodeLegacy op f) a b →
    decode m (a ++ (b ++ rest)) = .invalidOpcode .lock)

/-- `#UD` of the VEX rows by the state (R172). `CR0.EM` and `CR4.OSFXSR` play no part: the conditions are all there are. -/
def Obligations.VexInvalidOpcode : Prop :=
  ∀ (f : VexForm) (s : State), f.len ≤ 15 →
    (s.mode = .real ∨ s.mode = .v86 ∨ s.osxsave = false ∨ s.xcr0.extractLsb' 1 2 ≠ 3 ∨ s.params.avx = false) →
    exec (.vmovapsVex128Load f) s = .fault .invalidOpcode ∧ exec (.vmovapsVex128Store f) s = .fault .invalidOpcode ∧
    exec (.vmovapsVex256Load f) s = .fault .invalidOpcode ∧ exec (.vmovapsVex256Store f) s = .fault .invalidOpcode

/-- `#UD` of the EVEX rows by the state (R173): `AVX512VL` is asked for at 128 and 256 bits only; and by `z` = 1 without a
writemask or with a memory destination (R104, R158). That these two settings of `z` raise `#UD` is D19 and D18: DESIGN CHOICE,
log 14. -/
def Obligations.EvexInvalidOpcode : Prop :=
  ∀ (f : EvexForm) (s : State), f.len ≤ 15 →
    ((s.mode = .real ∨ s.mode = .v86 ∨ s.osxsave = false ∨ s.xcr0.extractLsb' 1 2 ≠ 3 ∨ s.xcr0.extractLsb' 5 3 ≠ 7 ∨
        s.params.avx512f = false) →
      exec (.vmovapsEvex512Load f) s = .fault .invalidOpcode ∧ exec (.vmovapsEvex512Store f) s = .fault .invalidOpcode) ∧
    ((s.mode = .real ∨ s.mode = .v86 ∨ s.osxsave = false ∨ s.xcr0.extractLsb' 1 2 ≠ 3 ∨ s.xcr0.extractLsb' 5 3 ≠ 7 ∨
        s.params.avx512f = false ∨ s.params.avx512vl = false) →
      exec (.vmovapsEvex128Load f) s = .fault .invalidOpcode ∧ exec (.vmovapsEvex128Store f) s = .fault .invalidOpcode ∧
      exec (.vmovapsEvex256Load f) s = .fault .invalidOpcode ∧ exec (.vmovapsEvex256Store f) s = .fault .invalidOpcode) ∧
    (f.z = true → f.aaa = 0 →
      exec (.vmovapsEvex128Load f) s = .fault .invalidOpcode ∧ exec (.vmovapsEvex256Load f) s = .fault .invalidOpcode ∧
      exec (.vmovapsEvex512Load f) s = .fault .invalidOpcode) ∧
    (f.z = true → f.aaa = 0 ∨ f.rm.isMem = true →
      exec (.vmovapsEvex128Store f) s = .fault .invalidOpcode ∧ exec (.vmovapsEvex256Store f) s = .fault .invalidOpcode ∧
      exec (.vmovapsEvex512Store f) s = .fault .invalidOpcode)

/-- `#NM` is raised by every encoding, in every mode, when `CR0.TS` = 1 and no `#UD` condition holds (R174). -/
def Obligations.TaskSwitchedRaisesNotAvailable : Prop :=
  ∀ (i : Instr) (s : State), i.len ≤ 15 → s.ts = true → (recordOf i s).ud s = false →
    exec i s = .fault .deviceNotAvailable

/-- More than 15 bytes is `#GP(0)` (R102). That this is the fault reported whatever other applies is R181's order by D25: DESIGN
CHOICE, log 13. -/
def Obligations.LengthIsTestedFirst : Prop :=
  ∀ (i : Instr) (s : State), 15 < i.len → exec i s = .fault .generalProtection

/-- A memory operand that is not aligned to its 16, 32 or 64 bytes raises `#GP(0)`, for both opcodes, every class and mode and
whatever the mask (R53, R54, R55, R175). 'Whatever the mask' is R55's D10 (DESIGN CHOICE, log 8); 'every mode' is R175's inference;
which address is tested is R54's D7 (DESIGN CHOICE, log 6), here both values of it. -/
def Obligations.MisalignedOperandFaults : Prop :=
  vlBytes .v128 = 16 ∧ vlBytes .v256 = 32 ∧ vlBytes .v512 = 64 ∧
  ∀ (i : Instr) (s : State) (seg : SegReg) (ea la : Word64),
    let r := recordOf i s
    r.passes s → r.rm = .mem seg ea → s.linAddr seg ea (vlBytes r.vl) (accessOf r.op) = .ok la →
    (match s.params.alignOn with | .linear => la | .effective => ea).toNat % vlBytes r.vl ≠ 0 →
    exec i s = .fault .generalProtection

/-- In `Long64` a linear address whose bits 63 down to `LA_BITS - 1` are not all equal raises `#SS(0)` in `SS` and `#GP(0)`
elsewhere, aligned or not (R57, R176, R177). That `#SS(0)` comes before the alignment fault is R181's order by D25, which a claim
should not depend on: DESIGN CHOICE, log 13. -/
def Obligations.NonCanonicalOperandFaults : Prop :=
  ∀ (i : Instr) (s : State) (seg : SegReg) (ea : Word64),
    let r := recordOf i s
    let la := (if seg = .fs ∨ seg = .gs then (s.seg seg).base else 0) + ea
    r.passes s → s.mode = .long64 → r.rm = .mem seg ea → ¬ TopBitsEqual (topBit s.params.laBits) la →
    exec i s = .fault (if seg = .ss then .stackSegment else .generalProtection)

/-- Outside `Long64` a limit, null-selector or access-right violation raises `#SS(0)` in `SS` and `#GP(0)` elsewhere; in `Real`
and `V86` mode the limit is offset `FFFFH` (R58, R176, R177). For an operand in `SS` that is misaligned too, that `#SS(0)` is
the one raised is R181's order by D25, which a claim should not depend on: DESIGN CHOICE, log 13. -/
def Obligations.SegmentViolationFaults : Prop :=
  ∀ (i : Instr) (s : State) (seg : SegReg) (ea : Word64),
    let r := recordOf i s
    r.passes s → r.rm = .mem seg ea →
    ((s.mode = .real ∨ s.mode = .v86) ∧ 0xFFFF < ea.toNat + vlBytes r.vl - 1 ∨
      (s.mode = .compat32 ∨ s.mode = .prot32 ∨ s.mode = .prot16) ∧
        ((s.seg seg).null = true ∨ (s.seg seg).limit.toNat < ea.toNat + vlBytes r.vl - 1 ∨
          (r.op = .load28 ∧ (s.seg seg).readable = false) ∨ (r.op = .store29 ∧ (s.seg seg).writable = false))) →
    exec i s = .fault (if seg = .ss then .stackSegment else .generalProtection)

/-- A page fault names the first byte asked for that cannot be accessed, whichever of the operand it is: its linear address goes to
CR2, its code is the oracle's (R59, R60, R178). -/
def Obligations.PageFaultNamesFirstByte : Prop :=
  ∀ (i : Instr) (s : State) (la : Word64) (b : Nat) (code : BitVec 32),
    let r := recordOf i s
    r.passes s → s.operandAt r (accessOf r.op) la → r.comesTo s (accessOf r.op) la b → s.admits (s.offset la b) = true →
    s.translate (accessOf r.op) (s.offset la b) = some (.pageFault code) →
    exec i s = .fault (.pageFault code (s.offset la b))

/-- With fault suppression, an EVEX memory operand of which the mask selects no element completes though its page is not
mapped: nothing is read or written, a load still writes its register (R60, R157). -/
def Obligations.EmptyMaskNeedsNoPage : Prop :=
  ∀ (i : Instr) (s : State) (la : Word64),
    let r := recordOf i s
    r.passes s → r.cls = .evex → s.params.faultSuppression = true → (∀ j, j < vlElems r.vl → r.sel s j = false) →
    s.operandAt r (accessOf r.op) la →
    (r.op = .store29 → exec i s = .next { s with pc := s.nextPc r.len }) ∧
    (r.op = .load28 →
      CompletesInReg (exec i s) s r.reg r.len
        (fun j => if j < vlElems r.vl ∧ r.z = false then elem (s.vec r.reg) j else 0))

/-- An access outside the address map is refused (R59, R64): the operand has a byte asked for that is not admitted, the bytes asked
for below it can be accessed, and its address is named. -/
def Obligations.OutsideAddressMapIsRefused : Prop :=
  ∀ (i : Instr) (s : State) (la : Word64) (b : Nat),
    let r := recordOf i s
    r.passes s → s.operandAt r (accessOf r.op) la → r.comesTo s (accessOf r.op) la b → s.admits (s.offset la b) = false →
    exec i s = .refused (.notAdmitted (s.offset la b))

/-- An access is refused at the first byte asked for that is admitted and of which `Translate` gives no answer, whichever of the
operand it is (R59). That it is refused is the model's choice (DESIGN CHOICE, log 10). -/
def Obligations.MissingTranslationIsRefused : Prop :=
  ∀ (i : Instr) (s : State) (la : Word64) (b : Nat),
    let r := recordOf i s
    r.passes s → s.operandAt r (accessOf r.op) la → r.comesTo s (accessOf r.op) la b → s.admits (s.offset la b) = true →
    s.translate (accessOf r.op) (s.offset la b) = none →
    exec i s = .refused (.noTranslation (s.offset la b))

/-- A store any of whose bytes is a byte of the program text is refused (R68). -/
def Obligations.StoreOverTextIsRefused : Prop :=
  ∀ (i : Instr) (s : State) (la : Word64) (b n : Nat),
    let r := recordOf i s
    r.passes s → r.op = .store29 → s.operandAt r .write la → s.accessible r .write la →
    b < vlBytes r.vl → r.sel s (b / 4) = true →
    n < s.text.size → s.offset la b = s.offset (BitVec.ofNat 64 s.text.base) n →
    exec i s = .refused .storeOverText

/-- The table of R170: vector numbers, error codes, and what is recorded (R178). That a fault leaves all else as it was is R182's
D14: DESIGN CHOICE, log 12. -/
def Obligations.ExceptionTable : Prop :=
  Fault.invalidOpcode.vector = 6 ∧ Fault.invalidOpcode.errorCode = none ∧
  Fault.deviceNotAvailable.vector = 7 ∧ Fault.deviceNotAvailable.errorCode = none ∧
  Fault.stackSegment.vector = 12 ∧ Fault.stackSegment.errorCode = some 0 ∧
  Fault.generalProtection.vector = 13 ∧ Fault.generalProtection.errorCode = some 0 ∧
  ∀ (s : State) (code : BitVec 32) (la : Word64),
    (Fault.pageFault code la).vector = 14 ∧ (Fault.pageFault code la).errorCode = some code ∧
    s.afterFault (.pageFault code la) = { s with cr2 := la } ∧
    s.afterFault .invalidOpcode = s ∧ s.afterFault .deviceNotAvailable = s ∧
    s.afterFault .stackSegment = s ∧ s.afterFault .generalProtection = s

/-! ## Addressing -/

/-- The form of a base register (R95): its 64-bit value plus the displacement, modulo 2 to the address size; register `B ++ rm`.
Outside 64-bit mode the form without a base is `disp32` alone. -/
def Obligations.BaseAddress : Prop :=
  ∀ (s : State) (e : Ext) (p : Prefixes) (n len : Nat) (rm : BitVec 3) (d : Disp) (d32 : BitVec 32),
    (gprNumber e.b rm).val = (if e.b then 8 else 0) + rm.toNat ∧
    s.effectiveAddress e p n len (.base rm d) =
      modulo (addressBits s.mode p.has67) (s.reg (gprNumber e.b rm) + displacement n d) ∧
    (s.mode ≠ .long64 →
      s.effectiveAddress e p n len (.disp32 d32) = modulo (addressBits s.mode p.has67) (d32.signExtend 64))

/-- The SIB form (R95, R96), with every displacement and address size: base and scaled index, no index for register number 4, no
base under `mod = 00b`, `base = 101b`. -/
def Obligations.SibAddress : Prop :=
  ∀ (s : State) (e : Ext) (p : Prefixes) (n len : Nat) (sc : BitVec 2) (ix b : BitVec 3) (d : Disp) (d32 : BitVec 32),
    let w := modulo (addressBits s.mode p.has67)
    let index := s.reg (gprNumber e.x ix) * BitVec.ofNat 64 (2 ^ sc.toNat)
    (gprNumber e.x ix ≠ 4 →
      s.effectiveAddress e p n len (.sib sc ix b d) = w (s.reg (gprNumber e.b b) + index + displacement n d) ∧
      s.effectiveAddress e p n len (.sibDisp32 sc ix d32) = w (index + d32.signExtend 64)) ∧
    (gprNumber e.x ix = 4 →
      s.effectiveAddress e p n len (.sib sc ix b d) = w (s.reg (gprNumber e.b b) + displacement n d) ∧
      s.effectiveAddress e p n len (.sibDisp32 sc ix d32) = w (d32.signExtend 64))

/-- The memory operand of an instruction is the segment and the effective address of its form, in which an 8-bit displacement is
scaled by 1 for legacy and VEX, and by 16, 32 or 64 for EVEX (R99, R108); a 16-bit form where those are executed (log 17). -/
def Obligations.OperandOfEachClass : Prop :=
  ∀ (s : State) (m : MemForm), sixteenBitForm m = false ∨ s.params.sixteenBit = true →
    (∀ op f, f.rm = .mem m → (legacyRecord op f s).rm =
      .mem (operandSegment s.mode (legacyExt f) f.legacy m) (s.effectiveAddress (legacyExt f) f.legacy 1 f.len m)) ∧
    (∀ vl op f, f.rm = .mem m → (vexRecord vl op f s).rm =
      .mem (operandSegment s.mode (vexExt f) f.legacy m) (s.effectiveAddress (vexExt f) f.legacy 1 f.len m)) ∧
    (∀ vl op f, f.rm = .mem m → (evexRecord vl op f s).rm =
      .mem (operandSegment s.mode (evexExt f) f.legacy m)
        (s.effectiveAddress (evexExt f) f.legacy (match vl with | .v128 => 16 | .v256 => 32 | .v512 => 64) f.len m))

/-- The RIP-relative form (R97): the next instruction's address plus `disp32`, truncated to 32 bits under `67H`; with a SIB
byte the same `mod` gives an absolute address, which no `pc` changes. -/
def Obligations.RipRelativeAddress : Prop :=
  ∀ (s : State) (e : Ext) (p : Prefixes) (n len : Nat) (sc : BitVec 2) (d : BitVec 32), s.mode = .long64 →
    (p.has67 = false →
      s.effectiveAddress e p n len (.disp32 d) = s.pc + BitVec.ofNat 64 len + d.signExtend 64 ∧
      (e.x = false → s.effectiveAddress e p n len (.sibDisp32 sc 4 d) = d.signExtend 64)) ∧
    (∀ (ix : BitVec 3) (v : Word64),
      { s with pc := v }.effectiveAddress e p n len (.sibDisp32 sc ix d) = s.effectiveAddress e p n len (.sibDisp32 sc ix d)) ∧
    (p.has67 = true →
      s.effectiveAddress e p n len (.disp32 d) =
        ((s.pc + BitVec.ofNat 64 len + d.signExtend 64).setWidth 32).setWidth 64)

/-- An EVEX `disp8` never changes an address modulo the required alignment, in any address size and form (R99). -/
def Obligations.EvexDisp8KeepsAlignment : Prop :=
  ∀ (s : State) (e : Ext) (p : Prefixes) (vl : VL) (len : Nat) (d : BitVec 8) (rm : BitVec 3) (sc : BitVec 2)
    (ix b : BitVec 3),
    (s.effectiveAddress e p (vlBytes vl) len (.base rm (.d8 d))).toNat % vlBytes vl =
      (s.effectiveAddress e p (vlBytes vl) len (.base rm .none)).toNat % vlBytes vl ∧
    (s.effectiveAddress e p (vlBytes vl) len (.sib sc ix b (.d8 d))).toNat % vlBytes vl =
      (s.effectiveAddress e p (vlBytes vl) len (.sib sc ix b .none)).toNat % vlBytes vl ∧
    (s.effectiveAddress e p (vlBytes vl) len (.addr16 rm (.d8 d))).toNat % vlBytes vl =
      (s.effectiveAddress e p (vlBytes vl) len (.addr16 rm .none)).toNat % vlBytes vl

/-- The 16-bit forms (R98): the register sums of the table with every displacement, modulo 2^16; `BX` is register 3, `BP` 5,
`SI` 6, `DI` 7. Whether they are executed or refused is `sixteenBit` (DESIGN CHOICE, log 17). -/
def Obligations.SixteenBitForms : Prop :=
  ∀ (s : State) (e : Ext) (p : Prefixes) (n len : Nat) (d : Disp16), addressBits s.mode p.has67 = 16 →
    let ea (rm : BitVec 3) := s.effectiveAddress e p n len (.addr16 rm d)
    let w (a : Word64) := modulo 16 (a + displacement16 n d)
    ea 0 = w (s.reg 3 + s.reg 6) ∧ ea 1 = w (s.reg 3 + s.reg 7) ∧ ea 2 = w (s.reg 5 + s.reg 6) ∧
    ea 3 = w (s.reg 5 + s.reg 7) ∧ ea 4 = w (s.reg 6) ∧ ea 5 = w (s.reg 7) ∧ ea 7 = w (s.reg 3) ∧
    (d ≠ .none → ea 6 = w (s.reg 5)) ∧
    ∀ d16 : BitVec 16, s.effectiveAddress e p n len (.addr16Disp d16) = d16.setWidth 64

/-- While `sixteenBit` is false, as at reset, an instruction whose tests pass and whose operand is a 16-bit form is refused by name
(R98, R183; D24, DESIGN CHOICE, log 17). -/
def Obligations.SixteenBitAddressingIsRefused : Prop :=
  State.reset.params.sixteenBit = false ∧
  (∀ (i : Instr) (s : State), (recordOf i s).passes s → (recordOf i s).rm = .refused16 →
    exec i s = .refused .sixteenBitAddressing) ∧
  ∀ (s : State) (m : MemForm), sixteenBitForm m = true → s.params.sixteenBit = false →
    (∀ op f, f.rm = .mem m → (legacyRecord op f s).rm = .refused16) ∧
    (∀ vl op f, f.rm = .mem m → (vexRecord vl op f s).rm = .refused16) ∧
    (∀ vl op f, f.rm = .mem m → (evexRecord vl op f s).rm = .refused16)

/-- The segment of an operand (R98, R100), in every form: `SS` by default for base 4 or 5 with `B` = 0 and for a 16-bit form built
on `BP`, else `DS`; in 64-bit mode only `FS` and `GS` overrides count, elsewhere any override replaces the default. -/
def Obligations.OperandSegment : Prop :=
  ∀ (m : Mode) (e : Ext) (n k : Nat) (r : SegReg) (f : MemForm),
    (operandSegment m e ⟨n, none⟩ f =
      match f with
      | .base rm _ => if e.b = false ∧ (rm = 4 ∨ rm = 5) then .ss else .ds
      | .sib _ _ b _ => if e.b = false ∧ (b = 4 ∨ b = 5) then .ss else .ds
      | .addr16 rm _ => if rm = 2 ∨ rm = 3 ∨ rm = 6 then .ss else .ds
      | .sibDisp32 _ _ _ | .disp32 _ | .addr16Disp _ => .ds) ∧
    (r = .fs ∨ r = .gs → operandSegment m e ⟨n, some (r, k)⟩ f = r) ∧
    (m ≠ .long64 → operandSegment m e ⟨n, some (r, k)⟩ f = r) ∧
    (m = .long64 → r ≠ .fs → r ≠ .gs → operandSegment m e ⟨n, some (r, k)⟩ f = operandSegment m e ⟨n, none⟩ f)

/-- The linear address of an operand of `n` bytes (R57, R58) where no address fault is raised, and those of the bytes above it:
64 bits in `Long64`, 32 elsewhere (R50). That they go on at 0 past the top is the model's choice (log 38). -/
def Obligations.LinearAddressOfAnOperand : Prop :=
  ∀ (s : State) (seg : SegReg) (ea la : Word64) (n b : Nat) (rw : Access),
    let g := s.seg seg
    (s.mode = .long64 →
      (let a := (if seg = .fs ∨ seg = .gs then g.base else 0) + ea
       TopBitsEqual (topBit s.params.laBits) a → s.linAddr seg ea n rw = .ok a) ∧
      (s.offset la b).toNat = (la.toNat + b) % 2 ^ 64) ∧
    (s.mode = .real ∨ s.mode = .v86 → ea.toNat + n ≤ 0x10000 → s.linAddr seg ea n rw = .ok (modulo 32 (g.base + ea))) ∧
    (s.mode = .compat32 ∨ s.mode = .prot32 ∨ s.mode = .prot16 → g.null = false → ea.toNat + n ≤ g.limit.toNat + 1 →
      (rw = .read → g.readable = true) → (rw = .write → g.writable = true) →
      s.linAddr seg ea n rw = .ok (modulo 32 (g.base + ea))) ∧
    (s.mode ≠ .long64 →
      (s.offset la b).toNat = (la.toNat + b) % 2 ^ 32 ∧ (s.fetchAddr b).toNat < 2 ^ 32 ∧
      (s.linAddr seg ea n rw = .ok la → la.toNat < 2 ^ 32))

/-- `Translate` (R59): the identity while `CR0.PG` = 0 and in Real mode; else the answer of the first row for the page, the access
and the level, whose frame takes the place of `la[63:12]`; a page without a row gives no answer, and the access is refused
(DESIGN CHOICE, log 10). That `PG` is bit 31 of `CR0` is PRESUMED (log 23). -/
def Obligations.TranslateIsTheOracle : Prop :=
  ∀ (s : State) (rw : Access) (la : Word64),
    (s.cr0.getLsbD 31 = false ∨ s.mode = .real →
      s.translate rw la = some (.ok (la.extractLsb' 12 52)) ∧ s.phys rw la = la.toNat) ∧
    (s.cr0.getLsbD 31 = true → s.mode ≠ .real →
      (∀ front r back, s.translation = front ++ r :: back → (∀ x ∈ front, ¬ s.rowFits rw la x) → s.rowFits rw la r →
        s.translate rw la = some r.answer ∧
        ∀ frame, r.answer = .ok frame → s.phys rw la = frame.toNat * 4096 + la.toNat % 4096) ∧
      ((∀ x ∈ s.translation, ¬ s.rowFits rw la x) → s.admits la = true →
        s.translate rw la = none ∧ s.probeByte rw la = some (.refusal (.noTranslation la))))

/-- Bytes and elements (R52, R150): byte `b` of a vector is bits `8b+7` to `8b`, element `j` bits `32j+31` to `32j`; an element in
memory is four bytes, the least significant at the lowest address, each read through `Translate` (R59). The byte order is D5:
DESIGN CHOICE, log 4. -/
def Obligations.ElementsAreLittleEndian : Prop :=
  ∀ (s : State) (la : Word64) (v : Vec) (j : Nat),
    (∀ i, i < 8 → (byteOf v j).getLsbD i = v.getLsbD (8 * j + i)) ∧
    (∀ i, i < 32 → (elem v j).getLsbD i = v.getLsbD (32 * j + i)) ∧
    (let byte (n : Nat) (a : Word64) := (s.mem.read (s.phys .read a)).toNat * 256 ^ n
     (s.elemAt la).toNat =
      byte 0 la + byte 1 (s.offset la 1) + byte 2 (s.offset la 2) + byte 3 (s.offset la 3))

/-! ## Reset -/

/-- The reset values of R34; the values of log 25 (RDX, CPUID flags) are the model's own. -/
def Obligations.ResetValues : Prop :=
  (∀ n, State.reset.vec n = 0) ∧ (∀ n, State.reset.mask n = 0) ∧ (∀ n, n ≠ 2 → State.reset.reg n = 0) ∧
  State.reset.pc = 0xFFF0 ∧ (State.reset.seg .cs).base = 0xFFFF0000 ∧ State.reset.rflags = 0x2 ∧
  State.reset.mxcsr = 0x1F80 ∧ State.reset.cr0 = 0x60000010 ∧ State.reset.cr4 = 0 ∧ State.reset.xcr0 = 1 ∧
  State.reset.mode = .real

/-- Straight after reset every encoding raises `#UD` (R35). -/
def Obligations.EveryEncodingFaultsAfterReset : Prop :=
  (∀ i : Instr, i.len ≤ 15 → exec i State.reset = .fault .invalidOpcode) ∧
  State.reset.osfxsr = false ∧ State.reset.osxsave = false ∧ State.reset.mode = .real
end

