-- ==== Sys2Proof/Laws/Decode.lean ====
section
/-! SUPPORT. What the decoder's parts read from what the encoder's parts write. -/

namespace Sys2Proof

/-! ## Fields and displacements -/

theorem field76_byte233 (a : BitVec 2) (b c : BitVec 3) : field76 (byte233 a b c) = a := by
  revert a b c; decide

theorem field53_byte233 (a : BitVec 2) (b c : BitVec 3) : field53 (byte233 a b c) = b := by
  revert a b c; decide

theorem field20_byte233 (a : BitVec 2) (b c : BitVec 3) : field20 (byte233 a b c) = c := by
  revert a b c; decide

theorem word16_bytes (d : BitVec 16) : word16 (d.extractLsb' 0 8) (d.extractLsb' 8 8) = d := by
  apply BitVec.eq_of_getLsbD_eq
  intro i hi
  simp only [word16, BitVec.getLsbD_append, BitVec.getLsbD_extractLsb']
  by_cases h : i < 8
  · simp [h]
  · simp [h, show i - 8 < 8 by omega, show 8 + (i - 8) = i by omega]

theorem word32_bytes (d : BitVec 32) :
    word32 (d.extractLsb' 0 8) (d.extractLsb' 8 8) (d.extractLsb' 16 8) (d.extractLsb' 24 8) = d := by
  apply BitVec.eq_of_getLsbD_eq
  intro i hi
  simp only [word32, BitVec.getLsbD_append, BitVec.getLsbD_extractLsb']
  by_cases h0 : i < 8
  · simp [h0]
  · by_cases h1 : i < 16
    · simp [h0, show i - 8 < 8 by omega, show 8 + (i - 8) = i by omega]
    · by_cases h2 : i < 24
      · simp [h0, show ¬ i - 8 < 8 by omega, show i - 8 - 8 < 8 by omega, show 16 + (i - 8 - 8) = i by omega]
      · simp [h0, show ¬ i - 8 < 8 by omega, show ¬ i - 8 - 8 < 8 by omega, show i - 8 - 8 - 8 < 8 by omega,
          show 24 + (i - 8 - 8 - 8) = i by omega]

theorem readDisp_bytes (d : Disp) (rest : List Byte) : readDisp d.md (d.bytes ++ rest) = some d := by
  cases d <;> simp [readDisp, Disp.md, Disp.bytes, bytes32, word32_bytes]

theorem readDisp16_bytes (d : Disp16) (rest : List Byte) : readDisp16 d.md (d.bytes ++ rest) = some d := by
  cases d <;> simp [readDisp16, Disp16.md, Disp16.bytes, bytes16, word16_bytes]

theorem Disp.md_ne_three (d : Disp) : ¬ d.md = 3#2 := by cases d <;> simp [Disp.md]

theorem Disp16.md_ne_three (d : Disp16) : ¬ d.md = 3#2 := by cases d <;> simp [Disp16.md]

theorem Disp.md_eq_zero {d : Disp} : d.md = 0#2 ↔ d = .none := by cases d <;> simp [Disp.md]

theorem Disp16.md_eq_zero {d : Disp16} : d.md = 0#2 ↔ d = .none := by cases d <;> simp [Disp16.md]

/-! ## Operands (R84, R85, R95 to R99) -/

/-- Well-formed operands are read back from their bytes, whatever follows. -/
theorem readOperands_bytes {addr16 : Bool} (reg : BitVec 3) {rm : Rm} (rest : List Byte) (h : rm.wf addr16 = true) :
    readOperands addr16 (operandBytes reg rm ++ rest) = some (reg, rm) := by
  rcases rm with rm | m
  · simp [operandBytes, readOperands, field76_byte233, field53_byte233, field20_byte233]
  · cases m with
    | base rm d =>
      simp only [Rm.wf, MemForm.wf, Bool.and_eq_true, Bool.not_eq_true', bne_iff_ne, ne_eq, Bool.and_eq_false_iff, beq_eq_false_iff_ne] at h
      obtain ⟨⟨rfl, h4⟩, h5⟩ := h
      have h4 : ¬ rm = 4#3 := h4
      have h5' : ¬ (d.md = 0#2 ∧ rm = 5#3) := by rw [Disp.md_eq_zero]; tauto
      simp [operandBytes, readOperands, field76_byte233, field53_byte233, field20_byte233, Disp.md_ne_three, readMem, h4, h5', readDisp_bytes]
    | sib s i b d =>
      simp only [Rm.wf, MemForm.wf, Bool.and_eq_true, Bool.not_eq_true', Bool.and_eq_false_iff, beq_eq_false_iff_ne] at h
      obtain ⟨rfl, h5⟩ := h
      have h5' : ¬ (d.md = 0#2 ∧ b = 5#3) := by rw [Disp.md_eq_zero]; tauto
      simp [operandBytes, readOperands, field76_byte233, field53_byte233, field20_byte233, Disp.md_ne_three, readMem, readSib, h5', readDisp_bytes]
    | sibDisp32 s i d =>
      simp only [Rm.wf, MemForm.wf, Bool.not_eq_true'] at h
      subst h
      simp [operandBytes, readOperands, field76_byte233, field53_byte233, field20_byte233, readMem, readSib, bytes32, word32_bytes]
    | disp32 d =>
      simp only [Rm.wf, MemForm.wf, Bool.not_eq_true'] at h
      subst h
      simp [operandBytes, readOperands, field76_byte233, field53_byte233, field20_byte233, readMem, bytes32, word32_bytes]
    | addr16 rm d =>
      simp only [Rm.wf, MemForm.wf, Bool.and_eq_true, Bool.not_eq_true', Bool.and_eq_false_iff, beq_eq_false_iff_ne] at h
      obtain ⟨rfl, h6⟩ := h
      have h6' : ¬ (d.md = 0#2 ∧ rm = 6#3) := by rw [Disp16.md_eq_zero]; tauto
      simp [operandBytes, readOperands, field76_byte233, field53_byte233, field20_byte233, Disp16.md_ne_three, readMem16, h6', readDisp16_bytes]
    | addr16Disp d =>
      simp only [Rm.wf, MemForm.wf] at h
      subst h
      simp [operandBytes, readOperands, field76_byte233, field53_byte233, field20_byte233, readMem16, bytes16, word16_bytes]

/-! ## Legacy bytes (R87) -/

theorem legacyByte_seg (s : SegReg) : legacyByte s.byte = some (.seg s) := by cases s <;> decide

theorem legacyByte_addr : legacyByte 103#8 = some .addr := by decide

/-- The run of legacy bytes that an instruction's `Prefixes` stand for. -/
def Prefixes.run (p : Prefixes) : LegacyRun :=
  ⟨p.before67, match p.override with | some o => [o] | none => [], false, false⟩

theorem scanLegacy_replicate {bs : List Byte} {r : LegacyRun} {t : List Byte} (h : scanLegacy bs = (r, t)) (n : Nat) :
    scanLegacy (List.replicate n 103#8 ++ bs) = ({ r with before67 := r.before67 + n }, t) := by
  induction n with
  | zero => simp [h]
  | succ n ih => simp [List.replicate_succ, scanLegacy, legacyByte_addr, ih, LegacyRun.cons, Nat.add_assoc]

/-- An instruction's legacy bytes are read back, up to a byte that is none. -/
theorem scanLegacy_bytes (p : Prefixes) {b : Byte} (t : List Byte) (h : legacyByte b = none) :
    scanLegacy (p.bytes ++ b :: t) = (p.run, b :: t) := by
  have h0 : scanLegacy (b :: t) = (.empty, b :: t) := by simp [scanLegacy, h]
  obtain ⟨n, o⟩ := p
  cases o with
  | none => simpa [Prefixes.bytes, Prefixes.run, LegacyRun.empty] using scanLegacy_replicate h0 n
  | some o =>
    obtain ⟨s, k⟩ := o
    have h1 : scanLegacy (s.byte :: (List.replicate k 103#8 ++ b :: t)) = (⟨0, [(s, k)], false, false⟩, b :: t) := by
      simp [scanLegacy, legacyByte_seg, scanLegacy_replicate h0 k, LegacyRun.empty, LegacyRun.cons]
    simpa [Prefixes.bytes, Prefixes.run] using scanLegacy_replicate h1 n

theorem legacyByte_lock {x : Byte} : legacyByte x = some .lock ↔ x = 0xF0#8 := by
  revert x; decide

/-- `F0H` bytes among the legacy bytes are remembered, and change nothing else of what is read (R103 step 1). -/
theorem scanLegacy_lock {a : List Byte} (t : List Byte) (ha : ∀ x ∈ a, (legacyByte x).isSome = true) :
    scanLegacy (a ++ t) =
      ({ (scanLegacy (a.filter (· ≠ 0xF0#8) ++ t)).1 with
          lock := decide (0xF0#8 ∈ a) || (scanLegacy (a.filter (· ≠ 0xF0#8) ++ t)).1.lock },
        (scanLegacy (a.filter (· ≠ 0xF0#8) ++ t)).2) := by
  induction a with
  | nil => simp
  | cons x a ih =>
    obtain ⟨l, hl⟩ := Option.isSome_iff_exists.mp (ha x (by simp))
    have ih := ih fun y hy => ha y (by simp [hy])
    rw [List.cons_append, scanLegacy, hl]
    simp only [ih]
    by_cases hx : x = 0xF0#8
    · subst hx
      obtain rfl : l = .lock := Option.some.inj (hl.symm.trans (legacyByte_lock.mpr rfl))
      simp [LegacyRun.cons]
    · have hlock : l ≠ .lock := fun h => hx (legacyByte_lock.mp (h ▸ hl))
      rw [List.filter_cons_of_pos (by simpa using hx), List.cons_append, scanLegacy, hl]
      have hm : (0xF0#8 ∈ x :: a) ↔ 0xF0#8 ∈ a := by simp [Ne.symm hx]
      cases l <;> simp [LegacyRun.cons, hm] at hlock ⊢

theorem Prefixes.run_toPrefixes (p : Prefixes) : p.run.toPrefixes = some p := by
  obtain ⟨n, _ | o⟩ := p <;> rfl

theorem Prefixes.run_has67 (p : Prefixes) : p.run.has67 = p.has67 := by
  obtain ⟨n, _ | o⟩ := p <;> simp [Prefixes.run, LegacyRun.has67, Prefixes.has67]

end Sys2Proof
end

