-- ==== Sys2Proof/Laws/Memory.lean ====
section
/-! SUPPORT. Reading what was written, leaving the rest, and keeping the canonical form. -/

namespace Sys2Proof.Machine

theorem Mem.wf_cons {a : Nat} {b : Byte} {m : Mem} :
    Mem.wf ((a, b) :: m) = true ↔ (∀ c ∈ m, a < c.1) ∧ b ≠ Config.freshByte ∧ Mem.wf m = true := by
  simp [Mem.wf, and_assoc]

/-- An address below every listed one reads as an unlisted one. -/
theorem Mem.read_of_lt {m : Mem} {a : Nat} (h : ∀ c ∈ m, a < c.1) : Mem.read m a = Config.freshByte := by
  induction m with
  | nil => rfl
  | cons c m ih =>
    have hc : a < c.1 := h c (by simp)
    rw [Mem.read, if_neg (by omega)]
    exact ih (fun d hd => h d (by simp [hd]))

/-- A write leaves every other address alone, in any memory. -/
theorem Mem.read_write_ne (m : Mem) {a x : Nat} (v : Byte) (h : x ≠ a) : (Mem.write m a v).read x = m.read x := by
  induction m with
  | nil =>
    by_cases hv : v = Config.freshByte <;> simp [Mem.write, Mem.read, hv, Ne.symm h]
  | cons c m ih =>
    obtain ⟨a', b⟩ := c
    by_cases h1 : a < a'
    · by_cases hv : v = Config.freshByte <;> simp [Mem.write, Mem.read, h1, hv, Ne.symm h]
    · by_cases h2 : a = a'
      · subst h2
        by_cases hv : v = Config.freshByte <;> simp [Mem.write, Mem.read, hv, Ne.symm h]
      · simp [Mem.write, Mem.read, h1, h2, ih]

/-- A write is read back from a memory in canonical form. -/
theorem Mem.read_write_self {m : Mem} (a : Nat) (v : Byte) (hm : Mem.wf m = true) : (Mem.write m a v).read a = v := by
  induction m with
  | nil => by_cases hv : v = Config.freshByte <;> simp [Mem.write, Mem.read, hv]
  | cons c m ih =>
    obtain ⟨a', b⟩ := c
    obtain ⟨hlt, -, hw⟩ := Mem.wf_cons.mp hm
    by_cases h1 : a < a'
    · by_cases hv : v = Config.freshByte
      · have : ∀ c ∈ ((a', b) :: m : Mem), a < c.1 := by
          intro c hc
          rcases List.mem_cons.mp hc with rfl | hc
          · exact h1
          · exact lt_trans h1 (hlt c hc)
        rw [Mem.write, if_pos h1, if_pos hv, Mem.read_of_lt this, hv]
      · simp [Mem.write, Mem.read, h1, hv]
    · by_cases h2 : a = a'
      · subst h2
        by_cases hv : v = Config.freshByte
        · simp [Mem.write, hv, Mem.read_of_lt hlt]
        · simp [Mem.write, Mem.read, hv]
      · simp [Mem.write, Mem.read, h1, h2, Ne.symm h2, ih hw]

/-- What a written memory lists: the address written, or an entry it listed before. -/
theorem Mem.mem_write {m : Mem} {a : Nat} {v : Byte} {c : Host.Cell} (h : c ∈ Mem.write m a v) : c = (a, v) ∨ c ∈ m := by
  induction m with
  | nil =>
    by_cases hv : v = Config.freshByte <;> simp [Mem.write, hv] at h
    exact .inl h
  | cons d m ih =>
    obtain ⟨a', b⟩ := d
    by_cases h1 : a < a'
    · by_cases hv : v = Config.freshByte <;> simp [Mem.write, h1, hv] at h <;> simp [h]
    · by_cases h2 : a = a'
      · by_cases hv : v = Config.freshByte <;> simp [Mem.write, h2, hv] at h <;> simp [h]
        rcases h with h | h <;> simp [h, h2]
      · simp [Mem.write, h1, h2] at h
        rcases h with h | h
        · simp [h]
        · rcases ih h with h | h <;> simp [h]

/-- A write keeps the canonical form. -/
theorem Mem.wf_write {m : Mem} (a : Nat) (v : Byte) (hm : Mem.wf m = true) : Mem.wf (Mem.write m a v) = true := by
  induction m with
  | nil => by_cases hv : v = Config.freshByte <;> simp [Mem.write, Mem.wf, hv]
  | cons c m ih =>
    obtain ⟨a', b⟩ := c
    obtain ⟨hlt, hb, hw⟩ := Mem.wf_cons.mp hm
    by_cases h1 : a < a'
    · by_cases hv : v = Config.freshByte
      · simpa [Mem.write, h1, hv] using hm
      · rw [Mem.write, if_pos h1, if_neg hv]
        refine Mem.wf_cons.mpr ⟨?_, hv, hm⟩
        intro c hc
        rcases List.mem_cons.mp hc with rfl | hc
        · exact h1
        · exact lt_trans h1 (hlt c hc)
    · by_cases h2 : a = a'
      · subst h2
        by_cases hv : v = Config.freshByte
        · simpa [Mem.write, hv] using hw
        · rw [Mem.write, if_neg h1, if_pos rfl, if_neg hv]
          exact Mem.wf_cons.mpr ⟨hlt, hv, hw⟩
      · rw [Mem.write, if_neg h1, if_neg h2]
        refine Mem.wf_cons.mpr ⟨?_, hb, ih hw⟩
        intro c hc
        rcases Mem.mem_write hc with rfl | hc
        · simp; omega
        · exact hlt c hc

theorem Mem.wf_writeAll {m : Mem} (cs : List Host.Cell) (hm : Mem.wf m = true) : Mem.wf (m.writeAll cs) = true := by
  induction cs generalizing m with
  | nil => exact hm
  | cons c cs ih => exact ih (Mem.wf_write _ _ hm)

theorem Mem.wf_place {m : Mem} (a : Nat) (bs : List Byte) (hm : Mem.wf m = true) : Mem.wf (m.place a bs) = true := by
  induction bs generalizing m a with
  | nil => exact hm
  | cons b bs ih => exact ih _ (Mem.wf_write _ _ hm)

/-- Bytes written elsewhere do not change an address. -/
theorem Mem.read_writeAll_of_notMem (m : Mem) {cs : List Host.Cell} {x : Nat} (h : ∀ c ∈ cs, x ≠ c.1) :
    (m.writeAll cs).read x = m.read x := by
  induction cs generalizing m with
  | nil => rfl
  | cons c cs ih =>
    rw [Mem.writeAll, ih _ (fun d hd => h d (by simp [hd])), Mem.read_write_ne _ _ (h c (by simp))]

/-- Each byte written is read back, when no address is written twice. -/
theorem Mem.read_writeAll_of_mem {m : Mem} {cs : List Host.Cell} (hm : Mem.wf m = true)
    (hn : (cs.map Prod.fst).Nodup) {c : Host.Cell} (hc : c ∈ cs) : (m.writeAll cs).read c.1 = c.2 := by
  induction cs generalizing m with
  | nil => simp at hc
  | cons d cs ih =>
    obtain ⟨hd, hn⟩ := List.nodup_cons.mp (by simpa using hn : (d.1 :: cs.map Prod.fst).Nodup)
    rw [Mem.writeAll]
    rcases List.mem_cons.mp hc with rfl | hc
    · rw [Mem.read_writeAll_of_notMem, Mem.read_write_self _ _ hm]
      intro e he heq
      exact hd (heq ▸ List.mem_map_of_mem he)
    · exact ih (Mem.wf_write _ _ hm) hn hc

end Sys2Proof.Machine
end

