-- ==== Sys2Proof/Laws/Vectors.lean ====
section
/-! SUPPORT. Vectors are their sixteen elements, and what each class writes into a register, element by element. -/

namespace Sys2Proof.Machine

theorem getLsbD_fromElems (f : Nat → Elem) (n i : Nat) (hn : n ≤ 16) :
    (fromElems f n).getLsbD i = (decide (i < 32 * n) && (f (i / 32)).getLsbD (i % 32)) := by
  induction n with
  | zero => simp [fromElems]
  | succ n ih =>
    have hlast : i < 32 * (n + 1) → ¬ i < 32 * n → i / 32 = n ∧ i - 32 * n = i % 32 := by omega
    rw [fromElems, BitVec.getLsbD_or, ih (by omega), BitVec.getLsbD_shiftLeft, BitVec.getLsbD_setWidth]
    by_cases h1 : i < 32 * n
    · simp [h1, show i < 32 * (n + 1) by omega]
    · by_cases h2 : i < 32 * (n + 1)
      · obtain ⟨e1, e2⟩ := hlast h2 h1
        simp [h1, h2, e1, e2, show i < 512 by omega, show i % 32 < 512 by omega]
      · have hge : 32 ≤ i - 32 * n := by omega
        simp [h1, h2, BitVec.getLsbD_of_ge _ _ hge]

/-- The elements of a vector built from elements. -/
theorem elem_fromElems (f : Nat → Elem) (n j : Nat) (hn : n ≤ 16) :
    elem (fromElems f n) j = if j < n then f j else 0 := by
  apply BitVec.eq_of_getLsbD_eq
  intro i hi
  rw [elem, BitVec.getLsbD_extractLsb', getLsbD_fromElems f n _ hn]
  have e1 : (32 * j + i) / 32 = j := by omega
  have e2 : (32 * j + i) % 32 = i := by omega
  by_cases h : j < n
  · simp [h, hi, e1, e2, show 32 * j + i < 32 * n by omega]
  · simp [h, show ¬ 32 * j + i < 32 * n by omega]

/-- Two vectors with the same sixteen elements are the same. -/
theorem vec_ext {v w : Vec} (h : ∀ j, j < 16 → elem v j = elem w j) : v = w := by
  apply BitVec.eq_of_getLsbD_eq
  intro i hi
  have hj := congrArg (fun e : Elem => e.getLsbD (i % 32)) (h (i / 32) (by omega))
  simpa [elem, BitVec.getLsbD_extractLsb', show i % 32 < 32 by omega, show 32 * (i / 32) + i % 32 = i by omega] using hj

theorem vlElems_le (vl : VL) : vlElems vl ≤ 16 := by cases vl <;> decide

/-- R130: four elements from the source, the others as they were. -/
theorem elem_legacyValue (old src : Vec) {j : Nat} (hj : j < 16) :
    elem (legacyValue old src) j = if j < 4 then elem src j else elem old j := by
  simp [legacyValue, elem_fromElems, hj]

/-- R140, R142: `KL` elements from the source, the others 0. -/
theorem elem_vexValue (vl : VL) (old src : Vec) (j : Nat) :
    elem (vexValue vl old src) j = if j < vlElems vl then elem src j else 0 := by
  simp [vexValue, elem_fromElems, vlElems_le]

/-- R150, R157: `KL` blended elements, the others 0. -/
theorem elem_blend (vl : VL) (sel : Nat → Bool) (z : Bool) (old src : Vec) (j : Nat) :
    elem (blend vl sel z old src) j =
      if j < vlElems vl then (if sel j then elem src j else if z then 0 else elem old j) else 0 := by
  simp [blend, elem_fromElems, vlElems_le]

/-- With every element selected a blend is a plain move (95_test_vectors.md 4.1). -/
theorem blend_all (vl : VL) (sel : Nat → Bool) (z : Bool) (old src : Vec) (h : ∀ j, sel j = true) :
    blend vl sel z old src = vexValue vl old src := by
  simp [blend, vexValue, h]

/-- The element loaded at `la + 4j`, for the elements that are selected (R60). -/
theorem elem_gather (s : State) (la : Word64) (kl : Nat) (sel : Nat → Bool) {j : Nat} (hk : kl ≤ 16) (hj : j < kl)
    (hs : sel j = true) : elem (s.gather la kl sel) j = s.elemAt (s.offset la (4 * j)) := by
  simp [State.gather, elem_fromElems, hk, hj, hs]

/-- Byte `b` of a vector lies in element `b / 4`. -/
theorem getLsbD_byteOf (v : Vec) (b i : Nat) (hi : i < 8) : (byteOf v b).getLsbD i = v.getLsbD (8 * b + i) := by
  simp [byteOf, hi]

/-- An element is its four bytes, lowest first (R52). -/
theorem elem_eq_bytes (v : Vec) (j : Nat) :
    elem v j = byteOf v (4 * j + 3) ++ byteOf v (4 * j + 2) ++ byteOf v (4 * j + 1) ++ byteOf v (4 * j) := by
  apply BitVec.eq_of_getLsbD_eq
  intro i hi
  simp only [elem, byteOf, BitVec.getLsbD_append, BitVec.getLsbD_extractLsb']
  by_cases h0 : i < 8
  · simp [h0, hi, show 8 * (4 * j) + i = 32 * j + i by omega]
  · by_cases h1 : i < 16
    · simp [h0, hi, show i - 8 < 8 by omega, show 8 * (4 * j + 1) + (i - 8) = 32 * j + i by omega]
    · by_cases h2 : i < 24
      · simp [h0, hi, show ¬ i - 8 < 8 by omega, show i - 8 - 8 < 8 by omega,
          show 8 * (4 * j + 2) + (i - 8 - 8) = 32 * j + i by omega]
      · simp [h0, hi, show ¬ i - 8 < 8 by omega, show ¬ i - 8 - 8 < 8 by omega, show i - 8 - 8 - 8 < 8 by omega,
          show 8 * (4 * j + 3) + (i - 8 - 8 - 8) = 32 * j + i by omega]

end Sys2Proof.Machine
end

