-- ==== Sys2Proof/Laws/Forms.lean ====
section
/-! SUPPORT. What each shared operation can answer, said once: the tests, address formation, loads, stores, and the two forms. -/

namespace Sys2Proof.Machine

/-! ## Stops are not next states -/

@[simp] theorem raise_ne_next (f : Fault) (t : State) : (raise f = Host.Outcome.next t) ↔ False := by simp [raise]

@[simp] theorem stop_ne_next (e : Stop) (t : State) : (e.outcome = Host.Outcome.next t) ↔ False := by
  cases e <;> simp [Stop.outcome]

/-! ## The tests (R129 steps 1 and 2) -/

theorem tests_pass {r : Record} {s : State} (k : Outcome) (hl : r.len ≤ maxLength) (hu : r.ud s = false) (ht : s.ts = false) :
    r.tests s k = k := by
  simp [Record.tests, Nat.not_lt.mpr hl, hu, ht]

theorem tests_next {r : Record} {s t : State} {k : Outcome} (h : r.tests s k = .next t) :
    r.len ≤ maxLength ∧ r.ud s = false ∧ s.ts = false ∧ k = .next t := by
  unfold Record.tests at h
  split at h
  · simp at h
  · split at h
    · simp at h
    · split at h
      · simp at h
      · exact ⟨by omega, by simp_all, by simp_all, h⟩

/-- What R202 asks for is what the tests of the class look at, but for the field tests of EVEX. -/
theorem enabled_ts {s : State} {c : Cls} {vl : VL} (h : s.enabled c vl = true) : s.ts = false := by
  simp [State.enabled] at h; exact h.1

theorem enabled_legacy {s : State} {vl : VL} (h : s.enabled .legacy vl = true) : s.udLegacy = false := by
  simp [State.enabled] at h; simp [State.udLegacy, h]

theorem enabled_vex {s : State} {vl : VL} (h : s.enabled .vex vl = true) : s.udVex = false := by
  simp [State.enabled] at h; simp [State.udVex, h]

theorem enabled_evex {s : State} {vl : VL} (h : s.enabled .evex vl = true) : s.udEvex vl = false := by
  simp [State.enabled] at h
  obtain ⟨-, h, hv⟩ := h
  rcases hv with rfl | hv <;> simp [State.udEvex, *]

/-! ## Addresses (R129 step 3) -/

theorem address_ok {s : State} {seg : SegReg} {ea la : Word64} {n : Nat} {rw : Access} (k : Word64 → Outcome)
    (h : s.linAddr seg ea n rw = .ok la) (ha : s.aligned la ea n = true) : s.address seg ea n rw k = k la := by
  simp [State.address, h, ha]

theorem address_next {s t : State} {seg : SegReg} {ea : Word64} {n : Nat} {rw : Access} {k : Word64 → Outcome}
    (h : s.address seg ea n rw k = .next t) :
    ∃ la, s.linAddr seg ea n rw = .ok la ∧ s.aligned la ea n = true ∧ k la = .next t := by
  unfold State.address at h
  split at h
  · simp at h
  · next la hla =>
    split at h
    · next ha => exact ⟨la, hla, ha, h⟩
    · simp at h

/-- The canonical test, bit by bit (R57). -/
theorem canonical_iff (b : LaBits) (la : Word64) : canonical b la = true ↔ TopBitsEqual (topBit b) la := by
  have key : ∀ w, 0 < w → w < 64 → ((la.setWidth w).signExtend 64 = la ↔ TopBitsEqual (w - 1) la) := by
    intro w h0 hw
    have hm : (la.setWidth w).msb = la.getLsbD (w - 1) := by
      rw [BitVec.msb_eq_getLsbD_last]; simp [show w - 1 < w by omega]
    constructor
    · intro h
      have hb : ∀ i, w - 1 ≤ i → i < 64 → la.getLsbD i = la.getLsbD (w - 1) := by
        intro i h1 h2
        rcases Nat.lt_or_ge i w with h3 | h3
        · rw [show i = w - 1 by omega]
        · conv_lhs => rw [← h]
          rw [BitVec.getLsbD_signExtend, hm]; simp [h2, Nat.not_lt.mpr h3]
      intro i hi
      rw [hb i hi i.isLt, hb 63 (by omega) (by omega)]
    · intro h
      apply BitVec.eq_of_getLsbD_eq
      intro i hi
      rw [BitVec.getLsbD_signExtend, hm]
      by_cases h3 : i < w
      · simp [hi, h3]
      · have e1 := h ⟨w - 1, by omega⟩ (le_refl _)
        have e2 := h ⟨i, hi⟩ (by simp; omega)
        simp only [hi, h3, e1, e2, decide_true, Bool.true_and, if_false]
  cases b
  · simpa [canonical, topBit] using key 48 (by omega) (by omega)
  · simpa [canonical, topBit] using key 57 (by omega) (by omega)

/-! ## Accesses (R59, R60) -/

theorem mem_touched {kl b : Nat} {sel : Nat → Bool} : b ∈ touched kl sel ↔ b < 4 * kl ∧ sel (b / 4) = true := by
  simp [touched]

theorem mem_tested {s : State} {kl b : Nat} {sel : Nat → Bool} :
    b ∈ s.tested kl sel ↔ b < 4 * kl ∧ (sel (b / 4) = true ∨ s.params.faultSuppression = false) := by
  unfold State.tested
  split <;> simp_all [mem_touched]

theorem probe_eq_none {s : State} {rw : Access} {las : List Word64} :
    s.probe rw las = none ↔ ∀ la ∈ las, s.probeByte rw la = none := by
  induction las with
  | nil => simp [State.probe]
  | cons la las ih =>
    unfold State.probe
    cases h : s.probeByte rw la <;> simp [h, ih]

/-- The probe of an access is empty exactly when each tested byte can be accessed. -/
theorem probe_tested {s : State} {rw : Access} {la : Word64} {kl : Nat} {sel : Nat → Bool} :
    s.probe rw ((s.tested kl sel).map (s.offset la)) = none ↔
      ∀ b, b < 4 * kl → (sel (b / 4) = true ∨ s.params.faultSuppression = false) → s.probeByte rw (s.offset la b) = none := by
  simp only [probe_eq_none, List.forall_mem_map, mem_tested, and_imp]

theorem load_ok {s : State} {la : Word64} {kl : Nat} {sel : Nat → Bool} (k : Vec → Outcome)
    (h : s.probe .read ((s.tested kl sel).map (s.offset la)) = none) : s.load la kl sel k = k (s.gather la kl sel) := by
  simp [State.load, h]

theorem load_next {s t : State} {la : Word64} {kl : Nat} {sel : Nat → Bool} {k : Vec → Outcome} (h : s.load la kl sel k = .next t) :
    s.probe .read ((s.tested kl sel).map (s.offset la)) = none ∧ k (s.gather la kl sel) = .next t := by
  unfold State.load at h
  split at h
  · simp at h
  · next hp => exact ⟨hp, h⟩

theorem store_ok {s : State} {la : Word64} {kl : Nat} {sel : Nat → Bool} {src : Vec} (k : State → Outcome)
    (h : s.probe .write ((s.tested kl sel).map (s.offset la)) = none) (ho : s.overText la kl sel = false) :
    s.store la kl sel src k = k (s.scatter la kl sel src) := by
  simp [State.store, h, ho]

theorem store_next {s t : State} {la : Word64} {kl : Nat} {sel : Nat → Bool} {src : Vec} {k : State → Outcome}
    (h : s.store la kl sel src k = .next t) :
    s.probe .write ((s.tested kl sel).map (s.offset la)) = none ∧ s.overText la kl sel = false ∧
      k (s.scatter la kl sel src) = .next t := by
  unfold State.store at h
  split at h
  · simp at h
  · next hp =>
    split at h
    · simp at h
    · next ho => exact ⟨hp, by simpa using ho, h⟩

/-! ## The bytes of an operand lie at different physical addresses -/

theorem probeByte_none {s : State} {rw : Access} {la : Word64} (h : s.probeByte rw la = none) :
    s.admits la = true ∧ ∃ frame, s.translate rw la = some (.ok frame) := by
  unfold State.probeByte at h
  split at h
  · next ha =>
    split at h
    · next f hf => exact ⟨ha, f, hf⟩
    · simp at h
    · simp at h
  · simp at h

/-- The physical address keeps `la[11:0]` (R59). -/
theorem phys_mod {s : State} {rw : Access} {la : Word64} (h : s.probeByte rw la = none) :
    s.phys rw la % 4096 = la.toNat % 4096 := by
  obtain ⟨-, f, hf⟩ := probeByte_none h
  have he : s.phys rw la = f.toNat * 4096 + la.toNat % 4096 := by
    simp only [State.phys, State.phys?, hf, Option.getD_some]
    rw [BitVec.toNat_append, Nat.shiftLeft_eq, Nat.mul_comm, ← Nat.two_pow_add_eq_or_of_lt (BitVec.isLt _)]
    simp
  omega

/-- The width of a linear address in the mode (R50). -/
theorem wrap_toNat (s : State) (a : Word64) :
    (s.wrap a).toNat = a.toNat % 2 ^ (if s.mode = .long64 then 64 else 32) := by
  unfold State.wrap low32
  split <;> simp <;> omega

theorem offset_toNat_mod (s : State) (la : Word64) (b : Nat) : (s.offset la b).toNat % 4096 = (la.toNat + b) % 4096 := by
  rw [State.offset, wrap_toNat, BitVec.toNat_add, BitVec.toNat_ofNat]
  split <;> omega

/-- Two bytes of one operand (at most 64 bytes) have different physical addresses (R61). -/
theorem phys_offset_ne {s : State} {rw : Access} {la : Word64} {b c : Nat} (hb : s.probeByte rw (s.offset la b) = none)
    (hc : s.probeByte rw (s.offset la c) = none) (hb' : b < 64) (hc' : c < 64) (hne : b ≠ c) :
    s.phys rw (s.offset la b) ≠ s.phys rw (s.offset la c) := by
  intro he
  have h1 := phys_mod hb
  have h2 := phys_mod hc
  rw [offset_toNat_mod] at h1 h2
  rw [he] at h1
  omega

theorem storeCells_nodup {s : State} {la : Word64} {kl : Nat} {sel : Nat → Bool} {src : Vec} (hk : kl ≤ 16)
    (h : ∀ b, b < 4 * kl → sel (b / 4) = true → s.probeByte .write (s.offset la b) = none) :
    ((s.storeCells la kl sel src).map Prod.fst).Nodup := by
  simp only [State.storeCells, List.map_map]
  refine List.Nodup.map_on ?_ (List.nodup_range.filter _)
  intro b hb c hc he
  obtain ⟨hb1, hb2⟩ := mem_touched.mp hb
  obtain ⟨hc1, hc2⟩ := mem_touched.mp hc
  by_contra hne
  exact phys_offset_ne (h b hb1 hb2) (h c hc1 hc2) (by omega) (by omega) hne (by simpa using he)

/-- A stored byte is read back (R52). -/
theorem read_scatter {s : State} {la : Word64} {kl b : Nat} {sel : Nat → Bool} {src : Vec} (hm : s.mem.wf = true) (hk : kl ≤ 16)
    (h : ∀ b, b < 4 * kl → sel (b / 4) = true → s.probeByte .write (s.offset la b) = none) (hb : b < 4 * kl) (hs : sel (b / 4) = true) :
    (s.scatter la kl sel src).mem.read (s.phys .write (s.offset la b)) = byteOf src b := by
  have hc : (s.phys .write (s.offset la b), byteOf src b) ∈ s.storeCells la kl sel src :=
    List.mem_map.mpr ⟨b, mem_touched.mpr ⟨hb, hs⟩, rfl⟩
  exact Mem.read_writeAll_of_mem hm (storeCells_nodup hk h) hc

/-- Every byte outside the selected elements reads as before. -/
theorem read_scatter_other {s : State} {la : Word64} {kl a : Nat} {sel : Nat → Bool} {src : Vec}
    (h : ∀ b, b < 4 * kl → sel (b / 4) = true → a ≠ s.phys .write (s.offset la b)) :
    (s.scatter la kl sel src).mem.read a = s.mem.read a := by
  refine Mem.read_writeAll_of_notMem _ fun c hc => ?_
  obtain ⟨b, hb, rfl⟩ := List.mem_map.mp hc
  exact h b (mem_touched.mp hb).1 (mem_touched.mp hb).2

/-! ## What the two forms can answer -/

/-- A load form that answers a next state wrote `reg`, from a register or from the operand it could access. -/
theorem loadForm_next {value : Vec → Vec → Vec} {r : Record} {s t : State} (h : loadForm value r s = .next t) :
    r.len ≤ maxLength ∧ r.ud s = false ∧ s.ts = false ∧
      ((∃ n, r.rm = .reg n ∧ t = (s.setVec r.reg (value (s.vec r.reg) (s.vec n))).advance r.len) ∨
        (∃ seg ea la, r.rm = .mem seg ea ∧ s.linAddr seg ea (vlBytes r.vl) .read = .ok la ∧
          s.aligned la ea (vlBytes r.vl) = true ∧
          s.probe .read ((s.tested (vlElems r.vl) (r.sel s)).map (s.offset la)) = none ∧
          t = (s.setVec r.reg (value (s.vec r.reg) (s.gather la (vlElems r.vl) (r.sel s)))).advance r.len)) := by
  obtain ⟨hl, hu, ht, h⟩ := tests_next h
  refine ⟨hl, hu, ht, ?_⟩
  split at h
  · next n hn => exact .inl ⟨n, hn, by simpa [State.finishReg] using h.symm⟩
  · next seg ea hm =>
    obtain ⟨la, hla, ha, h⟩ := address_next h
    obtain ⟨hp, h⟩ := load_next h
    exact .inr ⟨seg, ea, la, hm, hla, ha, hp, by simpa [State.finishReg] using h.symm⟩
  · simp at h

/-- A store form that answers a next state wrote a register, or the operand it could access outside the program text. -/
theorem storeForm_next {value : Vec → Vec → Vec} {r : Record} {s t : State} (h : storeForm value r s = .next t) :
    r.len ≤ maxLength ∧ r.ud s = false ∧ s.ts = false ∧
      ((∃ d, r.rm = .reg d ∧ t = (s.setVec d (value (s.vec d) (s.vec r.reg))).advance r.len) ∨
        (∃ seg ea la, r.rm = .mem seg ea ∧ s.linAddr seg ea (vlBytes r.vl) .write = .ok la ∧
          s.aligned la ea (vlBytes r.vl) = true ∧
          s.probe .write ((s.tested (vlElems r.vl) (r.sel s)).map (s.offset la)) = none ∧
          s.overText la (vlElems r.vl) (r.sel s) = false ∧
          t = (s.scatter la (vlElems r.vl) (r.sel s) (s.vec r.reg)).advance r.len)) := by
  obtain ⟨hl, hu, ht, h⟩ := tests_next h
  refine ⟨hl, hu, ht, ?_⟩
  split at h
  · next n hn => exact .inl ⟨n, hn, by simpa [State.finishReg] using h.symm⟩
  · next seg ea hm =>
    obtain ⟨la, hla, ha, h⟩ := address_next h
    obtain ⟨hp, ho, h⟩ := store_next h
    exact .inr ⟨seg, ea, la, hm, hla, ha, hp, ho, by simpa using h.symm⟩
  · simp at h

/-- Every instruction is a load form or a store form over its record, by its opcode. -/
theorem exec_form (i : Instr) (s : State) :
    ∃ value : Vec → Vec → Vec,
      ((recordOf i s).op = .load28 ∧ exec i s = loadForm value (recordOf i s) s) ∨
        ((recordOf i s).op = .store29 ∧ exec i s = storeForm value (recordOf i s) s) := by
  cases i
  case movapsLoad f => exact ⟨_, .inl ⟨rfl, rfl⟩⟩
  case movapsStore f => exact ⟨_, .inr ⟨rfl, rfl⟩⟩
  case vmovapsVex128Load f => exact ⟨_, .inl ⟨rfl, rfl⟩⟩
  case vmovapsVex128Store f => exact ⟨_, .inr ⟨rfl, rfl⟩⟩
  case vmovapsVex256Load f => exact ⟨_, .inl ⟨rfl, rfl⟩⟩
  case vmovapsVex256Store f => exact ⟨_, .inr ⟨rfl, rfl⟩⟩
  case vmovapsEvex128Load f => exact ⟨_, .inl ⟨rfl, rfl⟩⟩
  case vmovapsEvex256Load f => exact ⟨_, .inl ⟨rfl, rfl⟩⟩
  case vmovapsEvex512Load f => exact ⟨_, .inl ⟨rfl, rfl⟩⟩
  case vmovapsEvex128Store f => exact ⟨_, .inr ⟨rfl, rfl⟩⟩
  case vmovapsEvex256Store f => exact ⟨_, .inr ⟨rfl, rfl⟩⟩
  case vmovapsEvex512Store f => exact ⟨_, .inr ⟨rfl, rfl⟩⟩

end Sys2Proof.Machine
end

