-- ==== Sys2Proof/Laws/PerInstr.lean ====
section
/-! SUPPORT. Laws of every instruction as syntax: its encoding is as long as R102 says. -/

namespace Sys2Proof.Laws.EncodedLength

/-- The encoding of an instruction has the length R102 gives it. -/
def Statement (i : Instr) : Prop := (encode i).length = i.len

theorem bytes_length (p : Prefixes) : p.bytes.length = p.len := by
  rcases p with ⟨n, _ | ⟨s, k⟩⟩ <;> simp [Prefixes.bytes, Prefixes.len]

theorem disp_length (d : Disp) : d.bytes.length = d.len := by cases d <;> rfl

theorem disp16_length (d : Disp16) : d.bytes.length = d.len := by cases d <;> rfl

theorem operandBytes_length (reg : BitVec 3) (rm : Rm) : (operandBytes reg rm).length = rm.len := by
  rcases rm with r | m
  · rfl
  · cases m <;> simp [operandBytes, Rm.len, disp_length, disp16_length, bytes32, bytes16] <;> omega

theorem legacy_length (op : Op) (f : LegacyForm) : (encodeLegacy op f).length = f.len := by
  rcases f with ⟨p, _ | x, reg, rm⟩ <;>
    simp [encodeLegacy, LegacyForm.len, bytes_length, operandBytes_length] <;> omega

theorem vex_length (l : Bool) (op : Op) (f : VexForm) : (encodeVex l op f).length = f.len := by
  rcases f with ⟨p, h, reg, rm⟩
  cases h <;> simp [encodeVex, VexForm.len, VexHead.len, VexHead.bytes, bytes_length, operandBytes_length] <;> omega

theorem evex_length (vl : VL) (op : Op) (f : EvexForm) : (encodeEvex vl op f).length = f.len := by
  simp [encodeEvex, EvexForm.head, EvexForm.len, bytes_length, operandBytes_length]; omega

theorem movapsLoad (f : LegacyForm) : Statement (.movapsLoad f) := legacy_length _ f
theorem movapsStore (f : LegacyForm) : Statement (.movapsStore f) := legacy_length _ f
theorem vmovapsVex128Load (f : VexForm) : Statement (.vmovapsVex128Load f) := vex_length _ _ f
theorem vmovapsVex128Store (f : VexForm) : Statement (.vmovapsVex128Store f) := vex_length _ _ f
theorem vmovapsVex256Load (f : VexForm) : Statement (.vmovapsVex256Load f) := vex_length _ _ f
theorem vmovapsVex256Store (f : VexForm) : Statement (.vmovapsVex256Store f) := vex_length _ _ f
theorem vmovapsEvex128Load (f : EvexForm) : Statement (.vmovapsEvex128Load f) := evex_length _ _ f
theorem vmovapsEvex256Load (f : EvexForm) : Statement (.vmovapsEvex256Load f) := evex_length _ _ f
theorem vmovapsEvex512Load (f : EvexForm) : Statement (.vmovapsEvex512Load f) := evex_length _ _ f
theorem vmovapsEvex128Store (f : EvexForm) : Statement (.vmovapsEvex128Store f) := evex_length _ _ f
theorem vmovapsEvex256Store (f : EvexForm) : Statement (.vmovapsEvex256Store f) := evex_length _ _ f
theorem vmovapsEvex512Store (f : EvexForm) : Statement (.vmovapsEvex512Store f) := evex_length _ _ f

end Sys2Proof.Laws.EncodedLength
end

