-- ==== Sys2Proof/Laws/State.lean ====
section
/-! SUPPORT. What each update of the state leaves in each field: one lemma per field per update, each by `rfl`. -/

namespace Sys2Proof.Machine

/-! ## Writing a vector register -/

@[simp] theorem State.setVec_k (s : State) (n : Fin 32) (v : Vec) : (s.setVec n v).k = s.k := rfl
@[simp] theorem State.setVec_gpr (s : State) (n : Fin 32) (v : Vec) : (s.setVec n v).gpr = s.gpr := rfl
@[simp] theorem State.setVec_segs (s : State) (n : Fin 32) (v : Vec) : (s.setVec n v).segs = s.segs := rfl
@[simp] theorem State.setVec_pc (s : State) (n : Fin 32) (v : Vec) : (s.setVec n v).pc = s.pc := rfl
@[simp] theorem State.setVec_rflags (s : State) (n : Fin 32) (v : Vec) : (s.setVec n v).rflags = s.rflags := rfl
@[simp] theorem State.setVec_mxcsr (s : State) (n : Fin 32) (v : Vec) : (s.setVec n v).mxcsr = s.mxcsr := rfl
@[simp] theorem State.setVec_cr0 (s : State) (n : Fin 32) (v : Vec) : (s.setVec n v).cr0 = s.cr0 := rfl
@[simp] theorem State.setVec_cr2 (s : State) (n : Fin 32) (v : Vec) : (s.setVec n v).cr2 = s.cr2 := rfl
@[simp] theorem State.setVec_cr4 (s : State) (n : Fin 32) (v : Vec) : (s.setVec n v).cr4 = s.cr4 := rfl
@[simp] theorem State.setVec_xcr0 (s : State) (n : Fin 32) (v : Vec) : (s.setVec n v).xcr0 = s.xcr0 := rfl
@[simp] theorem State.setVec_mode (s : State) (n : Fin 32) (v : Vec) : (s.setVec n v).mode = s.mode := rfl
@[simp] theorem State.setVec_cpl (s : State) (n : Fin 32) (v : Vec) : (s.setVec n v).cpl = s.cpl := rfl
@[simp] theorem State.setVec_params (s : State) (n : Fin 32) (v : Vec) : (s.setVec n v).params = s.params := rfl
@[simp] theorem State.setVec_translation (s : State) (n : Fin 32) (v : Vec) : (s.setVec n v).translation = s.translation := rfl
@[simp] theorem State.setVec_admitted (s : State) (n : Fin 32) (v : Vec) : (s.setVec n v).admitted = s.admitted := rfl
@[simp] theorem State.setVec_text (s : State) (n : Fin 32) (v : Vec) : (s.setVec n v).text = s.text := rfl
@[simp] theorem State.setVec_mem (s : State) (n : Fin 32) (v : Vec) : (s.setVec n v).mem = s.mem := rfl
@[simp] theorem State.setVec_debugArmed (s : State) (n : Fin 32) (v : Vec) : (s.setVec n v).debugArmed = s.debugArmed := rfl

theorem State.setVec_zmm (s : State) (n : Fin 32) (v : Vec) : (s.setVec n v).zmm = s.zmm.set n v := rfl

@[simp] theorem State.vec_setVec_self (s : State) (n : Fin 32) (v : Vec) : (s.setVec n v).vec n = v := by
  simp [State.vec, State.setVec]

theorem State.vec_setVec_ne (s : State) {n m : Fin 32} (v : Vec) (h : m ≠ n) : (s.setVec n v).vec m = s.vec m := by
  have : n.val ≠ m.val := fun e => h (Fin.ext e.symm)
  simp [State.vec, State.setVec, this]

/-! ## Advancing the instruction pointer -/

@[simp] theorem State.advance_zmm (s : State) (len : Nat) : (s.advance len).zmm = s.zmm := rfl
@[simp] theorem State.advance_k (s : State) (len : Nat) : (s.advance len).k = s.k := rfl
@[simp] theorem State.advance_gpr (s : State) (len : Nat) : (s.advance len).gpr = s.gpr := rfl
@[simp] theorem State.advance_segs (s : State) (len : Nat) : (s.advance len).segs = s.segs := rfl
@[simp] theorem State.advance_rflags (s : State) (len : Nat) : (s.advance len).rflags = s.rflags := rfl
@[simp] theorem State.advance_mxcsr (s : State) (len : Nat) : (s.advance len).mxcsr = s.mxcsr := rfl
@[simp] theorem State.advance_cr0 (s : State) (len : Nat) : (s.advance len).cr0 = s.cr0 := rfl
@[simp] theorem State.advance_cr2 (s : State) (len : Nat) : (s.advance len).cr2 = s.cr2 := rfl
@[simp] theorem State.advance_cr4 (s : State) (len : Nat) : (s.advance len).cr4 = s.cr4 := rfl
@[simp] theorem State.advance_xcr0 (s : State) (len : Nat) : (s.advance len).xcr0 = s.xcr0 := rfl
@[simp] theorem State.advance_mode (s : State) (len : Nat) : (s.advance len).mode = s.mode := rfl
@[simp] theorem State.advance_cpl (s : State) (len : Nat) : (s.advance len).cpl = s.cpl := rfl
@[simp] theorem State.advance_params (s : State) (len : Nat) : (s.advance len).params = s.params := rfl
@[simp] theorem State.advance_translation (s : State) (len : Nat) : (s.advance len).translation = s.translation := rfl
@[simp] theorem State.advance_admitted (s : State) (len : Nat) : (s.advance len).admitted = s.admitted := rfl
@[simp] theorem State.advance_text (s : State) (len : Nat) : (s.advance len).text = s.text := rfl
@[simp] theorem State.advance_mem (s : State) (len : Nat) : (s.advance len).mem = s.mem := rfl
@[simp] theorem State.advance_debugArmed (s : State) (len : Nat) : (s.advance len).debugArmed = s.debugArmed := rfl

@[simp] theorem State.advance_pc (s : State) (len : Nat) : (s.advance len).pc = s.nextPc len := rfl

@[simp] theorem State.vec_advance (s : State) (len : Nat) (n : Fin 32) : (s.advance len).vec n = s.vec n := rfl

/-! ## Storing elements -/

@[simp] theorem State.scatter_zmm (s : State) (la : Word64) (kl : Nat) (sel : Nat → Bool) (src : Vec) : (s.scatter la kl sel src).zmm = s.zmm := rfl
@[simp] theorem State.scatter_k (s : State) (la : Word64) (kl : Nat) (sel : Nat → Bool) (src : Vec) : (s.scatter la kl sel src).k = s.k := rfl
@[simp] theorem State.scatter_gpr (s : State) (la : Word64) (kl : Nat) (sel : Nat → Bool) (src : Vec) : (s.scatter la kl sel src).gpr = s.gpr := rfl
@[simp] theorem State.scatter_segs (s : State) (la : Word64) (kl : Nat) (sel : Nat → Bool) (src : Vec) : (s.scatter la kl sel src).segs = s.segs := rfl
@[simp] theorem State.scatter_pc (s : State) (la : Word64) (kl : Nat) (sel : Nat → Bool) (src : Vec) : (s.scatter la kl sel src).pc = s.pc := rfl
@[simp] theorem State.scatter_rflags (s : State) (la : Word64) (kl : Nat) (sel : Nat → Bool) (src : Vec) : (s.scatter la kl sel src).rflags = s.rflags := rfl
@[simp] theorem State.scatter_mxcsr (s : State) (la : Word64) (kl : Nat) (sel : Nat → Bool) (src : Vec) : (s.scatter la kl sel src).mxcsr = s.mxcsr := rfl
@[simp] theorem State.scatter_cr0 (s : State) (la : Word64) (kl : Nat) (sel : Nat → Bool) (src : Vec) : (s.scatter la kl sel src).cr0 = s.cr0 := rfl
@[simp] theorem State.scatter_cr2 (s : State) (la : Word64) (kl : Nat) (sel : Nat → Bool) (src : Vec) : (s.scatter la kl sel src).cr2 = s.cr2 := rfl
@[simp] theorem State.scatter_cr4 (s : State) (la : Word64) (kl : Nat) (sel : Nat → Bool) (src : Vec) : (s.scatter la kl sel src).cr4 = s.cr4 := rfl
@[simp] theorem State.scatter_xcr0 (s : State) (la : Word64) (kl : Nat) (sel : Nat → Bool) (src : Vec) : (s.scatter la kl sel src).xcr0 = s.xcr0 := rfl
@[simp] theorem State.scatter_mode (s : State) (la : Word64) (kl : Nat) (sel : Nat → Bool) (src : Vec) : (s.scatter la kl sel src).mode = s.mode := rfl
@[simp] theorem State.scatter_cpl (s : State) (la : Word64) (kl : Nat) (sel : Nat → Bool) (src : Vec) : (s.scatter la kl sel src).cpl = s.cpl := rfl
@[simp] theorem State.scatter_params (s : State) (la : Word64) (kl : Nat) (sel : Nat → Bool) (src : Vec) : (s.scatter la kl sel src).params = s.params := rfl
@[simp] theorem State.scatter_translation (s : State) (la : Word64) (kl : Nat) (sel : Nat → Bool) (src : Vec) : (s.scatter la kl sel src).translation = s.translation := rfl
@[simp] theorem State.scatter_admitted (s : State) (la : Word64) (kl : Nat) (sel : Nat → Bool) (src : Vec) : (s.scatter la kl sel src).admitted = s.admitted := rfl
@[simp] theorem State.scatter_text (s : State) (la : Word64) (kl : Nat) (sel : Nat → Bool) (src : Vec) : (s.scatter la kl sel src).text = s.text := rfl
@[simp] theorem State.scatter_debugArmed (s : State) (la : Word64) (kl : Nat) (sel : Nat → Bool) (src : Vec) : (s.scatter la kl sel src).debugArmed = s.debugArmed := rfl

theorem State.scatter_mem (s : State) (la : Word64) (kl : Nat) (sel : Nat → Bool) (src : Vec) :
    (s.scatter la kl sel src).mem = s.mem.writeAll (s.storeCells la kl sel src) := rfl

@[simp] theorem State.vec_scatter (s : State) (la : Word64) (kl : Nat) (sel : Nat → Bool) (src : Vec) (n : Fin 32) :
    (s.scatter la kl sel src).vec n = s.vec n := rfl

@[simp] theorem State.nextPc_setVec (s : State) (n : Fin 32) (v : Vec) (len : Nat) : (s.setVec n v).nextPc len = s.nextPc len := rfl

@[simp] theorem State.nextPc_scatter (s : State) (la : Word64) (kl : Nat) (sel : Nat → Bool) (src : Vec) (len : Nat) :
    (s.scatter la kl sel src).nextPc len = s.nextPc len := rfl

@[simp] theorem State.offset_setVec (s : State) (n : Fin 32) (v : Vec) (la : Word64) (b : Nat) : (s.setVec n v).offset la b = s.offset la b := rfl
@[simp] theorem State.offset_advance (s : State) (len : Nat) (la : Word64) (b : Nat) : (s.advance len).offset la b = s.offset la b := rfl
@[simp] theorem State.offset_scatter (s : State) (la' : Word64) (kl : Nat) (sel : Nat → Bool) (src : Vec) (la : Word64) (b : Nat) :
    (s.scatter la' kl sel src).offset la b = s.offset la b := rfl

/-! ## What a fault leaves (R182) -/

@[simp] theorem State.afterFault_zmm (s : State) (x : Fault) : (s.afterFault x).zmm = s.zmm := by cases x <;> rfl
@[simp] theorem State.afterFault_k (s : State) (x : Fault) : (s.afterFault x).k = s.k := by cases x <;> rfl
@[simp] theorem State.afterFault_gpr (s : State) (x : Fault) : (s.afterFault x).gpr = s.gpr := by cases x <;> rfl
@[simp] theorem State.afterFault_segs (s : State) (x : Fault) : (s.afterFault x).segs = s.segs := by cases x <;> rfl
@[simp] theorem State.afterFault_pc (s : State) (x : Fault) : (s.afterFault x).pc = s.pc := by cases x <;> rfl
@[simp] theorem State.afterFault_rflags (s : State) (x : Fault) : (s.afterFault x).rflags = s.rflags := by cases x <;> rfl
@[simp] theorem State.afterFault_mxcsr (s : State) (x : Fault) : (s.afterFault x).mxcsr = s.mxcsr := by cases x <;> rfl
@[simp] theorem State.afterFault_cr0 (s : State) (x : Fault) : (s.afterFault x).cr0 = s.cr0 := by cases x <;> rfl
@[simp] theorem State.afterFault_cr4 (s : State) (x : Fault) : (s.afterFault x).cr4 = s.cr4 := by cases x <;> rfl
@[simp] theorem State.afterFault_xcr0 (s : State) (x : Fault) : (s.afterFault x).xcr0 = s.xcr0 := by cases x <;> rfl
@[simp] theorem State.afterFault_mode (s : State) (x : Fault) : (s.afterFault x).mode = s.mode := by cases x <;> rfl
@[simp] theorem State.afterFault_cpl (s : State) (x : Fault) : (s.afterFault x).cpl = s.cpl := by cases x <;> rfl
@[simp] theorem State.afterFault_params (s : State) (x : Fault) : (s.afterFault x).params = s.params := by cases x <;> rfl
@[simp] theorem State.afterFault_translation (s : State) (x : Fault) : (s.afterFault x).translation = s.translation := by cases x <;> rfl
@[simp] theorem State.afterFault_admitted (s : State) (x : Fault) : (s.afterFault x).admitted = s.admitted := by cases x <;> rfl
@[simp] theorem State.afterFault_text (s : State) (x : Fault) : (s.afterFault x).text = s.text := by cases x <;> rfl
@[simp] theorem State.afterFault_mem (s : State) (x : Fault) : (s.afterFault x).mem = s.mem := by cases x <;> rfl
@[simp] theorem State.afterFault_debugArmed (s : State) (x : Fault) : (s.afterFault x).debugArmed = s.debugArmed := by cases x <;> rfl

end Sys2Proof.Machine
end

