-- ==== Sys2Proof/Laws/Steps.lean ====
section
/-! SUPPORT. Instructions and steps over the two forms: where each completes, what a next state is, where each stops. -/

namespace Sys2Proof.Machine

/-! ## The record -/

theorem recordOf_len (i : Instr) (s : State) : (recordOf i s).len = i.len := by cases i <;> rfl

/-- Without a writemask every element is selected (R94). -/
theorem sel_of_noMask {r : Record} (h : r.aaa = 0) (s : State) (j : Nat) : r.sel s j = true := by simp [Record.sel, h]

/-- A memory operand is refused where it is a 16-bit form and those are not executed; else it is a segment and an address. -/
theorem rmOperand_mem (s : State) (e : Ext) (hi : Bool) (p : Prefixes) (n len : Nat) (m : MemForm) :
    s.rmOperand e hi p n len (.mem m) =
      if sixteenBitForm m = true ∧ s.params.sixteenBit = false then .refused16
      else .mem (operandSegment s.mode e p m) (s.effectiveAddress e p n len m) := by
  simp [State.rmOperand]

theorem rmOperand_isMem (s : State) (e : Ext) (hi : Bool) (p : Prefixes) (n len : Nat) (rm : Rm) :
    (s.rmOperand e hi p n len rm).isMem = rm.isMem := by
  cases rm
  · rfl
  · rw [rmOperand_mem]; split <;> rfl

theorem passes_legacy {f : LegacyForm} {op : Op} {s : State} (hl : f.len ≤ 15) (he : s.enabled .legacy .v128 = true) :
    (legacyRecord op f s).passes s :=
  ⟨hl, by simp [Record.ud, legacyRecord, enabled_legacy he], enabled_ts he⟩

theorem passes_vex {vl : VL} {f : VexForm} {op : Op} {s : State} (hl : f.len ≤ 15) (he : s.enabled .vex .v128 = true) :
    (vexRecord vl op f s).passes s :=
  ⟨hl, by simp [Record.ud, vexRecord, enabled_vex he], enabled_ts he⟩

theorem passes_evex {vl : VL} {f : EvexForm} {op : Op} {s : State} (hl : f.len ≤ 15) (he : s.enabled .evex vl = true)
    (hm : f.maskWf op = true) : (evexRecord vl op f s).passes s := by
  refine ⟨hl, ?_, enabled_ts he⟩
  simp only [EvexForm.maskWf, Bool.or_eq_true, Bool.and_eq_true, Bool.not_eq_true', bne_iff_ne] at hm
  simp only [Record.ud, evexRecord, rmOperand_isMem, enabled_evex he, Bool.false_or]
  rcases hm with hz | ⟨ha, hb⟩
  · simp [hz]
  · simp only [Bool.and_assoc, hb, Bool.and_false, Bool.or_false]
    simp only [beq_eq_false_iff_ne.mpr ha, Bool.and_false]

/-! ## Where the two forms complete -/

/-- A load form whose tests pass completes: from a register, and from memory it can access. -/
theorem loadForm_completes {value : Vec → Vec → Vec} {r : Record} {s : State} (hp : r.passes s) :
    (∀ n, r.rm = .reg n →
      loadForm value r s =
        .next { s with zmm := s.zmm.set r.reg (value (s.vec r.reg) (s.vec n)), pc := s.nextPc r.len }) ∧
    (∀ la, s.operandAt r .read la → s.accessible r .read la →
      loadForm value r s =
        .next { s with zmm := s.zmm.set r.reg (value (s.vec r.reg) (s.gather la (vlElems r.vl) (r.sel s))), pc := s.nextPc r.len }) := by
  obtain ⟨h1, h2, h3⟩ := hp
  constructor
  · intro n hn
    rw [loadForm, tests_pass _ h1 h2 h3, hn]; rfl
  · rintro la ⟨seg, ea, hm, hl, ha⟩ hacc
    rw [loadForm, tests_pass _ h1 h2 h3, hm]
    simp only
    rw [address_ok _ hl ha, load_ok _ (probe_tested.mpr hacc)]; rfl

/-- A store form whose tests pass completes: into a register, and into memory it can access, outside the program text. -/
theorem storeForm_completes {value : Vec → Vec → Vec} {r : Record} {s : State} (hp : r.passes s) :
    (∀ d, r.rm = .reg d →
      storeForm value r s = .next { s with zmm := s.zmm.set d (value (s.vec d) (s.vec r.reg)), pc := s.nextPc r.len }) ∧
    (∀ la, s.mem.wf = true → s.operandAt r .write la → s.accessible r .write la → s.overText la (vlElems r.vl) (r.sel s) = false →
      CompletesInMem (storeForm value r s) s la r (s.vec r.reg)) := by
  obtain ⟨h1, h2, h3⟩ := hp
  constructor
  · intro n hn
    rw [storeForm, tests_pass _ h1 h2 h3, hn]; rfl
  · rintro la hw ⟨seg, ea, hm, hl, ha⟩ hacc ho
    rw [storeForm, tests_pass _ h1 h2 h3, hm]
    simp only
    rw [address_ok _ hl ha, store_ok _ (probe_tested.mpr hacc) ho]
    exact ⟨_, fun b hb hs => read_scatter hw (vlElems_le _) (fun b hb hs => hacc b hb (.inl hs)) hb hs,
      fun a ha => read_scatter_other ha, rfl⟩

/-! ## What a next state is -/

/-- A next state of an instruction: one vector register written, or the selected bytes of its memory operand; and `pc`. -/
theorem exec_next {i : Instr} {s t : State} (h : exec i s = .next t) :
    (∃ d v, ((recordOf i s).op = .load28 ∧ d = (recordOf i s).reg ∨ (recordOf i s).op = .store29 ∧ (recordOf i s).rm = .reg d) ∧
      t = (s.setVec d v).advance (recordOf i s).len) ∨
    (∃ seg ea la src, (recordOf i s).op = .store29 ∧ (recordOf i s).rm = .mem seg ea ∧
      s.linAddr seg ea (vlBytes (recordOf i s).vl) .write = .ok la ∧
      t = (s.scatter la (vlElems (recordOf i s).vl) ((recordOf i s).sel s) src).advance (recordOf i s).len) := by
  obtain ⟨value, ⟨ho, he⟩ | ⟨ho, he⟩⟩ := exec_form i s
  · rw [he] at h
    obtain ⟨-, -, -, ⟨n, hn, rfl⟩ | ⟨seg, ea, la, hm, hl, ha, hp, rfl⟩⟩ := loadForm_next h
    · exact .inl ⟨_, _, .inl ⟨ho, rfl⟩, rfl⟩
    · exact .inl ⟨_, _, .inl ⟨ho, rfl⟩, rfl⟩
  · rw [he] at h
    obtain ⟨-, -, -, ⟨n, hn, rfl⟩ | ⟨seg, ea, la, hm, hl, ha, hp, hov, rfl⟩⟩ := storeForm_next h
    · exact .inl ⟨_, _, .inr ⟨ho, hn⟩, rfl⟩
    · exact .inr ⟨_, _, _, _, ho, hm, hl, rfl⟩

/-- A step that answers a next state executed the instruction its bytes decode to. -/
theorem step_next {s t : State} (h : step s = .next t) : ∃ i, decode s.mode s.fetch = .instr i ∧ exec i s = .next t := by
  unfold step at h
  split at h
  · simp at h
  · split at h
    · exact ⟨_, ‹_›, h⟩
    all_goals simp [raise] at h

/-- Outside `Long64` the next instruction's address has 32 bits (R27). -/
theorem nextPc_lt (s : State) (n : Nat) (h : s.mode ≠ .long64) : (s.nextPc n).toNat < 2 ^ 32 := by
  rw [State.nextPc, wrap_toNat, if_neg h]; omega

/-! ## Where an instruction stops -/

/-- With a memory operand, an instruction whose tests pass forms the operand's address next (R129 step 3). -/
theorem exec_address {i : Instr} {s : State} {seg : SegReg} {ea : Word64} (hp : (recordOf i s).passes s)
    (hm : (recordOf i s).rm = .mem seg ea) :
    ∃ k, exec i s = s.address seg ea (vlBytes (recordOf i s).vl) (accessOf (recordOf i s).op) k := by
  obtain ⟨h1, h2, h3⟩ := hp
  obtain ⟨value, ⟨ho, he⟩ | ⟨ho, he⟩⟩ := exec_form i s
  · rw [he, loadForm, tests_pass _ h1 h2 h3, hm, ho]; exact ⟨_, rfl⟩
  · rw [he, storeForm, tests_pass _ h1 h2 h3, hm, ho]; exact ⟨_, rfl⟩

/-- With a memory operand at `la`, it then loads or stores there. -/
theorem exec_access {i : Instr} {s : State} {la : Word64} (hp : (recordOf i s).passes s)
    (hm : s.operandAt (recordOf i s) (accessOf (recordOf i s).op) la) :
    let r := recordOf i s
    (∃ value : Vec → Vec → Vec, r.op = .load28 ∧ exec i s = loadForm value r s ∧
      exec i s = s.load la (vlElems r.vl) (r.sel s) (fun src => s.finishReg r.reg (value (s.vec r.reg) src) r.len)) ∨
    (r.op = .store29 ∧
      exec i s = s.store la (vlElems r.vl) (r.sel s) (s.vec r.reg) (fun t => .next (t.advance r.len))) := by
  obtain ⟨h1, h2, h3⟩ := hp
  obtain ⟨seg, ea, hm, hl, ha⟩ := hm
  obtain ⟨value, ⟨ho, he⟩ | ⟨ho, he⟩⟩ := exec_form i s
  · rw [ho] at hl
    refine .inl ⟨value, ho, he, ?_⟩
    rw [he, loadForm, tests_pass _ h1 h2 h3, hm]; exact address_ok _ hl ha
  · rw [ho] at hl
    refine .inr ⟨ho, ?_⟩
    rw [he, storeForm, tests_pass _ h1 h2 h3, hm]; exact address_ok _ hl ha

/-- The tested bytes, up to one that is asked for: those asked for below it, then it. -/
theorem tested_of_asksFor {r : Record} {s : State} {b : Nat} (h : r.asksFor s b) :
    ∃ below above, s.tested (vlElems r.vl) (r.sel s) = below ++ b :: above ∧ ∀ c ∈ below, c < b ∧ r.asksFor s c := by
  obtain ⟨h1, h2⟩ := h
  have hf : s.tested (vlElems r.vl) (r.sel s) =
      (List.range (vlBytes r.vl)).filter (fun b => decide (r.sel s (b / 4) = true ∨ s.params.faultSuppression = false)) := by
    unfold State.tested touched vlBytes
    cases s.params.faultSuppression <;> simp
  obtain ⟨n, hn⟩ : ∃ n, vlBytes r.vl = b + (n + 1) := ⟨vlBytes r.vl - b - 1, by omega⟩
  rw [hf, hn, List.range_add, List.filter_append, List.range_succ_eq_map, List.map_cons,
    List.filter_cons_of_pos (by simpa using h2)]
  refine ⟨_, _, rfl, fun c hc => ?_⟩
  obtain ⟨hc1, hc2⟩ := List.mem_filter.mp hc
  have hlt := List.mem_range.mp hc1
  exact ⟨hlt, by omega, by simpa using hc2⟩

/-- Bytes that can be accessed are passed over by the probe. -/
theorem probe_append {s : State} {rw : Access} {las : List Word64} (h : ∀ la ∈ las, s.probeByte rw la = none)
    (rest : List Word64) : s.probe rw (las ++ rest) = s.probe rw rest := by
  induction las with
  | nil => rfl
  | cons la las ih =>
    rw [List.cons_append, State.probe, h la (by simp)]
    exact ih fun a ha => h a (by simp [ha])

/-- The probe of an access that comes to a byte which cannot be accessed gives that byte's reason. -/
theorem probe_comesTo {r : Record} {s : State} {rw : Access} {la : Word64} {b : Nat} {e : Stop} (hf : r.comesTo s rw la b)
    (he : s.probeByte rw (s.offset la b) = some e) :
    s.probe rw ((s.tested (vlElems r.vl) (r.sel s)).map (s.offset la)) = some e := by
  obtain ⟨below, above, ht, hb⟩ := tested_of_asksFor hf.1
  rw [ht, List.map_append, probe_append, List.map_cons, State.probe, he]
  intro a ha
  obtain ⟨c, hc, rfl⟩ := List.mem_map.mp ha
  exact hf.2 c (hb c hc).1 (hb c hc).2

/-- An instruction whose access comes to a byte that cannot be accessed stops for that byte's reason. -/
theorem exec_stop {i : Instr} {s : State} {la : Word64} {b : Nat} {e : Stop} (hp : (recordOf i s).passes s)
    (hm : s.operandAt (recordOf i s) (accessOf (recordOf i s).op) la)
    (hf : (recordOf i s).comesTo s (accessOf (recordOf i s).op) la b)
    (he : s.probeByte (accessOf (recordOf i s).op) (s.offset la b) = some e) : exec i s = e.outcome := by
  have hpr := probe_comesTo hf he
  rcases exec_access hp hm with ⟨v, ho, -, hk⟩ | ⟨ho, hk⟩ <;> rw [ho] at hpr
  · rw [hk, State.load]; simp only [accessOf] at hpr; rw [hpr]
  · rw [hk, State.store]; simp only [accessOf] at hpr; rw [hpr]

end Sys2Proof.Machine
end

