-- ==== Sys2Proof/Tests/Slice0.lean ====
section
/-! SUPPORT. Tests with expected results from 95_test_vectors.md and the rules' own examples, and a witness for the
hypotheses of each statement. The names E, X, L, V and M are the vectors' numbers there. -/

namespace Sys2Proof.Tests

open Sys2Proof.Machine

/- One theorem after the other: each `decide +kernel` waits for the kernel, and waiting theorems hold a thread each. -/
set_option Elab.async false

/-! ## Small states -/

/-- The conventions of 95_test_vectors.md: 64-bit mode, everything enabled, `pc` = 400000H. -/
def base : State := { State.reset.launch with pc := 0x400000 }

/-- A vector from its elements, element 0 first; the elements not listed are 0. -/
def vec (es : List Nat) : Vec := fromElems (fun j => BitVec.ofNat 32 (es.getD j 0)) 16

/-- Elements `n`, `n + 1` and so on, `count` of them. -/
def ramp (n count : Nat) : List Nat := (List.range count).map (n + ·)

/-- The named patterns `A` and `B`. -/
def patA : Vec := vec (ramp 0xA0A00000 16)
def patB : Vec := vec (ramp 0xB0B00000 16)
def ones : Vec := vec (List.replicate 16 0xFFFFFFFF)

/-- The bytes `n`, `n + 1` and so on, `count` of them. -/
def bytes (n count : Nat) : List Byte := (ramp n count).map (BitVec.ofNat 8)

def withReg (n : Fin 16) (v : Word64) (s : State) : State := { s with gpr := s.gpr.set n v }
def withVec (n : Fin 32) (v : Vec) (s : State) : State := s.setVec n v
def withMask (n : Fin 8) (v : BitVec 64) (s : State) : State := { s with k := s.k.set n v }
def withBytes (a : Nat) (bs : List Byte) (s : State) : State := { s with mem := s.mem.place a bs }
def withSeg (r : SegReg) (g : Segment) (s : State) : State := { s with segs := s.segs.set (segNumber r) g }

/-- One step of the machine with the given instruction at `pc` as its program. -/
def stepOn (code : List Byte) (s : State) : Outcome :=
  step { s with mem := s.mem.place s.pc.toNat code, text := ⟨s.pc.toNat, code.length⟩ }

/-- What a vector register holds after a completed step. -/
def vecAfter (o : Outcome) (n : Fin 32) : Option Vec :=
  match o with
  | .next t => some (t.vec n)
  | _ => none

/-- What `count` bytes of memory from `a` on read as after a completed step. -/
def bytesAfter (o : Outcome) (a count : Nat) : Option (List Byte) :=
  match o with
  | .next t => some ((List.range count).map (fun i => t.mem.read (a + i)))
  | _ => none

def completes (o : Outcome) : Bool :=
  match o with
  | .next _ => true
  | _ => false

/-- The fault a step stops with. -/
def faultOf (o : Outcome) : Option Fault :=
  match o with
  | .fault f => some f
  | _ => none

/-- The Level A record of the instruction the bytes decode to. -/
def levelA (code : List Byte) (s : State) : Option Record :=
  match decode s.mode code with
  | .instr i => some (recordOf i s)
  | _ => none

/-- Registers with recognisable values: number `n` holds `n * 100000000H + n * 1000H`. -/
def regs : State := { base with gpr := Vector.ofFn (fun n => BitVec.ofNat 64 (n.val * 0x100001000)) }

/-! ## Ill-formed terms are refused, one for each check -/

theorem test_wf_legacy :
    (⟨⟨13, none⟩, none, 0, .reg 0⟩ : LegacyForm).wf .long64 = false ∧
    (⟨⟨12, none⟩, none, 0, .reg 0⟩ : LegacyForm).wf .long64 = true ∧
    (⟨⟨0, none⟩, some ⟨false, false, false, false⟩, 0, .reg 0⟩ : LegacyForm).wf .prot32 = false ∧
    (⟨⟨0, none⟩, some ⟨false, false, false, false⟩, 0, .reg 0⟩ : LegacyForm).wf .long64 = true := by decide

theorem test_wf_operand :
    (MemForm.base 4 .none).wf false = false ∧ (MemForm.base 5 .none).wf false = false ∧
    (MemForm.base 5 (.d8 0)).wf false = true ∧ (MemForm.base 0 .none).wf true = false ∧
    (MemForm.sib 0 0 5 .none).wf false = false ∧ (MemForm.sib 0 0 0 .none).wf true = false ∧
    (MemForm.sibDisp32 0 0 0).wf true = false ∧ (MemForm.disp32 0).wf true = false ∧
    (MemForm.addr16 6 .none).wf true = false ∧ (MemForm.addr16 0 .none).wf false = false ∧
    (MemForm.addr16Disp 0).wf false = false ∧
    (⟨⟨0, none⟩, none, 0, .mem (.base 4 .none)⟩ : LegacyForm).wf .long64 = false ∧
    (⟨⟨1, none⟩, none, 0, .mem (.addr16 0 .none)⟩ : LegacyForm).wf .long64 = false := by decide

theorem test_wf_vex :
    (⟨⟨0, none⟩, .two false, 0, .reg 0⟩ : VexForm).wf .real = false ∧
    (⟨⟨12, none⟩, .two false, 0, .reg 0⟩ : VexForm).wf .long64 = false ∧
    (⟨⟨0, none⟩, .two false, 0, .mem (.addr16Disp 0)⟩ : VexForm).wf .long64 = false ∧
    (⟨⟨0, none⟩, .two true, 0, .reg 0⟩ : VexForm).wf .prot32 = false ∧
    (⟨⟨0, none⟩, .three false false true false, 0, .reg 0⟩ : VexForm).wf .compat32 = false ∧
    (⟨⟨0, none⟩, .two false, 0, .reg 0⟩ : VexForm).wf .prot16 = true := by decide

theorem test_wf_evex :
    (⟨⟨0, none⟩, false, false, false, false, false, 0, 0, .reg 0⟩ : EvexForm).wf .v86 .load28 = false ∧
    (⟨⟨10, none⟩, false, false, false, false, false, 0, 0, .reg 0⟩ : EvexForm).wf .long64 .load28 = false ∧
    (⟨⟨0, none⟩, false, false, false, false, false, 0, 0, .mem (.base 4 .none)⟩ : EvexForm).wf .long64 .load28 = false ∧
    (⟨⟨0, none⟩, false, false, false, true, false, 0, 0, .reg 0⟩ : EvexForm).wf .prot32 .load28 = false ∧
    (⟨⟨0, none⟩, false, false, false, false, true, 0, 0, .reg 0⟩ : EvexForm).wf .long64 .load28 = false ∧
    (⟨⟨0, none⟩, false, false, false, false, true, 1, 0, .mem (.base 0 .none)⟩ : EvexForm).wf .long64 .store29 = false ∧
    (⟨⟨0, none⟩, false, false, false, false, true, 1, 0, .mem (.base 0 .none)⟩ : EvexForm).wf .long64 .load28 = true := by
  decide

/-! ## Decoding: bytes to Level A record (95_test_vectors.md section 2) -/

theorem test_decode_legacy_registers :
    levelA [0x0F, 0x28, 0xCA] regs = some ⟨.legacy, .v128, .load28, 1, .reg 2, 0, false, 3⟩ ∧
    levelA [0x0F, 0x29, 0xD1] regs = some ⟨.legacy, .v128, .store29, 2, .reg 1, 0, false, 3⟩ ∧
    levelA [0x45, 0x0F, 0x28, 0xC7] regs = some ⟨.legacy, .v128, .load28, 8, .reg 15, 0, false, 4⟩ ∧
    levelA [0x48, 0x0F, 0x28, 0xCA] regs = some ⟨.legacy, .v128, .load28, 1, .reg 2, 0, false, 4⟩ := by decide +kernel

/-- E3, E4, E7, E8, E9, E10, E11, E12. -/
theorem test_decode_legacy_memory :
    levelA [0x0F, 0x28, 0x00] regs = some ⟨.legacy, .v128, .load28, 0, .mem .ds 0, 0, false, 3⟩ ∧
    levelA [0x0F, 0x29, 0x5C, 0x24, 0x10] regs =
      some ⟨.legacy, .v128, .store29, 3, .mem .ss 0x400004010, 0, false, 5⟩ ∧
    levelA [0x0F, 0x28, 0x05, 0xF9, 0, 0, 0] regs = some ⟨.legacy, .v128, .load28, 0, .mem .ds 0x400100, 0, false, 7⟩ ∧
    levelA [0x64, 0x0F, 0x28, 0x01] regs = some ⟨.legacy, .v128, .load28, 0, .mem .fs 0x100001000, 0, false, 4⟩ ∧
    levelA [0x67, 0x0F, 0x28, 0x01] regs = some ⟨.legacy, .v128, .load28, 0, .mem .ds 0x1000, 0, false, 4⟩ ∧
    levelA [0x0F, 0x28, 0x8C, 0x8B, 0x78, 0x56, 0x34, 0x12] regs =
      some ⟨.legacy, .v128, .load28, 1, .mem .ds (0x300003000 + 0x400004000 + 0x12345678), 0, false, 8⟩ ∧
    levelA [0x0F, 0x28, 0x4D, 0x00] regs = some ⟨.legacy, .v128, .load28, 1, .mem .ss 0x500005000, 0, false, 4⟩ ∧
    levelA [0x41, 0x0F, 0x28, 0x0C, 0x24] regs =
      some ⟨.legacy, .v128, .load28, 1, .mem .ds 0xC0000C000, 0, false, 5⟩ := by decide +kernel

/-- E13 to E18. -/
theorem test_decode_vex :
    levelA [0xC5, 0xF8, 0x28, 0xCA] regs = some ⟨.vex, .v128, .load28, 1, .reg 2, 0, false, 4⟩ ∧
    levelA [0xC5, 0xFC, 0x28, 0x00] regs = some ⟨.vex, .v256, .load28, 0, .mem .ds 0, 0, false, 4⟩ ∧
    levelA [0xC5, 0x7C, 0x29, 0x0F] regs = some ⟨.vex, .v256, .store29, 9, .mem .ds 0x700007000, 0, false, 4⟩ ∧
    levelA [0xC4, 0xC1, 0x78, 0x28, 0xCA] regs = some ⟨.vex, .v128, .load28, 1, .reg 10, 0, false, 5⟩ ∧
    levelA [0xC4, 0xC1, 0xF8, 0x28, 0xCA] regs = some ⟨.vex, .v128, .load28, 1, .reg 10, 0, false, 5⟩ ∧
    levelA [0xC5, 0x78, 0x29, 0xD1] regs = some ⟨.vex, .v128, .store29, 10, .reg 1, 0, false, 4⟩ := by decide +kernel

/-- E19, E20, E24, E28, E29, E30, X12. -/
theorem test_decode_evex_registers :
    levelA [0x62, 0xF1, 0x7C, 0x48, 0x28, 0xCA] regs = some ⟨.evex, .v512, .load28, 1, .reg 2, 0, false, 6⟩ ∧
    levelA [0x62, 0xF1, 0x7C, 0xC9, 0x28, 0xCA] regs = some ⟨.evex, .v512, .load28, 1, .reg 2, 1, true, 6⟩ ∧
    levelA [0x62, 0x81, 0x7C, 0x08, 0x28, 0xCE] regs = some ⟨.evex, .v128, .load28, 17, .reg 30, 0, false, 6⟩ ∧
    levelA [0x62, 0xF1, 0x7C, 0x08, 0x28, 0xCA] regs = some ⟨.evex, .v128, .load28, 1, .reg 2, 0, false, 6⟩ ∧
    levelA [0x62, 0x91, 0x7C, 0x48, 0x28, 0xCA] regs = some ⟨.evex, .v512, .load28, 1, .reg 26, 0, false, 6⟩ ∧
    levelA [0x62, 0xF1, 0x7C, 0x48, 0x29, 0xCA] regs = some ⟨.evex, .v512, .store29, 1, .reg 2, 0, false, 6⟩ ∧
    levelA [0x62, 0xF1, 0x7C, 0xC9, 0x29, 0xCA] regs = some ⟨.evex, .v512, .store29, 1, .reg 2, 1, true, 6⟩ := by
  decide +kernel

/-- E21, E22, E23, E25, E26, E27, and the example of R154. -/
theorem test_decode_evex_memory :
    levelA [0x62, 0xF1, 0x7C, 0x48, 0x28, 0x40, 0x01] regs = some ⟨.evex, .v512, .load28, 0, .mem .ds 0x40, 0, false, 7⟩ ∧
    levelA [0x62, 0xF1, 0x7C, 0x48, 0x28, 0x80, 0x41, 0, 0, 0] regs =
      some ⟨.evex, .v512, .load28, 0, .mem .ds 0x41, 0, false, 10⟩ ∧
    levelA [0x62, 0xF1, 0x7C, 0x2A, 0x29, 0x18] regs = some ⟨.evex, .v256, .store29, 3, .mem .ds 0, 2, false, 6⟩ ∧
    levelA [0x62, 0xF1, 0x7C, 0x0F, 0x28, 0x6A, 0x01] regs =
      some ⟨.evex, .v128, .load28, 5, .mem .ds 0x200002010, 7, false, 7⟩ ∧
    levelA [0x62, 0xF1, 0x7C, 0x2F, 0x28, 0x6A, 0xFF] regs =
      some ⟨.evex, .v256, .load28, 5, .mem .ds 0x200001FE0, 7, false, 7⟩ ∧
    levelA [0x62, 0x61, 0x7C, 0x49, 0x29, 0x3E] regs = some ⟨.evex, .v512, .store29, 31, .mem .ds 0x600006000, 1, false, 6⟩ ∧
    levelA [0x62, 0xF1, 0x7C, 0x09, 0x29, 0x08] regs = some ⟨.evex, .v128, .store29, 1, .mem .ds 0, 1, false, 6⟩ := by
  decide +kernel

/-- X1 to X11. -/
theorem test_decode_illegal :
    decode .long64 [0xC5, 0xB8, 0x28, 0xCA] = .invalidOpcode .vvvv ∧
    decode .long64 [0x62, 0xF1, 0x74, 0x48, 0x28, 0xCA] = .invalidOpcode .vvvv ∧
    decode .long64 [0x62, 0xF1, 0x7C, 0xC8, 0x28, 0xCA] = .invalidOpcode .zeroingNoMask ∧
    decode .long64 [0x62, 0xF1, 0x7C, 0xC9, 0x29, 0x08] = .invalidOpcode .zeroingMemory ∧
    decode .long64 [0x62, 0xF1, 0xFC, 0x48, 0x28, 0xCA] = .invalidOpcode .evexW ∧
    decode .long64 [0x62, 0xF1, 0x7C, 0x68, 0x28, 0xCA] = .invalidOpcode .evexLL ∧
    decode .long64 [0x62, 0xF1, 0x7C, 0x58, 0x28, 0xCA] = .invalidOpcode .evexB ∧
    decode .long64 [0x62, 0xF1, 0x7C, 0x40, 0x28, 0xCA] = .invalidOpcode .vPrime ∧
    decode .long64 [0xF0, 0x0F, 0x29, 0x00] = .invalidOpcode .lock ∧
    decode .long64 [0x66, 0xC5, 0xF8, 0x28, 0xCA] = .invalidOpcode .simdBefore ∧
    decode .long64 [0x66, 0x0F, 0x28, 0xCA] = .refused .notInScope ∧
    decode .long64 [0xF3, 0x0F, 0x28, 0xCA] = .refused .notInScope ∧
    decode .long64 [0xF2, 0x0F, 0x29, 0xCA] = .refused .notInScope := by decide

/-- R90 and R93 outside 64-bit mode, R100, R102, R103. -/
theorem test_decode_edges :
    decode .prot32 [0xC5, 0x38, 0x28, 0xCA] = .refused .notInScope ∧
    decode .real [0xC5, 0xF8, 0x28, 0xCA] = .invalidOpcode .realOrV86 ∧
    decode .prot32 [0xC4, 0xC1, 0x78, 0x28, 0xCA] = .refused .extensionBits ∧
    decode .prot32 [0x48, 0x0F, 0x28, 0xCA] = .refused .notInScope ∧
    decode .long64 [0x40, 0xC5, 0xF8, 0x28, 0xCA] = .invalidOpcode .rexBefore ∧
    decode .long64 [0x64, 0x65, 0x0F, 0x28, 0x00] = .refused .segmentOverrides ∧
    decode .long64 (List.replicate 13 0x67 ++ [0x0F, 0x28, 0xCA]) = .tooLong ∧
    decode .long64 [0x0F, 0x28] = .truncated ∧
    decode .long64 [0x90] = .refused .notInScope := by decide

/-- Rows of the opcode table, as the host asks for them, are the first instruction a launched machine runs. -/
theorem test_table_words :
    decodeTableWord 16 0x280F = some (.movapsLoad ⟨⟨0, none⟩, none, 0, .mem (.base 0 .none)⟩) ∧
    completes (step (State.reset.withFetchWord 16 0x280F)) = true ∧
    completes (step (State.reset.withFetchWord 24 0x2878C5)) = true := by decide +kernel

/-! ## One step of each instruction (95_test_vectors.md section 3) -/

/-- L1: the upper 384 bits are kept. -/
theorem test_movapsLoad_L1 :
    vecAfter (stepOn [0x0F, 0x28, 0xCA] (withVec 1 patB (withVec 2 patA base))) 1 =
      some (vec (ramp 0xA0A00000 4 ++ ramp 0xB0B00004 12)) := by decide +kernel

/-- L3: little-endian. -/
theorem test_movapsLoad_L3 :
    vecAfter (stepOn [0x0F, 0x28, 0x00] (withReg 0 0x1000 (withVec 0 ones (withBytes 0x1000 (bytes 0 16) base)))) 0 =
      some (vec ([0x03020100, 0x07060504, 0x0B0A0908, 0x0F0E0D0C] ++ List.replicate 12 0xFFFFFFFF)) := by decide +kernel

/-- L5: sixteen bytes and no more. -/
theorem test_movapsStore_L5 :
    bytesAfter (stepOn [0x0F, 0x29, 0x00]
      (withReg 0 0x2000 (withVec 0 (vec [0x3F800000, 0x80000000, 1, 0x7FA00000, 0xFFFFFFFF]) (withBytes 0x2010 [0xEE] base)))) 0x2000 17 =
      some [0, 0, 0x80, 0x3F, 0, 0, 0, 0x80, 1, 0, 0, 0, 0, 0, 0xA0, 0x7F, 0xEE] := by decide +kernel

/-- L6: opcode `29` with a register destination. -/
theorem test_movapsStore_L6 :
    vecAfter (stepOn [0x0F, 0x29, 0xD1] (withVec 1 patB (withVec 2 patA base))) 1 =
      some (vec (ramp 0xA0A00000 4 ++ ramp 0xB0B00004 12)) := by decide +kernel

/-- V2: the same register is not a no-op. -/
theorem test_vmovapsVex128Load_V2 :
    vecAfter (stepOn [0xC5, 0xF8, 0x28, 0xC9] (withVec 1 patB base)) 1 = some (vec (ramp 0xB0B00000 4)) := by decide +kernel

/-- V6: a multiple of 16 does for 16 bytes. -/
theorem test_vmovapsVex128Load_V6 :
    vecAfter (stepOn [0xC5, 0xF8, 0x28, 0x00] (withReg 0 0x1010 (withVec 0 ones (withBytes 0x1010 (bytes 0 16) base)))) 0 =
      some (vec [0x03020100, 0x07060504, 0x0B0A0908, 0x0F0E0D0C]) := by decide +kernel

/-- V8: opcode `29`, upper bits zeroed. -/
theorem test_vmovapsVex128Store_V8 :
    vecAfter (stepOn [0xC5, 0x78, 0x29, 0xD1] (withVec 1 patB (withVec 10 patA base))) 1 = some (vec (ramp 0xA0A00000 4)) := by
  decide +kernel

/-- V4, and V5: a multiple of 16 does not do for 32 bytes. -/
theorem test_vmovapsVex256Load_V4 :
    vecAfter (stepOn [0xC5, 0xFC, 0x28, 0x00] (withReg 0 0x1000 (withVec 0 ones (withBytes 0x1000 (bytes 0 32) base)))) 0 =
      some (vec [0x03020100, 0x07060504, 0x0B0A0908, 0x0F0E0D0C, 0x13121110, 0x17161514, 0x1B1A1918, 0x1F1E1D1C]) := by
  decide +kernel

theorem test_vmovapsVex256Load_V5 :
    faultOf (stepOn [0xC5, 0xFC, 0x28, 0x00] (withReg 0 0x1010 base)) = some .generalProtection := by decide +kernel

/-- V7: exactly 32 bytes. -/
theorem test_vmovapsVex256Store_V7 :
    bytesAfter (stepOn [0xC5, 0x7C, 0x29, 0x0F] (withReg 7 0x2000 (withVec 9 patA (withBytes 0x2020 [0xEE] base)))) 0x201C 5 =
      some [7, 0, 0xA0, 0xA0, 0xEE] := by decide +kernel

/-- M4: an empty mask still zeroes the upper bits. -/
theorem test_vmovapsEvex128Load_M4 :
    vecAfter (stepOn [0x62, 0xF1, 0x7C, 0x09, 0x28, 0xCA] (withVec 1 patB (withVec 2 patA base))) 1 =
      some (vec (ramp 0xB0B00000 4)) := by decide +kernel

/-- M14: scaled displacement, merging load. -/
theorem test_vmovapsEvex128Load_M14 :
    vecAfter (stepOn [0x62, 0xF1, 0x7C, 0x0F, 0x28, 0x6A, 0x01]
      (withReg 2 0x1000 (withMask 7 5 (withVec 5 patB (withBytes 0x1010 (bytes 0x10 16) base))))) 5 =
      some (vec [0x13121110, 0xB0B00001, 0x1B1A1918, 0xB0B00003]) := by decide +kernel

/-- The example of R152: `disp8` = -1 is -20H; element 7 alone selected. -/
theorem test_vmovapsEvex256Load_R152 :
    vecAfter (stepOn [0x62, 0xF1, 0x7C, 0x2F, 0x28, 0x6A, 0xFF]
      (withReg 2 0x1020 (withMask 7 0x80 (withVec 5 patB (withBytes 0x1000 (bytes 0 32) base))))) 5 =
      some (vec (ramp 0xB0B00000 7 ++ [0x1F1E1D1C])) := by decide +kernel

/-- M2: zeroing. -/
theorem test_vmovapsEvex512Load_M2 :
    vecAfter (stepOn [0x62, 0xF1, 0x7C, 0xC9, 0x28, 0xCA] (withMask 1 0xFF (withVec 1 patB (withVec 2 patA base)))) 1 =
      some (vec (ramp 0xA0A00000 8)) := by decide +kernel

/-- M6: mask bits above 15 are not read. -/
theorem test_vmovapsEvex512Load_M6 :
    vecAfter (stepOn [0x62, 0xF1, 0x7C, 0x49, 0x28, 0xCA]
      (withMask 1 0xFFFFFFFFFFFF0000 (withVec 1 patB (withVec 2 patA base)))) 1 = some patB := by decide +kernel

/-- The example of R154: only bytes 12 to 15 are written. -/
theorem test_vmovapsEvex128Store_R154 :
    bytesAfter (stepOn [0x62, 0xF1, 0x7C, 0x09, 0x29, 0x08]
      (withReg 0 0x2000 (withMask 1 8 (withVec 1 patA (withBytes 0x2000 (List.replicate 17 0xEE) base))))) 0x200B 6 =
      some [0xEE, 3, 0, 0xA0, 0xA0, 0xEE] := by decide +kernel

/-- M9: a merging store. -/
theorem test_vmovapsEvex256Store_M9 :
    bytesAfter (stepOn [0x62, 0xF1, 0x7C, 0x2A, 0x29, 0x18]
      (withReg 0 0x2000 (withMask 2 0xF (withVec 3 patA (withBytes 0x2000 (List.replicate 32 0xEE) base))))) 0x200C 6 =
      some [3, 0, 0xA0, 0xA0, 0xEE, 0xEE] := by decide +kernel

/-- The example of R156: element 0 alone, from ZMM31. -/
theorem test_vmovapsEvex512Store_R156 :
    bytesAfter (stepOn [0x62, 0x61, 0x7C, 0x49, 0x29, 0x3E]
      (withReg 6 0x3000 (withMask 1 1 (withVec 31 patA (withBytes 0x3000 (List.replicate 64 0xEE) base))))) 0x3000 5 =
      some [0, 0, 0xA0, 0xA0, 0xEE] := by decide +kernel

/-- M15: a register destination under zeroing. -/
theorem test_vmovapsEvex512Store_M15 :
    vecAfter (stepOn [0x62, 0xF1, 0x7C, 0xC9, 0x29, 0xCA] (withMask 1 3 (withVec 1 patA (withVec 2 patB base)))) 2 =
      some (vec (ramp 0xA0A00000 2)) := by decide +kernel

/-! ## Refused 16-bit forms, and the top of linear space -/

/-- R98, D24: a store to `[BX+SI]` is refused, and runs at `(FFF0H + 1010H) mod 2^16` = 1000H where the forms are executed. -/
theorem test_vmovapsVex128Store_sixteenBit :
    let s : State := withVec 1 patA (withReg 6 0x1010 (withReg 3 0xFFF0 { base with mode := .prot16 }))
    let i : Instr := .vmovapsVex128Store ⟨⟨0, none⟩, .two false, 1, .mem (.addr16 0 .none)⟩
    exec i s = .refused .sixteenBitAddressing ∧
    bytesAfter (exec i { s with params := { Config.params with sixteenBit := true } }) 0x1000 4 = some [0, 0, 0xA0, 0xA0] := by
  refine ⟨rfl, by decide +kernel⟩

/-- R50: with the effective address tested, an operand at FFFFFFF0H of a 32-bit linear space goes on at 0. -/
theorem test_vmovapsVex256Store_wraps :
    let s : State := { withSeg .ds ⟨0xFFFFFFF0, 0xFFFFFFFF, false, true, true⟩ (withVec 1 patA base) with
      mode := .compat32, params := { Config.params with alignOn := .effective } }
    bytesAfter (exec (.vmovapsVex256Store ⟨⟨0, none⟩, .two false, 1, .mem (.base 0 .none)⟩) (withReg 0 0 s)) 0 4 =
      some [4, 0, 0xA0, 0xA0] := by decide +kernel

/-- R206: a program that ends at the top of linear space ends there. -/
theorem test_run_ends_at_the_top :
    let s : State := { State.reset with text := ⟨0xFFFFFFF0, 16⟩ }
    s.atEnd = false ∧ { s with pc := 0x10000 }.atEnd = true ∧
    ({ base with pc := 0, text := ⟨2 ^ 64 - 16, 16⟩ } : State).atEnd = true := by decide +kernel

/-! ## Witnesses: states and operands that meet the hypotheses of each statement -/

/-- The state a completed outcome holds, else the given one. -/
def after (o : Outcome) (s : State) : State :=
  match o with
  | .next t => t
  | _ => s

theorem next_after {o : Outcome} (s : State) (h : completes o = true) : o = .next (after o s) := by
  cases o with
  | next t => rfl
  | fault f => cases h
  | refused r => cases h

/-- Instructions of the greatest length, 15 bytes: register copies from register 2 into register 1, and operands at `[RAX]`. -/
def legR : LegacyForm := ⟨⟨12, none⟩, none, 1, .reg 2⟩
def legM : LegacyForm := ⟨⟨12, none⟩, none, 1, .mem (.base 0 .none)⟩
def vexR : VexForm := ⟨⟨11, none⟩, .two false, 1, .reg 2⟩
def vexM : VexForm := ⟨⟨11, none⟩, .two false, 1, .mem (.base 0 .none)⟩
def evexR (z : Bool) (aaa : BitVec 3) : EvexForm := ⟨⟨9, none⟩, false, false, false, false, z, aaa, 1, .reg 2⟩
def evexM (z : Bool) (aaa : BitVec 3) : EvexForm := ⟨⟨9, none⟩, false, false, false, false, z, aaa, 1, .mem (.base 0 .none)⟩

/-- `RAX` = 1000H, `k1` = 2: element 1 alone is selected under `k1`. -/
def mapped : State := withReg 0 0x1000 (withMask 1 2 base)

/-- The machine about to run the bytes at `pc`. -/
def about (code : List Byte) (s : State) : State :=
  { s with mem := s.mem.place s.pc.toNat code, text := ⟨s.pc.toNat, code.length⟩ }

theorem operandAt_of {s : State} {r : Record} {rw : Access} {la ea : Word64} {seg : SegReg} (h : r.rm = .mem seg ea)
    (hl : s.linAddr seg ea (vlBytes r.vl) rw = .ok la) (ha : s.aligned la ea (vlBytes r.vl) = true) : s.operandAt r rw la :=
  ⟨seg, ea, h, hl, ha⟩

theorem witness_DecodeEncodeRoundTrip :
    [Instr.movapsLoad legR, .movapsStore legM, .vmovapsVex128Load vexR, .vmovapsVex128Store vexM, .vmovapsVex256Load vexM,
      .vmovapsVex256Store vexR, .vmovapsEvex128Load (evexR true 7), .vmovapsEvex256Load (evexM true 1),
      .vmovapsEvex512Load (evexM false 0), .vmovapsEvex128Store (evexR true 1), .vmovapsEvex256Store (evexM false 7),
      .vmovapsEvex512Store (evexM false 0)].all (fun i => i.wf .long64 && i.len == 15) = true ∧
    (Instr.movapsLoad ⟨⟨0, none⟩, none, 1, .mem (.addr16 6 (.d8 0))⟩).wf .real = true ∧
    (Instr.vmovapsVex128Load vexR).wf .prot16 = true := by decide

theorem witness_DecodedBytesAreTheEncoding :
    decode .long64 [0xC4, 0xC1, 0xF8, 0x28, 0xCA, 0xFF] =
      .instr (.vmovapsVex128Load ⟨⟨0, none⟩, .three false false true true, 1, .reg 2⟩) := by decide

theorem witness_RecordIsWellFormed :
    (Instr.movapsLoad ⟨⟨0, none⟩, none, 1, .reg 2⟩).wf base.mode = true ∧ (Instr.movapsLoad legR).wf base.mode = true ∧
    (Instr.vmovapsVex256Load vexR).wf base.mode = true ∧ (Instr.vmovapsEvex512Store (evexR true 1)).wf base.mode = true ∧
    (Instr.movapsStore legM).wf (State.reset).mode = true ∧ (State.reset).mode ≠ .long64 := by decide

theorem witness_RegisterCopiesAgree :
    let f : LegacyForm := ⟨⟨0, none⟩, none, 1, .reg 2⟩
    let g : LegacyForm := ⟨⟨0, none⟩, none, 2, .reg 1⟩
    let u : VexForm := ⟨⟨0, none⟩, .two false, 1, .reg 2⟩
    let v : VexForm := ⟨⟨0, none⟩, .two false, 2, .reg 1⟩
    let x : EvexForm := ⟨⟨0, none⟩, false, true, true, false, true, 7, 1, .reg 7⟩
    let y : EvexForm := ⟨⟨0, none⟩, true, false, false, true, true, 7, 7, .reg 1⟩
    sameCopy (legacyRecord .load28 f base) (legacyRecord .store29 g base) ∧
    sameCopy (vexRecord .v128 .load28 u base) (vexRecord .v128 .store29 v base) ∧
    sameCopy (vexRecord .v256 .load28 u base) (vexRecord .v256 .store29 v base) ∧
    sameCopy (evexRecord .v128 .load28 x base) (evexRecord .v128 .store29 y base) ∧
    sameCopy (evexRecord .v256 .load28 x base) (evexRecord .v256 .store29 y base) ∧
    sameCopy (evexRecord .v512 .load28 x base) (evexRecord .v512 .store29 y base) := by
  unfold sameCopy; decide

/-- `F0H` first, last and in between, more than once, and 15 bytes in all: `67 F0 0F 28 00`, `64 F0 67 0F 28 00`, `F0 F0 0F 28 CA`. -/
theorem witness_LockedMoveIsInvalidOpcode :
    (Instr.movapsLoad ⟨⟨1, none⟩, none, 0, .mem (.base 0 .none)⟩).wf .long64 = true ∧
    lockedFrom (encode (.movapsLoad ⟨⟨1, none⟩, none, 0, .mem (.base 0 .none)⟩)) [0x67, 0xF0] [0x0F, 0x28, 0x00] ∧
    lockedFrom (encode (.movapsLoad ⟨⟨0, some (.fs, 1)⟩, none, 0, .mem (.base 0 .none)⟩)) [0x64, 0xF0] [0x67, 0x0F, 0x28, 0x00] ∧
    lockedFrom (encode (.movapsLoad ⟨⟨0, none⟩, none, 1, .reg 2⟩)) [0xF0, 0xF0] [0x0F, 0x28, 0xCA] ∧
    (Instr.vmovapsVex128Load ⟨⟨10, none⟩, .two false, 1, .reg 2⟩).wf .prot32 = true ∧
    lockedFrom (encode (.vmovapsVex128Load ⟨⟨10, none⟩, .two false, 1, .reg 2⟩)) (List.replicate 10 0x67 ++ [0xF0])
      [0xC5, 0xF8, 0x28, 0xCA] := by
  unfold lockedFrom; decide

theorem witness_SimdByteBeforeMove :
    let f : LegacyForm := ⟨⟨11, none⟩, none, 1, .reg 2⟩
    let g : VexForm := ⟨⟨10, none⟩, .two false, 1, .reg 2⟩
    let h : EvexForm := ⟨⟨8, none⟩, false, false, false, false, true, 1, 1, .reg 2⟩
    f.wf .real = true ∧ f.len = 14 ∧ g.wf .prot32 = true ∧ g.len = 14 ∧ h.wf .long64 .store29 = true ∧ h.len = 14 := by decide

theorem witness_RexBeforeVexOrEvex :
    (⟨⟨0, none⟩, .three true true true true, 7, .reg 7⟩ : VexForm).wf .long64 = true ∧
    (⟨⟨0, none⟩, true, true, true, true, true, 1, 7, .reg 7⟩ : EvexForm).wf .long64 .load28 = true := by decide

theorem witness_SeveralSegmentOverridesAreRefused :
    let p : Prefixes := ⟨1, some (.gs, 2)⟩
    (⟨⟨1, some (.gs, 9)⟩, none, 1, .reg 2⟩ : LegacyForm).wf .v86 = true ∧ (⟨⟨1, some (.gs, 9)⟩, none, 1, .reg 2⟩ : LegacyForm).len = 14 ∧
    (⟨p, .two false, 1, .reg 2⟩ : VexForm).wf .prot16 = true ∧
    (⟨p, false, false, false, false, true, 1, 1, .reg 2⟩ : EvexForm).wf .compat32 .store29 = true := by decide

theorem witness_VvvvOtherThanOnesIsInvalidOpcode :
    field76 0xF0 = 3 ∧ field76 0xE1 = 3 ∧ field76 0xF1 = 3 ∧ (0xF0 : Byte).extractLsb' 3 4 ≠ 15 ∧ (0xF0 : Byte).extractLsb' 0 2 = 0 ∧
    (0xE1 : Byte).extractLsb' 0 5 = 1 ∧ (0x70 : Byte).extractLsb' 3 4 ≠ 15 ∧ (0x70 : Byte).extractLsb' 0 2 = 0 ∧
    (0xF1 : Byte).extractLsb' 0 2 = 1 ∧ (0x74 : Byte).extractLsb' 3 4 ≠ 15 ∧ (0x74 : Byte).extractLsb' 0 2 = 0 ∧
    6 ≤ (List.replicate 6 (0 : Byte)).length := by decide

theorem witness_EvexReservedSettingsAreInvalidOpcode :
    field76 0xF1 = 3 ∧ field76 0xF5 = 3 ∧
    5 ≤ (List.replicate 5 (0 : Byte)).length ∧ (0xF1 : Byte).extractLsb' 0 2 = 1 ∧ (0xF5 : Byte).extractLsb' 0 2 = 1 ∧
    (0x7C : Byte).extractLsb' 0 2 = 0 ∧ (0xFC : Byte).extractLsb' 0 2 = 0 ∧ (0x78 : Byte).extractLsb' 0 2 = 0 ∧
    (0x40 : Byte).getLsbD 3 = false ∧ (0xFC : Byte).getLsbD 7 = true ∧ (0x68 : Byte).extractLsb' 5 2 = 3 ∧
    (0x58 : Byte).getLsbD 4 = true ∧ (0xF5 : Byte).extractLsb' 2 2 ≠ 0 ∧ (0x78 : Byte).getLsbD 2 = false ∧
    ((0xC8 : Byte).getLsbD 7 = true ∧ (0xC8 : Byte).extractLsb' 0 3 = 0) ∧
    ((0xC9 : Byte).getLsbD 7 = true ∧ (0x08 : Byte).extractLsb' 6 2 ≠ 3) := by decide

/-- `0F 28 CA` at `pc`. -/
def aboutMove : State := about [0x0F, 0x28, 0xCA] base

theorem witness_StepRunsDecodedInstruction :
    aboutMove.debugTrap = false ∧
    decode aboutMove.mode aboutMove.fetch = .instr (.movapsLoad ⟨⟨0, none⟩, none, 1, .reg 2⟩) := by decide +kernel

theorem witness_StepRunsEncodingAtPc :
    let i : Instr := .movapsLoad ⟨⟨0, none⟩, none, 1, .reg 2⟩
    i.wf aboutMove.mode = true ∧ aboutMove.debugTrap = false ∧
    ∀ n (h : n < (encode i).length),
      aboutMove.fetchable (aboutMove.fetchAddr n) = true ∧ aboutMove.byteAt (aboutMove.fetchAddr n) = (encode i)[n] := by
  decide +kernel

theorem witness_StepStopsWhereDecodingStops :
    ({ base with rflags := 0x102 } : State).debugTrap = true ∧ ({ base with debugArmed := true } : State).debugTrap = true ∧
    base.debugTrap = false ∧
    decode base.mode (about [0xF0, 0x0F, 0x29, 0x00] base).fetch = .invalidOpcode .lock ∧
    decode base.mode (about (List.replicate 13 0x67 ++ [0x0F, 0x28, 0xCA]) base).fetch = .tooLong ∧
    decode base.mode ({ aboutMove with admitted := [⟨0x400000, 2⟩] } : State).fetch = .truncated ∧
    decode base.mode (about [0x90] base).fetch = .refused .notInScope ∧
    decode base.mode (about [0x64, 0x65, 0x0F, 0x28, 0xCA] base).fetch = .refused .segmentOverrides ∧
    decode .prot32 ({ withSeg .cs Segment.resetData (about [0xC4, 0xC1, 0x78, 0x28, 0xCA] base) with mode := .prot32 } : State).fetch =
      .refused .extensionBits := by decide +kernel

/-- Paging on, and no answer of `Translate`. -/
def paged : State := { mapped with cr0 := mapped.cr0 ||| 0x80000000 }

theorem witness_UnfetchableInstructionIsRefused :
    (let s : State := { base with pc := 0x800000000000 }
     s.debugTrap = false ∧ s.mode = .long64 ∧ ¬ TopBitsEqual (topBit s.params.laBits) s.pc) ∧
    (let s : State := { base with admitted := [⟨0, 0x400000⟩] }
     s.debugTrap = false ∧ s.admits (s.fetchAddr 0) = false) ∧
    paged.debugTrap = false ∧ paged.admits (paged.fetchAddr 0) = true ∧ paged.translate .read (paged.fetchAddr 0) = none := by
  unfold TopBitsEqual; decide +kernel

/-- Also the witness of StepKeepsTheInvariant and StepKeepsControlState. -/
theorem witness_CompletedStepAdvancesPc : aboutMove.Inv ∧ step aboutMove = .next (after (step aboutMove) base) := by
  refine ⟨?_, next_after _ (by decide +kernel)⟩
  unfold State.Inv; decide +kernel

theorem witness_CompleteWriteSet :
    (let i : Instr := .movapsLoad legR
     exec i mapped = .next (after (exec i mapped) mapped) ∧ (recordOf i mapped).op = .load28 ∧ (recordOf i mapped).reg = 1) ∧
    (let i : Instr := .vmovapsEvex512Store (evexR true 1)
     exec i mapped = .next (after (exec i mapped) mapped) ∧ (recordOf i mapped).op = .store29 ∧ (recordOf i mapped).rm = .reg 2) ∧
    (let i : Instr := .vmovapsEvex512Store (evexM false 1)
     exec i mapped = .next (after (exec i mapped) mapped) ∧ (recordOf i mapped).op = .store29 ∧
        (recordOf i mapped).rm = .mem .ds 0x1000 ∧ mapped.linAddr .ds 0x1000 64 .write = .ok 0x1000) ∧
    exec (.movapsLoad legR) State.reset = .fault .invalidOpcode := by
  refine ⟨⟨next_after _ ?_, ?_⟩, ⟨next_after _ ?_, ?_⟩, ⟨next_after _ ?_, ?_, ?_, rfl⟩, rfl⟩ <;> decide +kernel

/-- `k1` differs from bit 4 on, and `k0` differs, under a 128-bit length. -/
theorem witness_MaskBitsFromTheLengthOnAreIgnored :
    let k' : Vector (BitVec 64) 8 := (mapped.k.set 0 7).set 1 0xFFF2
    ∀ n : Fin 8, n ≠ 0 → ∀ j, j < vlElems (recordOf (.vmovapsEvex128Load (evexR false 1)) mapped).vl →
      k'[n].getLsbD j = (mapped.mask n).getLsbD j := by decide +kernel

/-- Paging on: page 1 is frame 5 for reads and writes, at levels 0 and 3. -/
def shared : State :=
  { paged with
    translation := [⟨1, .read, 0, .ok 5⟩, ⟨1, .write, 0, .ok 5⟩, ⟨1, .read, 3, .ok 5⟩, ⟨1, .write, 3, .ok 5⟩] }

theorem witness_PrivilegeLevelIsNotTested :
    base.pagingOn = false ∧ shared.pagingOn = true ∧
    (∀ rw la, { shared with cpl := 3 }.translate rw la = shared.translate rw la) ∧
    completes (exec (.movapsLoad legM) shared) = true := by
  refine ⟨by decide, by decide, ?_, by decide +kernel⟩
  intro rw la
  by_cases h : pageOf la = 1#52
  · cases rw <;> simp [State.translate, shared, paged, mapped, State.pagingOn, State.pg, h] <;> decide +kernel
  · have h' : (1#52 == pageOf la) = false := beq_eq_false_iff_ne.mpr (Ne.symm h)
    simp [State.translate, shared, h', State.pagingOn, State.pg]

theorem witness_LegacyLoadCompletes :
    legR.len = 15 ∧ legM.len = 15 ∧ mapped.enabled .legacy .v128 = true ∧ (legacyRecord .load28 legR mapped).rm = .reg 2 ∧
    mapped.operandAt (legacyRecord .load28 legM mapped) .read 0x1000 ∧
    mapped.accessible (legacyRecord .load28 legM mapped) .read 0x1000 := by
  refine ⟨rfl, rfl, by decide, by decide, operandAt_of (seg := .ds) (ea := 0x1000) (by decide +kernel) rfl (by decide +kernel), ?_⟩
  unfold State.accessible; decide +kernel

theorem witness_LegacyStoreCompletes :
    (legacyRecord .store29 legR mapped).rm = .reg 2 ∧ mapped.mem.wf = true ∧
    mapped.operandAt (legacyRecord .store29 legM mapped) .write 0x1000 ∧
    mapped.accessible (legacyRecord .store29 legM mapped) .write 0x1000 ∧
    mapped.overText 0x1000 4 ((legacyRecord .store29 legM mapped).sel mapped) = false := by
  refine ⟨by decide, by decide +kernel, operandAt_of (seg := .ds) (ea := 0x1000) (by decide +kernel) rfl (by decide +kernel), ?_, ?_⟩
  · unfold State.accessible; decide +kernel
  · decide +kernel

theorem witness_VexLoadsComplete :
    vexR.len = 15 ∧ vexM.len = 15 ∧ mapped.enabled .vex .v128 = true ∧ ∀ vl, vl = .v128 ∨ vl = .v256 →
      (vexRecord vl .load28 vexR mapped).rm = .reg 2 ∧
      mapped.operandAt (vexRecord vl .load28 vexM mapped) .read 0x1000 ∧
      mapped.accessible (vexRecord vl .load28 vexM mapped) .read 0x1000 := by
  refine ⟨rfl, rfl, by decide, ?_⟩
  rintro vl (rfl | rfl) <;>
    refine ⟨by decide, operandAt_of (seg := .ds) (ea := 0x1000) (by decide +kernel) rfl (by decide +kernel), ?_⟩ <;>
    unfold State.accessible <;> decide +kernel

theorem witness_VexStoresComplete :
    ∀ vl, vl = .v128 ∨ vl = .v256 →
      (vexRecord vl .store29 vexR mapped).rm = .reg 2 ∧
      mapped.operandAt (vexRecord vl .store29 vexM mapped) .write 0x1000 ∧
      mapped.overText 0x1000 (vlElems vl) ((vexRecord vl .store29 vexM mapped).sel mapped) = false ∧
      mapped.accessible (vexRecord vl .store29 vexM mapped) .write 0x1000 := by
  rintro vl (rfl | rfl) <;>
    refine ⟨by decide, operandAt_of (seg := .ds) (ea := 0x1000) (by decide +kernel) rfl (by decide +kernel), by decide +kernel, ?_⟩ <;>
    unfold State.accessible <;> decide +kernel

theorem witness_EvexLoadsComplete :
    (evexR true 1).len = 15 ∧ (evexM true 1).len = 15 ∧ (evexR true 1).maskWf .load28 = true ∧
    (evexM true 1).maskWf .load28 = true ∧ ∀ vl : VL,
      mapped.enabled .evex vl = true ∧ (evexRecord vl .load28 (evexR true 1) mapped).rm = .reg 2 ∧
      mapped.operandAt (evexRecord vl .load28 (evexM true 1) mapped) .read 0x1000 ∧
      mapped.accessible (evexRecord vl .load28 (evexM true 1) mapped) .read 0x1000 := by
  refine ⟨rfl, rfl, by decide, by decide, ?_⟩
  rintro (_ | _ | _) <;>
    refine ⟨by decide, by decide, operandAt_of (seg := .ds) (ea := 0x1000) (by decide +kernel) rfl (by decide +kernel), ?_⟩ <;>
    unfold State.accessible <;> decide +kernel

theorem witness_EvexStoresComplete :
    (evexR true 1).maskWf .store29 = true ∧ (evexM false 1).maskWf .store29 = true ∧ ∀ vl : VL,
      (evexRecord vl .store29 (evexR true 1) mapped).rm = .reg 2 ∧
      mapped.operandAt (evexRecord vl .store29 (evexM false 1) mapped) .write 0x1000 ∧
      mapped.overText 0x1000 (vlElems vl) ((evexRecord vl .store29 (evexM false 1) mapped).sel mapped) = false ∧
      mapped.accessible (evexRecord vl .store29 (evexM false 1) mapped) .write 0x1000 := by
  refine ⟨by decide, by decide, ?_⟩
  rintro (_ | _ | _) <;>
    refine ⟨by decide, operandAt_of (seg := .ds) (ea := 0x1000) (by decide +kernel) rfl (by decide +kernel), by decide +kernel, ?_⟩ <;>
    unfold State.accessible <;> decide +kernel

/-- Both register clauses, with an unselected element under merging. -/
theorem witness_MaskingZeroesUpperBits :
    (let i : Instr := .vmovapsEvex128Load (evexR false 1)
      let r := recordOf i mapped
      r.cls = .evex ∧ exec i mapped = .next (after (exec i mapped) mapped) ∧ r.op = .load28 ∧ r.reg = 1 ∧ r.z = false ∧
        r.sel mapped 3 = false ∧ vlElems r.vl = 4) ∧
    (let i : Instr := .vmovapsEvex256Store (evexR false 1)
      let r := recordOf i mapped
      r.cls = .evex ∧ exec i mapped = .next (after (exec i mapped) mapped) ∧ r.op = .store29 ∧ r.rm = .reg 2 ∧
        r.sel mapped 7 = false) := by
  refine ⟨⟨rfl, next_after _ ?_, ?_⟩, ⟨rfl, next_after _ ?_, ?_⟩⟩ <;> decide +kernel

theorem witness_EvexWithoutMaskEqualsVex :
    (∀ vl op, (evexRecord vl op (evexM false 0) mapped).reg = (vexRecord vl op vexM mapped).reg ∧
      (evexRecord vl op (evexM false 0) mapped).rm = (vexRecord vl op vexM mapped).rm) ∧
    [Instr.vmovapsEvex128Load (evexM false 0), .vmovapsVex128Load vexM, .vmovapsEvex128Store (evexM false 0),
      .vmovapsVex128Store vexM, .vmovapsEvex256Load (evexM false 0), .vmovapsVex256Load vexM,
      .vmovapsEvex256Store (evexM false 0), .vmovapsVex256Store vexM].all (fun i => completes (exec i mapped)) = true := by
  constructor
  · intro vl op; cases vl <;> cases op <;> decide +kernel
  · decide +kernel

theorem witness_StoreThenLoadGivesTheVectorBack :
    let t := after (exec (.vmovapsEvex512Store (evexM false 0)) mapped) mapped
    mapped.mem.wf = true ∧ (evexM false 0).aaa = 0 ∧
    (∀ b, b < 64 → mapped.translate .read (mapped.offset 0x1000 b) = mapped.translate .write (mapped.offset 0x1000 b)) ∧
    mapped.linAddr .ds 0x1000 64 .write = .ok 0x1000 ∧
    (evexRecord .v512 .store29 (evexM false 0) mapped).rm = .mem .ds 0x1000 ∧
    (evexRecord .v512 .load28 (evexM false 0) t).rm = .mem .ds 0x1000 ∧
    completes (exec (.vmovapsEvex512Store (evexM false 0)) mapped) = true ∧
    completes (exec (.vmovapsEvex512Load (evexM false 0)) t) = true ∧
    shared.pagingOn = true ∧ shared.linAddr .ds 0x1000 64 .write = .ok 0x1000 ∧
    (∀ b, b < 64 → shared.translate .read (shared.offset 0x1000 b) = shared.translate .write (shared.offset 0x1000 b)) ∧
    completes (exec (.vmovapsEvex512Store (evexM false 0)) shared) = true ∧
    completes (exec (.vmovapsEvex512Load (evexM false 0))
      (after (exec (.vmovapsEvex512Store (evexM false 0)) shared) shared)) = true := by
  refine ⟨by decide +kernel, rfl, by decide +kernel, rfl, by decide +kernel, by decide +kernel, by decide +kernel,
    by decide +kernel, by decide +kernel, rfl, by decide +kernel, by decide +kernel, by decide +kernel⟩

theorem witness_LegacyInvalidOpcode :
    legR.len ≤ 15 ∧ ({ base with cr0 := base.cr0 ||| 4 } : State).em = true ∧ ({ base with cr4 := 0 } : State).osfxsr = false ∧
    ({ base with params := { Config.params with sse := false } } : State).params.sse = false ∧
    (⟨⟨11, none⟩, none, 1, .reg 2⟩ : LegacyForm).wf .real = true ∧
    lockedFrom (encodeLegacy .load28 ⟨⟨11, none⟩, none, 1, .reg 2⟩) (List.replicate 11 0x67 ++ [0xF0]) [0x0F, 0x28, 0xCA] := by
  unfold lockedFrom; decide

/-- The states of witness_LegacyInvalidOpcode serve here too: `cr4` = 0 clears OSXSAVE. -/
theorem witness_VexInvalidOpcode :
    vexR.len ≤ 15 ∧ State.reset.mode = .real ∧ ({ base with mode := .v86 } : State).mode = .v86 ∧
    ({ base with cr4 := 0 } : State).osxsave = false ∧ ({ base with xcr0 := 0xE3 } : State).xcr0.extractLsb' 1 2 ≠ 3 ∧
    ({ base with params := { Config.params with avx := false } } : State).params.avx = false := by decide

theorem witness_EvexInvalidOpcode :
    (evexR false 1).len ≤ 15 ∧ ({ base with xcr0 := 0x67 } : State).xcr0.extractLsb' 5 3 ≠ 7 ∧
    ({ base with params := { Config.params with avx512f := false } } : State).params.avx512f = false ∧
    ({ base with params := { Config.params with avx512vl := false } } : State).params.avx512vl = false ∧
    (evexR true 0).z = true ∧ (evexR true 0).aaa = 0 ∧ (evexM true 1).z = true ∧ (evexM true 1).rm.isMem = true := by decide

theorem witness_TaskSwitchedRaisesNotAvailable :
    let s : State := { base with cr0 := base.cr0 ||| 8 }
    (Instr.movapsLoad legR).len = 15 ∧ s.ts = true ∧ (recordOf (.movapsLoad legR) s).ud s = false ∧
    (recordOf (.vmovapsVex128Load vexR) s).ud s = false ∧ (recordOf (.vmovapsEvex128Load (evexR true 1)) s).ud s = false := by
  decide

theorem witness_LengthIsTestedFirst : 15 < (Instr.movapsLoad ⟨⟨13, none⟩, none, 1, .reg 2⟩).len := by decide

/-- `RAX` = 1008H under the linear test, and an `FS` base of 8 under the effective one (L4, L11). -/
theorem witness_MisalignedOperandFaults :
    (let s := withReg 0 0x1008 base
      let r := recordOf (.movapsLoad legM) s
      r.passes s ∧ r.rm = .mem .ds 0x1008 ∧ s.linAddr .ds 0x1008 16 .read = .ok 0x1008 ∧ s.params.alignOn = .linear) ∧
    (let s : State := { withReg 0 8 (withSeg .fs { Segment.resetData with base := 0x70000008 } base) with
     params := { Config.params with alignOn := .effective } }
      let r := recordOf (.movapsLoad ⟨⟨0, some (.fs, 0)⟩, none, 0, .mem (.base 0 .none)⟩) s
      r.passes s ∧ r.rm = .mem .fs 8 ∧ s.linAddr .fs 8 16 .read = .ok 0x70000010 ∧ s.params.alignOn = .effective) := by
  unfold Record.passes
  refine ⟨⟨by decide +kernel, by decide +kernel, rfl, rfl⟩, ⟨by decide +kernel, by decide +kernel, rfl, rfl⟩⟩

/-- L12 and L13. -/
theorem witness_NonCanonicalOperandFaults :
    (let s := withReg 0 0x0000800000000000 base
      let r := recordOf (.movapsLoad ⟨⟨0, none⟩, none, 0, .mem (.base 0 .none)⟩) s
      r.passes s ∧ s.mode = .long64 ∧ r.rm = .mem .ds 0x0000800000000000 ∧ s.params.laBits = .la48 ∧
        ¬ TopBitsEqual 47 0x0000800000000000 ∧ ¬ TopBitsEqual 56 0x0100000000000000) ∧
    (let s := withReg 4 0x00007FFFFFFFFFF0 base
      let r := recordOf (.movapsStore ⟨⟨0, none⟩, none, 3, .mem (.sib 0 4 4 (.d8 0x10))⟩) s
      r.passes s ∧ r.rm = .mem .ss 0x0000800000000000) := by
  unfold Record.passes TopBitsEqual; decide +kernel

theorem witness_SegmentViolationFaults :
    (let s : State := { withReg 0 0xFFF1 base with mode := .real }
      let r := recordOf (.movapsLoad legM) s
      r.passes s ∧ r.rm = .mem .ds 0xFFF1 ∧ 0xFFFF < (0xFFF1 : Word64).toNat + vlBytes r.vl - 1) ∧
    (let g : Segment := ⟨0, 0x100E, false, false, false⟩
      let s : State := { withSeg .ds g mapped with mode := .prot32 }
      let r := recordOf (.movapsLoad ⟨⟨0, none⟩, none, 0, .mem (.base 0 .none)⟩) s
      let q := recordOf (.vmovapsVex256Store ⟨⟨0, none⟩, .two false, 0, .mem (.base 0 .none)⟩) s
      r.passes s ∧ r.rm = .mem .ds 0x1000 ∧ (s.seg .ds).limit.toNat < (0x1000 : Word64).toNat + vlBytes r.vl - 1 ∧
        r.op = .load28 ∧ (s.seg .ds).readable = false ∧ q.passes s ∧ q.rm = .mem .ds 0x1000 ∧ q.op = .store29 ∧
        (s.seg .ds).writable = false) ∧
    (let s : State := { withSeg .ss ⟨0, 0xFFFFFFFF, true, true, true⟩ (withReg 5 0x1000 base) with mode := .compat32 }
      let r := recordOf (.movapsLoad ⟨⟨0, none⟩, none, 0, .mem (.base 5 (.d8 0))⟩) s
      r.passes s ∧ r.rm = .mem .ss 0x1000 ∧ (s.seg .ss).null = true) := by
  unfold Record.passes; decide +kernel

/-- The effective address tested, an `FS` base that is no multiple of 16: 16 bytes from 1FF8H on, in pages 1 and 2. -/
def crossing : State :=
  { withReg 0 0 (withSeg .fs { Segment.resetData with base := 0x1FF8 } base) with
    params := { Config.params with alignOn := .effective } }
def legFs : LegacyForm := ⟨⟨0, some (.fs, 0)⟩, none, 0, .mem (.base 0 .none)⟩

/-- Paging on, page 1 mapped for reads, and the given rows for page 2. -/
def crossingPaged (rows : List TranslateRow) : State :=
  { crossing with cr0 := crossing.cr0 ||| 0x80000000, translation := ⟨1, .read, 0, .ok 5⟩ :: rows }

/-- A page fault on the first selected element (byte 4), on byte 0 when fault suppression is off, and on byte 8, the first of a
second page. -/
theorem witness_PageFaultNamesFirstByte :
    (let s : State := { paged with translation := [⟨1, .read, 0, .pageFault 0⟩] }
      let r := recordOf (.vmovapsEvex512Load (evexM false 1)) s
      r.passes s ∧ s.operandAt r .read 0x1000 ∧ r.comesTo s .read 0x1000 4 ∧ s.admits (s.offset 0x1000 4) = true ∧
        s.translate .read (s.offset 0x1000 4) = some (.pageFault 0)) ∧
    (let s : State := { paged with translation := [⟨1, .write, 0, .pageFault 2⟩], params := { Config.params with faultSuppression := false } }
      let r := recordOf (.vmovapsEvex512Store (evexM false 1)) s
      r.passes s ∧ s.operandAt r .write 0x1000 ∧ r.comesTo s .write 0x1000 0 ∧
        s.translate .write (s.offset 0x1000 0) = some (.pageFault 2)) ∧
    (let s := crossingPaged [⟨2, .read, 0, .pageFault 0⟩]
      let r := recordOf (.movapsLoad legFs) s
      r.passes s ∧ s.operandAt r .read 0x1FF8 ∧ r.comesTo s .read 0x1FF8 8 ∧ s.admits (s.offset 0x1FF8 8) = true ∧
        s.translate .read (s.offset 0x1FF8 8) = some (.pageFault 0)) := by
  unfold Record.passes Record.comesTo Record.asksFor
  refine ⟨⟨by decide +kernel, operandAt_of (seg := .ds) (ea := 0x1000) (by decide +kernel) rfl (by decide +kernel), by decide +kernel⟩,
    ⟨by decide +kernel, operandAt_of (seg := .ds) (ea := 0x1000) (by decide +kernel) rfl (by decide +kernel), by decide +kernel⟩,
    ⟨by decide +kernel, operandAt_of (seg := .fs) (ea := 0) (by decide +kernel) rfl (by decide +kernel), by decide +kernel⟩⟩

theorem witness_MissingTranslationIsRefused :
    let s := crossingPaged []
    let r := recordOf (.movapsLoad legFs) s
    r.passes s ∧ s.operandAt r .read 0x1FF8 ∧ r.comesTo s .read 0x1FF8 8 ∧ s.admits (s.offset 0x1FF8 8) = true ∧
      s.translate .read (s.offset 0x1FF8 8) = none := by
  unfold Record.passes Record.comesTo Record.asksFor
  exact ⟨by decide +kernel, operandAt_of (seg := .fs) (ea := 0) (by decide +kernel) rfl (by decide +kernel), by decide +kernel⟩

/-- M10: `k2` = 0, the page is not mapped. -/
theorem witness_EmptyMaskNeedsNoPage :
    (let r := recordOf (.vmovapsEvex512Store (evexM false 2)) paged
     r.passes paged ∧ r.cls = .evex ∧ paged.params.faultSuppression = true ∧ (∀ j, j < vlElems r.vl → r.sel paged j = false) ∧
        paged.operandAt r .write 0x1000 ∧ r.op = .store29) ∧
    (let r := recordOf (.vmovapsEvex128Load (evexM true 2)) paged
     r.passes paged ∧ (∀ j, j < vlElems r.vl → r.sel paged j = false) ∧ paged.operandAt r .read 0x1000 ∧ r.op = .load28) := by
  unfold Record.passes
  refine ⟨⟨by decide +kernel, rfl, by decide +kernel, by decide +kernel,
      operandAt_of (seg := .ds) (ea := 0x1000) (by decide +kernel) rfl (by decide +kernel), rfl⟩,
    ⟨by decide +kernel, by decide +kernel,
      operandAt_of (seg := .ds) (ea := 0x1000) (by decide +kernel) rfl (by decide +kernel), rfl⟩⟩

/-- Byte 0 outside the map; and byte 8, where an admitted range ends inside the operand. -/
theorem witness_OutsideAddressMapIsRefused :
    (let s : State := { mapped with admitted := [⟨0, 0x1000⟩] }
     let r := recordOf (.movapsStore legM) s
     r.passes s ∧ s.operandAt r .write 0x1000 ∧ r.comesTo s .write 0x1000 0 ∧ s.admits (s.offset 0x1000 0) = false) ∧
    (let s : State := { mapped with admitted := [⟨0, 0x1008⟩] }
     let r := recordOf (.movapsStore legM) s
     r.passes s ∧ s.operandAt r .write 0x1000 ∧ r.comesTo s .write 0x1000 8 ∧ s.admits (s.offset 0x1000 8) = false) := by
  unfold Record.passes Record.comesTo Record.asksFor
  refine ⟨⟨by decide +kernel, operandAt_of (seg := .ds) (ea := 0x1000) (by decide +kernel) rfl (by decide +kernel), by decide +kernel⟩,
    ⟨by decide +kernel, operandAt_of (seg := .ds) (ea := 0x1000) (by decide +kernel) rfl (by decide +kernel), by decide +kernel⟩⟩

/-- The last byte of the operand is the first of the text. -/
theorem witness_StoreOverTextIsRefused :
    let s : State := { mapped with text := ⟨0x100F, 3⟩ }
    let r := recordOf (.movapsStore legM) s
    r.passes s ∧ r.op = .store29 ∧ s.operandAt r .write 0x1000 ∧ s.accessible r .write 0x1000 ∧
    15 < vlBytes r.vl ∧ r.sel s (15 / 4) = true ∧ 0 < s.text.size ∧ s.offset 0x1000 15 = s.offset (BitVec.ofNat 64 s.text.base) 0 := by
  unfold Record.passes State.accessible
  exact ⟨by decide +kernel, rfl, operandAt_of (seg := .ds) (ea := 0x1000) (by decide +kernel) rfl (by decide +kernel),
    by decide +kernel, by decide +kernel, by decide +kernel, by decide +kernel, by decide +kernel⟩

theorem witness_BaseAddress : (State.reset).mode ≠ .long64 := by decide

/-- General register 12 can be an index; number 4 cannot. -/
theorem witness_SibAddress : gprNumber true 4 ≠ 4 ∧ gprNumber false 4 = 4 := by decide

theorem witness_OperandOfEachClass :
    sixteenBitForm (.base 0 .none) = false ∧
    ({ base with params := { Config.params with sixteenBit := true } } : State).params.sixteenBit = true ∧
    legM.rm = .mem (.base 0 .none) ∧ vexM.rm = .mem (.base 0 .none) ∧ (evexM true 1).rm = .mem (.base 0 .none) := by decide

theorem witness_RipRelativeAddress :
    base.mode = .long64 ∧ Prefixes.has67 ⟨0, none⟩ = false ∧ Prefixes.has67 ⟨0, some (.fs, 1)⟩ = true := by decide

theorem witness_SixteenBitForms :
    addressBits .real (Prefixes.has67 ⟨0, none⟩) = 16 ∧ addressBits .prot32 (Prefixes.has67 ⟨1, none⟩) = 16 ∧
    Disp16.d8 0x80 ≠ .none := by decide

/-- Real mode, launched with `OSFXSR` set: `[BX+SI]`. -/
def real16 : State := withReg 6 0x10 (withReg 3 0xFFF0 { base with mode := .real, cr0 := 0 })
def leg16 : LegacyForm := ⟨⟨0, none⟩, none, 1, .mem (.addr16 0 .none)⟩

theorem witness_SixteenBitAddressingIsRefused :
    (recordOf (.movapsLoad leg16) real16).passes real16 ∧ (recordOf (.movapsLoad leg16) real16).rm = .refused16 ∧
    sixteenBitForm (.addr16 0 .none) = true ∧ sixteenBitForm (.addr16Disp 0) = true ∧ real16.params.sixteenBit = false := by
  unfold Record.passes; decide +kernel

theorem witness_OperandSegment : Mode.prot32 ≠ .long64 ∧ SegReg.es ≠ .fs ∧ SegReg.es ≠ .gs := by decide

/-- Every clause: the last canonical address, the last offset of a Real-mode operand, and a limit just met. -/
theorem witness_LinearAddressOfAnOperand :
    base.mode = .long64 ∧ TopBitsEqual 47 0x00007FFFFFFFFFFF ∧ TopBitsEqual 47 0xFFFF800000000000 ∧ TopBitsEqual 56 0x00FFFFFFFFFFFFFF ∧
    (0xFFF0 : Word64).toNat + 16 ≤ 0x10000 ∧
    (let s : State := { withSeg .ds ⟨0xFFFFF000, 0x100F, false, true, true⟩ base with mode := .prot16 }
     (s.seg .ds).null = false ∧ (0x1000 : Word64).toNat + 16 ≤ (s.seg .ds).limit.toNat + 1 ∧ (s.seg .ds).readable = true ∧
       (s.seg .ds).writable = true ∧ s.linAddr .ds 0x1000 16 .write = .ok 0) := by
  unfold TopBitsEqual
  exact ⟨rfl, by decide +kernel, by decide +kernel, by decide +kernel, by decide, by decide, by decide, by decide, by decide, rfl⟩

/-- Paging off; in Real mode with `PG` = 1; on, with the second row the first that fits; on, with no row that fits. -/
theorem witness_TranslateIsTheOracle :
    base.cr0.getLsbD 31 = false ∧ shared.cr0.getLsbD 31 = true ∧ shared.mode ≠ .real ∧
    (let la : Word64 := 0x1ABC
     ¬ shared.rowFits .write la ⟨1, .read, 0, .ok 5⟩ ∧ shared.rowFits .write la ⟨1, .write, 0, .ok 5⟩) ∧
    (∀ x ∈ shared.translation, ¬ shared.rowFits .read 0x2000 x) ∧ shared.admits 0x2000 = true := by
  unfold State.rowFits; decide +kernel

theorem witness_EveryEncodingFaultsAfterReset : (Instr.vmovapsEvex512Load (evexM true 1)).len ≤ 15 := by decide

end Sys2Proof.Tests
end

/-! # The state: what every step keeps, reads and writes

First the facts about next states, records and the reset state that the statements share, then the statements. -/

namespace Sys2Proof.Machine

/-! ## Every instruction as the form its opcode names -/

/-- What the record's class writes into a vector register (R130, R140, R150). -/
def Record.value (r : Record) (s : State) : Vec → Vec → Vec :=
  match r.cls with
  | .legacy => legacyValue
  | .vex => vexValue r.vl
  | .evex => evexValue r s

/-- The form the record's opcode names, with the rule of its class (R82, R129). -/
def Record.move (r : Record) (s : State) : Outcome :=
  match r.op with
  | .load28 => loadForm (r.value s) r s
  | .store29 => storeForm (r.value s) r s

theorem exec_eq_move (i : Instr) (s : State) : exec i s = (recordOf i s).move s := by cases i <;> rfl

/-! ## What a next state tells -/

/-- An instruction that completes has passed its tests (R129 steps 1 and 2). -/
theorem exec_next_passes {i : Instr} {s t : State} (h : exec i s = .next t) : (recordOf i s).passes s := by
  obtain ⟨value, ⟨-, he⟩ | ⟨-, he⟩⟩ := exec_form i s
  · obtain ⟨hl, hu, ht, -⟩ := loadForm_next (he ▸ h)
    exact ⟨hl, hu, ht⟩
  · obtain ⟨hl, hu, ht, -⟩ := storeForm_next (he ▸ h)
    exact ⟨hl, hu, ht⟩

theorem exec_next_pc {i : Instr} {s t : State} (h : exec i s = .next t) : t.pc = s.nextPc i.len := by
  rw [← recordOf_len i s]
  obtain ⟨d, v, -, rfl⟩ | ⟨seg, ea, la, src, -, -, -, rfl⟩ := exec_next h <;> simp

/-- The frame of an instruction: all but vector registers, `pc` and memory is as it was (R33). -/
theorem exec_next_frame {i : Instr} {s t : State} (h : exec i s = .next t) :
    { t with zmm := s.zmm, pc := s.pc, mem := s.mem } = s := by
  obtain ⟨d, v, -, rfl⟩ | ⟨seg, ea, la, src, -, -, -, rfl⟩ := exec_next h <;> rfl

/-- Memory stays canonical: a register destination leaves it, and each byte stored keeps it so. -/
theorem exec_next_mem_wf {i : Instr} {s t : State} (h : exec i s = .next t) (hm : s.mem.wf = true) : t.mem.wf = true := by
  obtain ⟨d, v, -, rfl⟩ | ⟨seg, ea, la, src, -, -, -, rfl⟩ := exec_next h
  · exact hm
  · exact Mem.wf_writeAll _ hm

/-- Every instruction keeps the invariant: the mode and `CR0` are of its frame, and `nextPc` has the mode's width. -/
theorem exec_next_inv {i : Instr} {s t : State} (hs : s.Inv) (h : exec i s = .next t) : t.Inv := by
  obtain ⟨hwf, hreal, -⟩ := hs
  have hf := exec_next_frame h
  have hmode : t.mode = s.mode := (congrArg State.mode hf :)
  have hpe : t.pe = s.pe := (congrArg State.pe hf :)
  refine ⟨exec_next_mem_wf h hwf, by rw [hmode, hpe]; exact hreal, fun hm => ?_⟩
  rw [exec_next_pc h]
  exact nextPc_lt s _ (hmode ▸ hm)

/-- The vector register an instruction writes when it completes, if it writes one (R33). -/
def Record.destination (r : Record) : Option (Fin 32) :=
  match r.op, r.rm with
  | .load28, _ => some r.reg
  | .store29, .reg d => some d
  | .store29, .mem _ _ | .store29, .refused16 => none

theorem destination_eq_some {r : Record} {d : Fin 32} :
    r.destination = some d ↔ r.op = .load28 ∧ d = r.reg ∨ r.op = .store29 ∧ r.rm = .reg d := by
  cases ho : r.op <;> cases hm : r.rm <;> simp [Record.destination, ho, hm, eq_comm]

/-- With a register destination, that register and `pc` are all that a next state can differ in. -/
theorem exec_next_reg {i : Instr} {s t : State} {d : Fin 32} (h : exec i s = .next t)
    (hd : (recordOf i s).destination = some d) : t = (s.setVec d (t.vec d)).advance (recordOf i s).len := by
  obtain ⟨d', v, hd', rfl⟩ | ⟨seg, ea, la, src, hop, hrm, -, -⟩ := exec_next h
  · obtain rfl := Option.some.inj ((destination_eq_some.mpr hd').symm.trans hd)
    rw [State.vec_advance, State.vec_setVec_self]
  · simp [Record.destination, hop, hrm] at hd

/-- With a memory destination, the selected elements are stored at the operand's linear address. -/
theorem exec_next_store {i : Instr} {s t : State} {seg : SegReg} {ea la : Word64} (h : exec i s = .next t)
    (hop : (recordOf i s).op = .store29) (hrm : (recordOf i s).rm = .mem seg ea)
    (hla : s.linAddr seg ea (vlBytes (recordOf i s).vl) .write = .ok la) :
    ∃ src, t = (s.scatter la (vlElems (recordOf i s).vl) ((recordOf i s).sel s) src).advance (recordOf i s).len := by
  obtain ⟨d, v, hd, -⟩ | ⟨seg', ea', la', src, -, hrm', hla', rfl⟩ := exec_next h
  · simp [hop, hrm] at hd
  · obtain ⟨rfl, rfl⟩ := RmOperand.mem.inj (hrm'.symm.trans hrm)
    obtain rfl := Except.ok.inj (hla'.symm.trans hla)
    exact ⟨src, rfl⟩

/-! ## The length of an instruction (R102) -/

theorem one_le_rm_len (rm : Rm) : 1 ≤ rm.len := by
  rcases rm with _ | m
  · exact le_refl 1
  · cases m <;> simp only [Rm.len] <;> omega

/-- The shortest encoding is `0FH`, the opcode and ModRM. -/
theorem three_le_len (i : Instr) : 3 ≤ i.len := by
  have legacy (f : LegacyForm) : 3 ≤ f.len := by have := one_le_rm_len f.rm; simp only [LegacyForm.len]; omega
  have vex (f : VexForm) : 3 ≤ f.len := by
    have := one_le_rm_len f.rm
    cases h : f.head <;> simp only [VexForm.len, VexHead.len, h] <;> omega
  have evex (f : EvexForm) : 3 ≤ f.len := by simp only [EvexForm.len]; omega
  cases i <;> simp only [Instr.len, legacy, vex, evex]

/-! ## Where the tests and the fetch stop -/

/-- An instruction of at most 15 bytes raises `#UD` where a `#UD` condition of its class holds (R171 to R173). -/
theorem exec_of_ud {i : Instr} {s : State} (hl : i.len ≤ maxLength) (hu : (recordOf i s).ud s = true) :
    exec i s = .fault .invalidOpcode := by
  have tests (k : Outcome) : (recordOf i s).tests s k = .fault .invalidOpcode := by
    simp [Record.tests, recordOf_len, Nat.not_lt.mpr hl, hu, raise]
  obtain ⟨value, ⟨-, he⟩ | ⟨-, he⟩⟩ := exec_form i s
  · rw [he, loadForm, tests]
  · rw [he, storeForm, tests]

/-- After reset `OSFXSR` is clear, and the mode is `Real`, which VEX and EVEX do not exist in (R35). -/
theorem ud_reset (r : Record) : r.ud State.reset = true := by
  unfold Record.ud
  cases r.cls <;> rfl

theorem fetch_eq_nil {s : State} (h : s.fetchable (s.fetchAddr 0) = false) : s.fetch = [] := by
  simp [State.fetch, maxLength, State.fetchFrom, h]

theorem decode_nil (m : Mode) : decode m [] = .truncated := rfl

/-- A step without its first byte is refused (log 27). -/
theorem step_of_not_fetchable {s : State} (hd : s.debugTrap = false) (h : s.fetchable (s.fetchAddr 0) = false) :
    step s = .refused .fetchOutsideMap := by
  simp [step, hd, fetch_eq_nil h, decode_nil]

theorem fetchable_iff {s : State} {la : Word64} :
    s.fetchable la = true ↔ (s.mode = .long64 → TopBitsEqual (topBit s.params.laBits) la) ∧ s.probeByte .read la = none := by
  simp only [State.fetchable, Bool.and_eq_true, Bool.or_eq_true, bne_iff_ne, Option.isNone_iff_eq_none, canonical_iff,
    ← imp_iff_not_or]

/-! ## Selections that agree below the vector length -/

theorem fromElems_congr {f g : Nat → Elem} {n : Nat} (h : ∀ j, j < n → f j = g j) : fromElems f n = fromElems g n := by
  induction n with
  | zero => rfl
  | succ n ih => rw [fromElems, fromElems, ih fun j hj => h j (by omega), h n (by omega)]

section
variable {kl : Nat} {sel sel' : Nat → Bool} (h : ∀ j, j < kl → sel' j = sel j)
include h

theorem touched_congr : touched kl sel' = touched kl sel :=
  List.filter_congr fun b hb => h _ (by have := List.mem_range.mp hb; omega)

theorem tested_congr (s : State) : s.tested kl sel' = s.tested kl sel := by
  rw [State.tested, State.tested, touched_congr h]

theorem gather_congr (s : State) (la : Word64) : s.gather la kl sel' = s.gather la kl sel :=
  fromElems_congr fun j hj => by rw [h j hj]

theorem scatter_congr (s : State) (la : Word64) (src : Vec) : s.scatter la kl sel' src = s.scatter la kl sel src := by
  rw [State.scatter, State.scatter, State.storeCells, State.storeCells, touched_congr h]

theorem overText_congr (s : State) (la : Word64) : s.overText la kl sel' = s.overText la kl sel := by
  rw [State.overText, State.overText, touched_congr h]

end

theorem blend_congr {vl : VL} {sel sel' : Nat → Bool} (h : ∀ j, j < vlElems vl → sel' j = sel j) (z : Bool) (old src : Vec) :
    blend vl sel' z old src = blend vl sel z old src :=
  fromElems_congr fun j hj => by rw [h j hj]

/-! ## Other values in the opmask registers, the flags and MXCSR

The fields are changed by functions, so that one of them can also stay (`id`) in every state the change is applied to. -/

/-- The state with the opmask registers, the flags and `MXCSR` changed. -/
def State.change (K : Vector (BitVec 64) 8 → Vector (BitVec 64) 8) (F M : BitVec 32 → BitVec 32) (s : State) : State :=
  { s with k := K s.k, rflags := F s.rflags, mxcsr := M s.mxcsr }

section
variable {K : Vector (BitVec 64) 8 → Vector (BitVec 64) 8} {F M : BitVec 32 → BitVec 32} {s : State}

theorem recordOf_change (i : Instr) : recordOf i (s.change K F M) = recordOf i s := by cases i <;> rfl

theorem finishReg_change (d : Fin 32) (v : Vec) (len : Nat) :
    (s.change K F M).finishReg d v len = onNext (State.change K F M) (s.finishReg d v len) := rfl

/-- No test reads the changed fields (R171 to R174). -/
theorem tests_change {r : Record} {k k' : Outcome} (hk : k' = onNext (State.change K F M) k) :
    r.tests (s.change K F M) k' = onNext (State.change K F M) (r.tests s k) := by
  have hu : r.ud (s.change K F M) = r.ud s := rfl
  have ht : (s.change K F M).ts = s.ts := rfl
  simp only [Record.tests, hu, ht, hk]
  split_ifs <;> rfl

/-- Nor does the formation of an address (R53, R57, R58). -/
theorem address_change {seg : SegReg} {ea : Word64} {n : Nat} {rw : Access} {k k' : Word64 → Outcome}
    (hk : ∀ la, k' la = onNext (State.change K F M) (k la)) :
    (s.change K F M).address seg ea n rw k' = onNext (State.change K F M) (s.address seg ea n rw k) := by
  have hl : (s.change K F M).linAddr seg ea n rw = s.linAddr seg ea n rw := rfl
  have ha : ∀ la, (s.change K F M).aligned la ea n = s.aligned la ea n := fun _ => rfl
  simp only [State.address, hl, ha, hk]
  split
  · rfl
  · split_ifs <;> rfl

theorem probe_change (rw : Access) (las : List Word64) : (s.change K F M).probe rw las = s.probe rw las := by
  induction las with
  | nil => rfl
  | cons la las ih =>
    have hp : (s.change K F M).probeByte rw la = s.probeByte rw la := rfl
    rw [State.probe, State.probe, hp, ih]

theorem onNext_stop (g : State → State) (e : Stop) : onNext g e.outcome = e.outcome := by cases e <;> rfl

/-- A load reads the selection alone, of the elements of the operand (R60). -/
theorem load_change {la : Word64} {kl : Nat} {sel sel' : Nat → Bool} {k k' : Vec → Outcome}
    (hs : ∀ j, j < kl → sel' j = sel j) (hk : ∀ v, k' v = onNext (State.change K F M) (k v)) :
    (s.change K F M).load la kl sel' k' = onNext (State.change K F M) (s.load la kl sel k) := by
  have ht : (s.change K F M).tested kl sel = s.tested kl sel := rfl
  have ho : (s.change K F M).offset la = s.offset la := rfl
  have hg : (s.change K F M).gather la kl sel = s.gather la kl sel := rfl
  simp only [State.load, tested_congr hs, gather_congr hs, probe_change, ht, ho, hg, hk]
  split
  · exact (onNext_stop _ _).symm
  · rfl

theorem store_change {la : Word64} {kl : Nat} {sel sel' : Nat → Bool} {src : Vec} {k k' : State → Outcome}
    (hs : ∀ j, j < kl → sel' j = sel j) (hk : ∀ t : State, k' (t.change K F M) = onNext (State.change K F M) (k t)) :
    (s.change K F M).store la kl sel' src k' = onNext (State.change K F M) (s.store la kl sel src k) := by
  have ht : (s.change K F M).tested kl sel = s.tested kl sel := rfl
  have ho : (s.change K F M).offset la = s.offset la := rfl
  have hv : (s.change K F M).overText la kl sel = s.overText la kl sel := rfl
  have hc : (s.change K F M).scatter la kl sel src = (s.scatter la kl sel src).change K F M := rfl
  simp only [State.store, tested_congr hs, overText_congr hs, scatter_congr hs, probe_change, ht, ho, hv, hc, hk]
  split
  · exact (onNext_stop _ _).symm
  · split_ifs <;> rfl

section
variable {r : Record} (hs : ∀ j, j < vlElems r.vl → r.sel (s.change K F M) j = r.sel s j)
include hs

theorem value_change : r.value (s.change K F M) = r.value s := by
  unfold Record.value
  split
  · rfl
  · rfl
  · funext old src
    exact blend_congr hs r.z old src

/-- A move whose selection is the same below the vector length has the same outcome, but for the changed fields. -/
theorem move_change : r.move (s.change K F M) = onNext (State.change K F M) (r.move s) := by
  rw [Record.move, Record.move, value_change hs]
  cases r.op
  case load28 =>
    refine tests_change ?_
    cases r.rm with
    | reg n => exact finishReg_change _ _ _
    | mem seg ea => exact address_change fun la => load_change hs fun v => finishReg_change _ _ _
    | refused16 => rfl
  case store29 =>
    refine tests_change ?_
    cases r.rm with
    | reg n => exact finishReg_change _ _ _
    | mem seg ea => exact address_change fun la => store_change hs fun t => rfl
    | refused16 => rfl

end

/-- `k0` is no writemask, and of `k1` to `k7` an instruction reads the bits below `KL` (R24, R94, R150). -/
theorem exec_change {i : Instr}
    (hk : ∀ n : Fin 8, n ≠ 0 → ∀ j, j < vlElems (recordOf i s).vl → (K s.k)[n].getLsbD j = (s.mask n).getLsbD j) :
    exec i (s.change K F M) = onNext (State.change K F M) (exec i s) := by
  rw [exec_eq_move, exec_eq_move, recordOf_change]
  refine move_change fun j hj => ?_
  by_cases ha : (recordOf i s).aaa = 0
  · rw [sel_of_noMask ha, sel_of_noMask ha]
  · have hn : (recordOf i s).aaa.toFin ≠ 0 := fun h => ha (BitVec.toFin_inj.mp h)
    exact congrArg (_ || ·) (hk _ hn j hj)

end

/-! ## The statements -/

/-- Settles O17: a step executes one instruction, and every instruction keeps the invariant. -/
theorem stepKeepsTheInvariant : Obligations.StepKeepsTheInvariant := by
  intro s t hs h
  obtain ⟨i, -, hi⟩ := step_next h
  exact exec_next_inv hs hi

/-- Settles O16: the upper bound is the length test of R129, the lower one the bytes every encoding has. -/
theorem completedStepAdvancesPc : Obligations.CompletedStepAdvancesPc := by
  intro s t h
  obtain ⟨i, hd, hi⟩ := step_next h
  obtain ⟨hlen, -, -⟩ := exec_next_passes hi
  exact ⟨i, hd, three_le_len i, recordOf_len i s ▸ hlen, exec_next_pc hi⟩

/-- Settles O19: the frame of the instruction the step executes. -/
theorem stepKeepsControlState : Obligations.StepKeepsControlState := by
  intro s t h
  obtain ⟨i, -, hi⟩ := step_next h
  exact exec_next_frame hi

/-- Settles O20: the two kinds of next state, and what `State.afterFault` leaves of each fault. -/
theorem completeWriteSet : Obligations.CompleteWriteSet := by
  intro i s r
  refine ⟨fun t d h hd => exec_next_reg h (destination_eq_some.mpr hd), fun t seg ea la h hop hrm hla => ?_, fun f _ => ?_⟩
  · obtain ⟨src, rfl⟩ := exec_next_store h hop hrm hla
    exact ⟨rfl, fun a ha => read_scatter_other ha⟩
  · cases f <;> rfl

/-- Settles O21: no part of a move reads the flags or `MXCSR`, and the opmask registers stay as they are. -/
theorem flagsNeitherReadNorWritten : Obligations.FlagsNeitherReadNorWritten := fun _ _ a b =>
  exec_change (K := id) (F := fun _ => a) (M := fun _ => b) fun _ _ _ _ => rfl

/-- Settles O22: the selection of a move is the same below `KL`. -/
theorem maskBitsFromTheLengthOnAreIgnored : Obligations.MaskBitsFromTheLengthOnAreIgnored := fun _ _ k' hk =>
  exec_change (K := fun _ => k') (F := id) (M := id) hk

/-- Settles O15: where its first byte cannot be fetched, a step has no bytes to decode. -/
theorem unfetchableInstructionIsRefused : Obligations.UnfetchableInstructionIsRefused := by
  intro s hd h
  refine step_of_not_fetchable hd (Bool.eq_false_iff.mpr fun hf => ?_)
  obtain ⟨htop, hprobe⟩ := fetchable_iff.mp hf
  obtain ⟨hadmits, frame, htr⟩ := probeByte_none hprobe
  rcases h with ⟨hm, hpc⟩ | ha | ⟨-, htr'⟩
  · have hpc0 : s.fetchAddr 0 = s.pc := by simp [State.fetchAddr, hm]
    exact hpc (hpc0 ▸ htop hm)
  · exact absurd hadmits (by simp [ha])
  · exact htr' frame htr

/-- Settles O18: memory lists nothing, the mode is `Real` with `PE` clear, and `pc` is 0000FFF0H. -/
theorem resetMeetsTheInvariant : Obligations.ResetMeetsTheInvariant :=
  ⟨rfl, iff_of_true rfl rfl, fun _ => by decide⟩

/-- Settles O58: each register file by its number, each other register by its value. -/
theorem resetValues : Obligations.ResetValues := by
  have vec (n : Fin 32) : State.reset.vec n = 0 := by simp [State.reset, State.vec]
  have mask (n : Fin 8) : State.reset.mask n = 0 := by simp [State.reset, State.mask]
  have reg (n : Fin 16) (hn : n ≠ 2) : State.reset.reg n = 0 := by
    have : (2 : Nat) ≠ n.val := fun h => hn (Fin.ext h.symm)
    simp [State.reset, State.reg, this]
  exact ⟨vec, mask, reg, rfl, rfl, rfl, rfl, rfl, rfl, rfl, rfl⟩

/-- Settles O59: a `#UD` condition of every class holds of the reset state. -/
theorem everyEncodingFaultsAfterReset : Obligations.EveryEncodingFaultsAfterReset :=
  ⟨fun _ hl => exec_of_ud hl (ud_reset _), rfl, rfl, rfl⟩

end Sys2Proof.Machine

/-! # What stands at the program counter, and where a memory operand lies

The encodings under the decoder, whatever legacy bytes stand before them; then operands in memory; then the statements. -/

namespace Sys2Proof

/-! ## Encodings, class by class -/

/-- A property of instructions holds of all when it holds of each class, whatever its length and opcode (R82, R89, R92). -/
theorem Instr.byClass {P : Instr → Prop} (legacy : ∀ op f, P (mkLegacy op f)) (vex : ∀ l op f, P (mkVex l op f))
    (evex : ∀ vl op f, P (mkEvex vl op f)) (i : Instr) : P i := by
  cases i
  case movapsLoad f => exact legacy .load28 f
  case movapsStore f => exact legacy .store29 f
  case vmovapsVex128Load f => exact vex false .load28 f
  case vmovapsVex128Store f => exact vex false .store29 f
  case vmovapsVex256Load f => exact vex true .load28 f
  case vmovapsVex256Store f => exact vex true .store29 f
  case vmovapsEvex128Load f => exact evex .v128 .load28 f
  case vmovapsEvex256Load f => exact evex .v256 .load28 f
  case vmovapsEvex512Load f => exact evex .v512 .load28 f
  case vmovapsEvex128Store f => exact evex .v128 .store29 f
  case vmovapsEvex256Store f => exact evex .v256 .store29 f
  case vmovapsEvex512Store f => exact evex .v512 .store29 f

theorem encode_mkLegacy (op : Op) (f : LegacyForm) : encode (mkLegacy op f) = encodeLegacy op f := by cases op <;> rfl

theorem encode_mkVex (l : Bool) (op : Op) (f : VexForm) : encode (mkVex l op f) = encodeVex l op f := by
  cases l <;> cases op <;> rfl

theorem encode_mkEvex (vl : VL) (op : Op) (f : EvexForm) : encode (mkEvex vl op f) = encodeEvex vl op f := by
  cases vl <;> cases op <;> rfl

theorem wf_mkLegacy (m : Mode) (op : Op) (f : LegacyForm) : (mkLegacy op f).wf m = f.wf m := by cases op <;> rfl

theorem wf_mkVex (m : Mode) (l : Bool) (op : Op) (f : VexForm) : (mkVex l op f).wf m = f.wf m := by
  cases l <;> cases op <;> rfl

theorem wf_mkEvex (m : Mode) (vl : VL) (op : Op) (f : EvexForm) : (mkEvex vl op f).wf m = f.wf m op := by
  cases vl <;> cases op <;> rfl

theorem len_mkLegacy (op : Op) (f : LegacyForm) : (mkLegacy op f).len = f.len := by cases op <;> rfl

theorem len_mkVex (l : Bool) (op : Op) (f : VexForm) : (mkVex l op f).len = f.len := by cases l <;> cases op <;> rfl

theorem len_mkEvex (vl : VL) (op : Op) (f : EvexForm) : (mkEvex vl op f).len = f.len := by cases vl <;> cases op <;> rfl

theorem encode_length (i : Instr) : (encode i).length = i.len := by
  induction i using Instr.byClass with
  | legacy op f => rw [encode_mkLegacy, len_mkLegacy, Laws.EncodedLength.legacy_length]
  | vex l op f => rw [encode_mkVex, len_mkVex, Laws.EncodedLength.vex_length]
  | evex vl op f => rw [encode_mkEvex, len_mkEvex, Laws.EncodedLength.evex_length]

/-! ## What well-formedness says, clause by clause (R102, R104, R86, R90, R93) -/

theorem LegacyForm.wf_iff {m : Mode} {f : LegacyForm} :
    f.wf m = true ↔ f.len ≤ maxLength ∧ f.rm.wf (m.addr16 f.legacy.has67) = true ∧ (m = .long64 ∨ f.rex = none) := by
  simp [LegacyForm.wf, and_assoc]

theorem VexForm.wf_iff {m : Mode} {f : VexForm} :
    f.wf m = true ↔ m.realOrV86 = false ∧ f.len ≤ maxLength ∧ f.rm.wf (m.addr16 f.legacy.has67) = true ∧
      (m = .long64 ∨ f.head.narrow = true) := by
  simp [VexForm.wf, and_assoc]

theorem EvexForm.wf_iff {m : Mode} {op : Op} {f : EvexForm} :
    f.wf m op = true ↔ m.realOrV86 = false ∧ f.len ≤ maxLength ∧ f.rm.wf (m.addr16 f.legacy.has67) = true ∧
      (m = .long64 ∨ f.r = false ∧ f.x = false ∧ f.b = false ∧ f.r' = false) ∧ f.maskWf op = true := by
  simp [EvexForm.wf, and_assoc]

theorem Instr.len_le_of_wf {m : Mode} {i : Instr} (h : i.wf m = true) : i.len ≤ maxLength := by
  induction i using Instr.byClass with
  | legacy op f =>
    obtain ⟨hl, -⟩ := LegacyForm.wf_iff.mp (wf_mkLegacy m op f ▸ h)
    rwa [len_mkLegacy]
  | vex l op f =>
    obtain ⟨-, hl, -⟩ := VexForm.wf_iff.mp (wf_mkVex m l op f ▸ h)
    rwa [len_mkVex]
  | evex vl op f =>
    obtain ⟨-, hl, -⟩ := EvexForm.wf_iff.mp (wf_mkEvex m vl op f ▸ h)
    rwa [len_mkEvex]

/-! ## The bytes after the legacy bytes, under any run of legacy bytes (R103 steps 2 and 3) -/

@[simp] theorem opOf_byte (op : Op) : opOf op.byte = some op := by cases op <;> rfl

/-- An encoding from its REX byte or `0FH` on. -/
def LegacyForm.body (op : Op) (f : LegacyForm) : List Byte :=
  (match f.rex with | some x => [x.byte] | none => []) ++ (0x0F :: op.byte :: operandBytes f.reg f.rm)

/-- An encoding from its first VEX byte on. -/
def VexForm.body (l : Bool) (op : Op) (f : VexForm) : List Byte := f.head.bytes l ++ (op.byte :: operandBytes f.reg f.rm)

/-- An encoding from `62H` on. -/
def EvexForm.body (vl : VL) (op : Op) (f : EvexForm) : List Byte := f.head vl ++ (op.byte :: operandBytes f.reg f.rm)

section
variable {m : Mode} {r : LegacyRun} {bs rest : List Byte} {op : Op}

/-- The answer for legacy bytes `r` before a well-formed rest: `simd` where `66H`, `F2H` or `F3H` is among them, else `#UD` for
`F0H`, else the instruction with those bytes as its prefixes (R87). -/
def LegacyRun.verdict (r : LegacyRun) (simd : Reject) (mk : Prefixes → Instr) : Except Reject Instr :=
  if r.simd then .error simd else if r.lock then .error (.ud .lock) else finish r mk

theorem rex_not_legacy (x : Rex) : legacyByte x.byte = none := by
  obtain ⟨w, r, x, b⟩ := x; revert w r x b; decide

theorem rex_ne_0F (x : Rex) : ¬ x.byte = 15#8 := by
  obtain ⟨w, r, x, b⟩ := x; revert w r x b; decide

theorem isRex_rex (x : Rex) : isRex x.byte = true := by
  obtain ⟨w, r, x, b⟩ := x; revert w r x b; decide

theorem rexOf_rex (x : Rex) : rexOf x.byte = x := by
  obtain ⟨w, r, x, b⟩ := x; revert w r x b; decide

theorem decodeLegacy_operands {reg : BitVec 3} {rm : Rm} (h : rm.wf (m.addr16 r.has67) = true) (x : Option Rex) :
    decodeLegacy m r x (op.byte :: (operandBytes reg rm ++ rest)) =
      r.verdict (.refused .notInScope) (fun p => mkLegacy op ⟨p, x, reg, rm⟩) := by
  simp only [decodeLegacy, opOf_byte, readOperands_bytes reg rest h, LegacyRun.verdict]

theorem decodeWindow_legacy {f : LegacyForm} (h : f.wf m = true) (hs : scanLegacy bs = (r, f.body op ++ rest))
    (h67 : r.has67 = f.legacy.has67) :
    decodeWindow m bs = r.verdict (.refused .notInScope) (fun p => mkLegacy op { f with legacy := p }) := by
  obtain ⟨-, hrm, hrex⟩ := LegacyForm.wf_iff.mp h
  rw [← h67] at hrm
  obtain ⟨p, x, reg, rm⟩ := f
  cases x with
  | none => simpa [decodeWindow, hs, LegacyForm.body] using decodeLegacy_operands hrm none
  | some x =>
    have hm : m = .long64 := by simpa using hrex
    simpa [decodeWindow, hs, LegacyForm.body, rex_ne_0F x, hm, isRex_rex, rexOf_rex]
      using decodeLegacy_operands (hm ▸ hrm) (some x)

theorem sharedUd_ones (hm : m.realOrV86 = false) :
    sharedUd m r false 15 = if r.simd then some .simdBefore else if r.lock then some .lock else none := by
  simp [sharedUd, hm]

theorem decodeVex_operands {reg : BitVec 3} {rm : Rm} {head : VexHead} {l : Bool} (hm : m.realOrV86 = false)
    (hn : m = .long64 ∨ head.narrow = true) (h : rm.wf (m.addr16 r.has67) = true) :
    decodeVex m r false head 1 15 l 0 (op.byte :: (operandBytes reg rm ++ rest)) =
      r.verdict (.ud .simdBefore) (fun p => mkVex l op ⟨p, head, reg, rm⟩) := by
  have hb : ¬ (m ≠ .long64 ∧ head.b = true) := by
    rcases hn with rfl | hn
    · simp
    · cases head <;> simp_all [VexHead.narrow, VexHead.b]
  simp only [decodeVex, opOf_byte, readOperands_bytes reg rest h, sharedUd_ones hm, LegacyRun.verdict, if_neg hb]
  cases r.simd <;> cases r.lock <;> simp

/-! ### VEX (R88 to R90) -/

/-- The last VEX byte of a well-formed encoding; `a` is its bit 7, which is the inverted `R` or `W`. -/
def vexLast (a l : Bool) : Byte := BitVec.ofBool a ++ (15#4) ++ BitVec.ofBool l ++ (0#2)

/-- The middle one of three VEX bytes, from its bits 7 to 5. -/
def vexMiddle (a x b : Bool) : Byte := BitVec.ofBool a ++ BitVec.ofBool x ++ BitVec.ofBool b ++ (1#5)

theorem vexLast_fields (a l : Bool) :
    (vexLast a l).getLsbD 7 = a ∧ (vexLast a l).extractLsb' 3 4 = 15 ∧ (vexLast a l).getLsbD 2 = l ∧
      (vexLast a l).extractLsb' 0 2 = 0 ∧ (a = true → field76 (vexLast a l) = 3) := by
  revert a l; decide

theorem vexMiddle_fields (a x b : Bool) :
    (vexMiddle a x b).getLsbD 7 = a ∧ (vexMiddle a x b).getLsbD 6 = x ∧ (vexMiddle a x b).getLsbD 5 = b ∧
      (vexMiddle a x b).extractLsb' 0 5 = 1 ∧ (a = true → x = true → field76 (vexMiddle a x b) = 3) := by
  revert a x b; decide

theorem decodeVex2_bytes {a l : Bool} {t : List Byte} (h : m = .long64 ∨ a = false) :
    decodeVex2 m r false (vexLast (!a) l :: t) = decodeVex m r false (.two a) 1 15 l 0 t := by
  obtain ⟨h7, hv, hl, hpp, hmod⟩ := vexLast_fields (!a) l
  have hm : ¬ (m ≠ .long64 ∧ field76 (vexLast (!a) l) ≠ 3) := by
    rcases h with rfl | rfl
    · exact fun hc => hc.1 rfl
    · exact fun hc => hc.2 (hmod rfl)
  simp only [decodeVex2, if_neg hm, h7, hv, hl, hpp, Bool.not_not]

theorem decodeVex3_bytes {a x b w l : Bool} {t : List Byte} (h : m = .long64 ∨ a = false ∧ x = false) :
    decodeVex3 m r false (vexMiddle (!a) (!x) (!b) :: vexLast w l :: t) =
      decodeVex m r false (.three a x b w) 1 15 l 0 t := by
  obtain ⟨h7, hv, hl, hpp, -⟩ := vexLast_fields w l
  obtain ⟨p7, p6, p5, hmap, hmod⟩ := vexMiddle_fields (!a) (!x) (!b)
  have hm : ¬ (m ≠ .long64 ∧ field76 (vexMiddle (!a) (!x) (!b)) ≠ 3) := by
    rcases h with rfl | ⟨rfl, rfl⟩
    · exact fun hc => hc.1 rfl
    · exact fun hc => hc.2 (hmod rfl rfl)
  simp only [decodeVex3, if_neg hm, h7, hv, hl, hpp, p7, p6, p5, hmap, Bool.not_not]

theorem decodeClass_vex {head : VexHead} {l : Bool} (t : List Byte) (h : m = .long64 ∨ head.narrow = true) :
    ∃ b u, head.bytes l ++ t = b :: u ∧ (b = 0xC5 ∨ b = 0xC4) ∧
      decodeClass m r false b u = decodeVex m r false head 1 15 l 0 t := by
  cases head with
  | two a => exact ⟨_, _, rfl, .inl rfl, decodeVex2_bytes (h.imp_right fun hn => by simpa [VexHead.narrow] using hn)⟩
  | three a x b w =>
    refine ⟨_, _, rfl, .inr rfl, decodeVex3_bytes (h.imp_right fun hn => ?_)⟩
    simp only [VexHead.narrow, Bool.and_eq_true, Bool.not_eq_true'] at hn
    exact hn.1

/-- A byte that is no `0FH` and no REX byte decides the class. -/
theorem decodeWindow_class {b : Byte} {u : List Byte} (hs : scanLegacy bs = (r, b :: u)) (hb : b = 0xC5 ∨ b = 0xC4 ∨ b = 0x62) :
    decodeWindow m bs = decodeClass m r false b u := by
  rcases hb with rfl | rfl | rfl <;> simp [decodeWindow, hs, isRex]

theorem decodeWindow_vex {l : Bool} {f : VexForm} (h : f.wf m = true) (hs : scanLegacy bs = (r, f.body l op ++ rest))
    (h67 : r.has67 = f.legacy.has67) :
    decodeWindow m bs = r.verdict (.ud .simdBefore) (fun p => mkVex l op { f with legacy := p }) := by
  obtain ⟨hm, -, hrm, hn⟩ := VexForm.wf_iff.mp h
  rw [← h67] at hrm
  obtain ⟨b, u, hbu, hb, hcls⟩ := decodeClass_vex (r := r) (l := l) (op.byte :: operandBytes f.reg f.rm ++ rest) hn
  rw [VexForm.body, List.append_assoc, hbu] at hs
  rw [decodeWindow_class hs (by tauto), hcls]
  exact decodeVex_operands hm hn hrm

/-! ### EVEX (R91 to R94) -/

/-- The first payload byte of a well-formed encoding, from its bits 7 to 4. -/
def evexP0 (a x b a' : Bool) : Byte :=
  BitVec.ofBool a ++ BitVec.ofBool x ++ BitVec.ofBool b ++ BitVec.ofBool a' ++ (1#4)

/-- The third payload byte. -/
def evexP2 (z : Bool) (vl : VL) (aaa : BitVec 3) : Byte := BitVec.ofBool z ++ vl.ll ++ (0#1) ++ (1#1) ++ aaa

theorem evexP0_fields (a x b a' : Bool) :
    let p := evexP0 a x b a'
    p.getLsbD 7 = a ∧ p.getLsbD 6 = x ∧ p.getLsbD 5 = b ∧ p.getLsbD 4 = a' ∧ p.extractLsb' 0 2 = 1 ∧
      p.extractLsb' 2 2 = 0 ∧ (a = true → x = true → field76 p = 3) := by
  revert a x b a'; decide

theorem evexP1_fields :
    let p : Byte := 0x7C
    p.getLsbD 7 = false ∧ p.extractLsb' 3 4 = 15 ∧ p.getLsbD 2 = true ∧ p.extractLsb' 0 2 = 0 := by decide

theorem evexP2_fields (z : Bool) (vl : VL) (aaa : BitVec 3) :
    let p := evexP2 z vl aaa
    p.getLsbD 7 = z ∧ evexLength (p.extractLsb' 5 2) = some vl ∧ p.getLsbD 4 = false ∧ p.getLsbD 3 = true ∧
      field20 p = aaa := by
  cases vl <;> revert z aaa <;> decide

/-- The field tests of R104 pass where `z` is well formed. -/
theorem evexFieldUd_none {f : EvexForm} (vl : VL) (h : f.maskWf op = true) :
    evexFieldUd (evexP0 (!f.r) (!f.x) (!f.b) (!f.r')) 0x7C (evexP2 f.z vl f.aaa) op f.rm = none := by
  obtain ⟨-, -, -, -, -, hfix, -⟩ := evexP0_fields (!f.r) (!f.x) (!f.b) (!f.r')
  obtain ⟨hz, -, hb, -, haaa⟩ := evexP2_fields f.z vl f.aaa
  obtain ⟨hw, -, hone, -⟩ := evexP1_fields
  simp only [evexFieldUd, hfix, hz, hb, haaa, hw, hone]
  simp only [EvexForm.maskWf, Bool.or_eq_true, Bool.and_eq_true, Bool.not_eq_true', bne_iff_ne] at h
  rcases h with hz | ⟨ha, hmem⟩
  · simp [hz]
  · have ha : ¬ f.aaa = 0#3 := ha
    simpa [ha] using fun _ => hmem

theorem decodeEvex_operands {f : EvexForm} (vl : VL) (h : f.wf m op = true) (h67 : r.has67 = f.legacy.has67) :
    decodeEvex m r false (evexP0 (!f.r) (!f.x) (!f.b) (!f.r')) 0x7C (evexP2 f.z vl f.aaa)
        (op.byte :: (operandBytes f.reg f.rm ++ rest)) =
      r.verdict (.ud .simdBefore) (fun p => mkEvex vl op { f with legacy := p }) := by
  obtain ⟨hm, -, hrm, hn, hmask⟩ := EvexForm.wf_iff.mp h
  rw [← h67] at hrm
  obtain ⟨a7, a6, a5, a4, hmap, -, -⟩ := evexP0_fields (!f.r) (!f.x) (!f.b) (!f.r')
  obtain ⟨-, hv, -, hpp⟩ := evexP1_fields
  obtain ⟨c7, cl, -, c3, caaa⟩ := evexP2_fields f.z vl f.aaa
  have hext : ¬ (m ≠ .long64 ∧ ((!f.b) = false ∨ (!f.r') = false ∨ true = false)) := by
    rcases hn with rfl | ⟨-, -, hb, hr'⟩
    · exact fun hc => hc.1 rfl
    · simp [hb, hr']
  simp only [decodeEvex, opOf_byte, hmap, hpp, readOperands_bytes f.reg rest hrm, hv, sharedUd_ones hm,
    evexFieldUd_none vl hmask, cl, a7, a6, a5, a4, c7, c3, caaa, if_neg hext, Bool.not_not, LegacyRun.verdict]
  cases r.simd <;> cases r.lock <;> simp

theorem decodeClass_evex {f : EvexForm} (vl : VL) (t : List Byte) (hn : m = .long64 ∨ f.r = false ∧ f.x = false) :
    decodeClass m r false 0x62 ((f.head vl).tail ++ t) =
      decodeEvex m r false (evexP0 (!f.r) (!f.x) (!f.b) (!f.r')) 0x7C (evexP2 f.z vl f.aaa) t := by
  obtain ⟨-, -, -, -, -, -, hmod⟩ := evexP0_fields (!f.r) (!f.x) (!f.b) (!f.r')
  have hm : ¬ (m ≠ .long64 ∧ field76 (evexP0 (!f.r) (!f.x) (!f.b) (!f.r')) ≠ 3) := by
    rcases hn with rfl | ⟨hr, hx⟩
    · exact fun hc => hc.1 rfl
    · exact fun hc => hc.2 (hmod (by simp [hr]) (by simp [hx]))
  exact if_neg hm

theorem decodeWindow_evex {vl : VL} {f : EvexForm} (h : f.wf m op = true) (hs : scanLegacy bs = (r, f.body vl op ++ rest))
    (h67 : r.has67 = f.legacy.has67) :
    decodeWindow m bs = r.verdict (.ud .simdBefore) (fun p => mkEvex vl op { f with legacy := p }) := by
  obtain ⟨-, -, -, hn, -⟩ := EvexForm.wf_iff.mp h
  rw [EvexForm.body, List.append_assoc] at hs
  rw [decodeWindow_class hs (.inr (.inr rfl))]
  exact (decodeClass_evex vl _ (by tauto)).trans (decodeEvex_operands vl h h67)

end

/-! ## Any encoding under any run of legacy bytes -/

/-- An encoding is its legacy bytes and a rest that begins with no legacy byte. Other legacy bytes `r` before that rest, with `67H`
among them just where the encoding has one, make it the same instruction with those bytes, or one that `r` itself forbids. -/
theorem encode_reads {m : Mode} {i : Instr} (h : i.wf m = true) :
    ∃ (p : Prefixes) (b : Byte) (t : List Byte) (mk : Prefixes → Instr) (simd : Reject),
      encode i = p.bytes ++ b :: t ∧ legacyByte b = none ∧ mk p = i ∧
      ∀ bs r rest, scanLegacy bs = (r, b :: t ++ rest) → r.has67 = p.has67 → decodeWindow m bs = r.verdict simd mk := by
  induction i using Instr.byClass with
  | legacy op f =>
    rw [wf_mkLegacy] at h
    obtain ⟨p, _ | x, reg, rm⟩ := f
    · exact ⟨p, 0x0F, _, _, _, (encode_mkLegacy _ _).trans (List.append_assoc _ _ _), by decide, rfl,
        fun _ _ _ => decodeWindow_legacy h⟩
    · exact ⟨p, x.byte, _, _, _, (encode_mkLegacy _ _).trans (List.append_assoc _ _ _), rex_not_legacy x, rfl,
        fun _ _ _ => decodeWindow_legacy h⟩
  | vex l op f =>
    rw [wf_mkVex] at h
    obtain ⟨p, a | ⟨a, x, b, w⟩, reg, rm⟩ := f
    · exact ⟨p, 0xC5, _, _, _, (encode_mkVex _ _ _).trans (List.append_assoc _ _ _), by decide, rfl,
        fun _ _ _ => decodeWindow_vex h⟩
    · exact ⟨p, 0xC4, _, _, _, (encode_mkVex _ _ _).trans (List.append_assoc _ _ _), by decide, rfl,
        fun _ _ _ => decodeWindow_vex h⟩
  | evex vl op f =>
    rw [wf_mkEvex] at h
    exact ⟨f.legacy, 0x62, _, _, _, (encode_mkEvex _ _ _).trans (List.append_assoc _ _ _), by decide, rfl,
      fun _ _ _ => decodeWindow_evex h⟩

/-- The window of 15 bytes holds all of a string that is no longer (R102). -/
theorem take_maxLength {a rest : List Byte} (h : a.length ≤ maxLength) :
    (a ++ rest).take maxLength = a ++ rest.take (maxLength - a.length) := by
  rw [List.take_append, List.take_of_length_le h]

theorem Prefixes.run_verdict (p : Prefixes) (simd : Reject) (mk : Prefixes → Instr) : p.run.verdict simd mk = .ok (mk p) := by
  have hf : finish p.run mk = .ok (mk p) := by rw [finish, Prefixes.run_toPrefixes]
  exact hf

/-- A well-formed instruction is decoded from its encoding, whatever follows (R80, R103). -/
theorem decode_encode {m : Mode} {i : Instr} (h : i.wf m = true) (rest : List Byte) : decode m (encode i ++ rest) = .instr i := by
  obtain ⟨p, b, t, mk, simd, henc, hb, rfl, hwin⟩ := encode_reads h
  have hlen : (encode (mk p)).length ≤ maxLength := encode_length _ ▸ Instr.len_le_of_wf h
  have hs (rest : List Byte) : scanLegacy (encode (mk p) ++ rest) = (p.run, b :: t ++ rest) := by
    rw [henc, List.append_assoc]
    exact scanLegacy_bytes p _ hb
  rw [decode, take_maxLength hlen, hwin _ _ _ (hs _) (Prefixes.run_has67 p), Prefixes.run_verdict]

theorem legacyByte_of_mem {x : Byte} (h : x ∈ [0x26, 0x2E, 0x36, 0x3E, 0x64, 0x65, 0x67, 0xF0]) :
    (legacyByte x).isSome = true := by
  revert x; decide

/-- `F0H` bytes among the legacy bytes of an encoding, of at most 15 bytes with them, make it `#UD` (R87, R104). -/
theorem decode_locked {m : Mode} {i : Instr} {a b : List Byte} (h : i.wf m = true) (hl : lockedFrom (encode i) a b)
    (rest : List Byte) : decode m (a ++ (b ++ rest)) = .invalidOpcode .lock := by
  obtain ⟨p, c, t, mk, simd, henc, hc, -, hwin⟩ := encode_reads h
  obtain ⟨(hlock : 0xF0#8 ∈ a), hbytes, (hab : a.filter (· ≠ 0xF0#8) ++ b = encode i), hlen⟩ := hl
  have hs (rest : List Byte) : scanLegacy (a ++ (b ++ rest)) = ({ p.run with lock := true }, c :: t ++ rest) := by
    have hscan : scanLegacy (a.filter (· ≠ 0xF0#8) ++ (b ++ rest)) = (p.run, c :: t ++ rest) := by
      rw [← List.append_assoc, hab, henc, List.append_assoc]
      exact scanLegacy_bytes p _ hc
    rw [scanLegacy_lock _ fun x hx => legacyByte_of_mem (hbytes x hx), hscan]
    simp [hlock]
  have hlen : (a ++ b).length ≤ maxLength := by rwa [List.length_append]
  rw [decode, ← List.append_assoc, take_maxLength hlen, List.append_assoc,
    hwin _ _ _ (hs _) (Prefixes.run_has67 p)]
  rfl

end Sys2Proof

namespace Sys2Proof.Machine

/-! ## Fetching (R27, R50) -/

/-- Bytes that can be fetched one after another are what the fetch begins with. -/
theorem fetchFrom_append {s : State} {bs : List Byte} {n : Nat} (fuel : Nat)
    (h : ∀ j (hj : j < bs.length), s.fetchable (s.fetchAddr (n + j)) = true ∧ s.byteAt (s.fetchAddr (n + j)) = bs[j]) :
    s.fetchFrom (bs.length + fuel) n = bs ++ s.fetchFrom fuel (n + bs.length) := by
  induction bs generalizing n with
  | nil => simp
  | cons b bs ih =>
    obtain ⟨hf, hb⟩ := h 0 (Nat.zero_lt_succ _)
    have htail : ∀ j (hj : j < bs.length),
        s.fetchable (s.fetchAddr (n + 1 + j)) = true ∧ s.byteAt (s.fetchAddr (n + 1 + j)) = bs[j] := fun j hj => by
      rw [Nat.add_assoc, Nat.add_comm 1]
      exact h (j + 1) (Nat.succ_lt_succ hj)
    rw [Nat.add_zero] at hf hb
    rw [List.length_cons, Nat.add_right_comm, State.fetchFrom, if_pos hf, hb, ih htail, Nat.add_assoc n, Nat.add_comm 1]
    rfl

/-! ## Widths of addresses (R50, R57) -/

theorem low32_eq_modulo (a : Word64) : low32 a = modulo 32 a := by
  apply BitVec.eq_of_toNat_eq
  simp only [low32, modulo, BitVec.toNat_setWidth, BitVec.toNat_ofNat]

theorem low32_lt (a : Word64) : (low32 a).toNat < 2 ^ 32 := by
  simp only [low32, BitVec.toNat_setWidth]
  omega

theorem offset_toNat (s : State) (la : Word64) (b : Nat) :
    (s.offset la b).toNat = (la.toNat + b) % 2 ^ (if s.mode = .long64 then 64 else 32) := by
  rw [State.offset, wrap_toNat, BitVec.toNat_add, BitVec.toNat_ofNat]
  split <;> omega

theorem offset_offset (s : State) (la : Word64) (b c : Nat) : s.offset (s.offset la b) c = s.offset la (b + c) := by
  apply BitVec.eq_of_toNat_eq
  simp only [offset_toNat, Nat.mod_add_mod, Nat.add_assoc]

/-! ## Linear addresses and their faults (R57, R58, R176, R177) -/

theorem addressFault_eq (r : SegReg) : addressFault r = if r = .ss then .stackSegment else .generalProtection := by
  cases r <;> rfl

theorem base64_eq (s : State) (r : SegReg) : s.base64 r = if r = .fs ∨ r = .gs then (s.seg r).base else 0 := by
  cases r <;> rfl

section
variable {s : State} {seg : SegReg} {ea : Word64} {n : Nat} {rw : Access}

theorem linAddr_long64 (hm : s.mode = .long64) :
    s.linAddr seg ea n rw =
      if canonical s.params.laBits (s.base64 seg + ea) then .ok (s.base64 seg + ea) else .error (addressFault seg) := by
  simp only [State.linAddr, hm]

theorem linAddr_realOrV86 (hm : s.mode = .real ∨ s.mode = .v86) :
    s.linAddr seg ea n rw =
      if ea.toNat + n ≤ 0x10000 then .ok (low32 ((s.seg seg).base + ea)) else .error (addressFault seg) := by
  rcases hm with hm | hm <;> simp only [State.linAddr, hm]

theorem linAddr_protected (hm : s.mode = .compat32 ∨ s.mode = .prot32 ∨ s.mode = .prot16) :
    s.linAddr seg ea n rw =
      if (s.seg seg).allows rw ea n then .ok (low32 ((s.seg seg).base + ea)) else .error (addressFault seg) := by
  rcases hm with hm | hm | hm <;> simp only [State.linAddr, hm]

/-- The three ways of R57 and R58 to form a linear address, by mode. -/
theorem mode_cases (m : Mode) :
    m = .long64 ∨ (m = .real ∨ m = .v86) ∨ (m = .compat32 ∨ m = .prot32 ∨ m = .prot16) := by
  cases m <;> decide

theorem ok_of_ite {p : Prop} [Decidable p] {a b : Word64} {f : Fault} (h : (if p then .ok a else .error f) = Except.ok b) :
    b = a := by
  split at h
  · exact (Except.ok.inj h).symm
  · nomatch h

/-- A linear address does not depend on the access or the length: those decide only whether there is one. -/
theorem linAddr_ok {la : Word64} (h : s.linAddr seg ea n rw = .ok la) :
    la = if s.mode = .long64 then s.base64 seg + ea else low32 ((s.seg seg).base + ea) := by
  rcases mode_cases s.mode with hm | hm | hm
  · rw [if_pos hm]
    exact ok_of_ite (linAddr_long64 hm ▸ h)
  · rw [if_neg (by rcases hm with hm | hm <;> simp [hm])]
    exact ok_of_ite (linAddr_realOrV86 hm ▸ h)
  · rw [if_neg (by rcases hm with hm | hm | hm <;> simp [hm])]
    exact ok_of_ite (linAddr_protected hm ▸ h)

theorem allows_iff {g : Segment} :
    g.allows rw ea n = true ↔ g.null = false ∧ ea.toNat + n ≤ g.limit.toNat + 1 ∧
      (rw = .read → g.readable = true) ∧ (rw = .write → g.writable = true) := by
  cases rw <;> simp [Segment.allows, and_assoc]

end

theorem vlBytes_pos (vl : VL) : 0 < vlBytes vl := by cases vl <;> decide

/-- An instruction whose tests pass and whose operand has no linear address raises the address fault. -/
theorem exec_addressFault {i : Instr} {s : State} {seg : SegReg} {ea : Word64} {f : Fault} (hp : (recordOf i s).passes s)
    (hm : (recordOf i s).rm = .mem seg ea)
    (hl : s.linAddr seg ea (vlBytes (recordOf i s).vl) (accessOf (recordOf i s).op) = .error f) : exec i s = .fault f := by
  obtain ⟨k, hk⟩ := exec_address hp hm
  rw [hk, State.address, hl]
  rfl

/-! ## Translation (R59) -/

theorem append_toNat {v w : Nat} (a : BitVec v) (b : BitVec w) : (a ++ b).toNat = a.toNat * 2 ^ w + b.toNat := by
  rw [BitVec.toNat_append, Nat.shiftLeft_eq, Nat.mul_comm, Nat.two_pow_add_eq_or_of_lt b.isLt]

/-- The frame takes the place of `la[63:12]`. -/
theorem phys_of_translate {s : State} {rw : Access} {la : Word64} {frame : BitVec 52} (h : s.translate rw la = some (.ok frame)) :
    s.phys rw la = frame.toNat * 4096 + la.toNat % 4096 := by
  simp only [State.phys, State.phys?, h, Option.getD_some, append_toNat, BitVec.extractLsb'_toNat, Nat.shiftRight_zero]
  rfl

theorem translate_of_pagingOff {s : State} (h : s.pagingOn = false) (rw : Access) (la : Word64) :
    s.translate rw la = some (.ok (pageOf la)) := by
  simp [State.translate, h]

theorem rowFits_iff {s : State} {rw : Access} {la : Word64} {r : TranslateRow} :
    (r.page == pageOf la && r.access == rw && r.cpl == s.cpl) = true ↔ s.rowFits rw la r := by
  simp [State.rowFits, pageOf, and_assoc]

/-- With paging on, the first row that fits answers. -/
theorem translate_of_pagingOn {s : State} (h : s.pagingOn = true) {rw : Access} {la : Word64} {front back : List TranslateRow}
    {r : TranslateRow} (hrows : s.translation = front ++ r :: back) (hfront : ∀ x ∈ front, ¬ s.rowFits rw la x)
    (hr : s.rowFits rw la r) : s.translate rw la = some r.answer := by
  have hfind : s.translation.find? (fun r => r.page == pageOf la && r.access == rw && r.cpl == s.cpl) = some r :=
    List.find?_eq_some_iff_append.mpr ⟨rowFits_iff.mpr hr, front, back, hrows, fun x hx => by
      simpa only [Bool.not_eq_true'] using Bool.eq_false_iff.mpr (mt rowFits_iff.mp (hfront x hx))⟩
  simp only [State.translate, h, if_true, hfind]

theorem translate_eq_none {s : State} (h : s.pagingOn = true) {rw : Access} {la : Word64}
    (hrows : ∀ x ∈ s.translation, ¬ s.rowFits rw la x) : s.translate rw la = none := by
  have hfind : s.translation.find? (fun r => r.page == pageOf la && r.access == rw && r.cpl == s.cpl) = none :=
    List.find?_eq_none.mpr fun x hx => mt rowFits_iff.mp (hrows x hx)
  simp only [State.translate, h, if_true, hfind]

theorem pagingOn_iff {s : State} : s.pagingOn = true ↔ s.cr0.getLsbD 31 = true ∧ s.mode ≠ .real := by
  simp [State.pagingOn, State.pg]

theorem probeByte_notAdmitted {s : State} {la : Word64} (rw : Access) (h : s.admits la = false) :
    s.probeByte rw la = some (.refusal (.notAdmitted la)) := by
  simp [State.probeByte, h]

theorem probeByte_noTranslation {s : State} {rw : Access} {la : Word64} (h : s.admits la = true) (ht : s.translate rw la = none) :
    s.probeByte rw la = some (.refusal (.noTranslation la)) := by
  simp [State.probeByte, h, ht]

theorem probeByte_pageFault {s : State} {rw : Access} {la : Word64} {code : BitVec 32} (h : s.admits la = true)
    (ht : s.translate rw la = some (.pageFault code)) : s.probeByte rw la = some (.fault (.pageFault code la)) := by
  simp [State.probeByte, h, ht]

/-! ## Stores over the program text (R68) -/

/-- The address of a byte of the text is recognised, also past the top of linear space. -/
theorem textHolds_offset {s : State} {n : Nat} (h : n < s.text.size) :
    s.textHolds (s.offset (BitVec.ofNat 64 s.text.base) n) = true := by
  have hle : (s.wrap (s.offset (BitVec.ofNat 64 s.text.base) n - BitVec.ofNat 64 s.text.base)).toNat ≤ n := by
    rw [wrap_toNat, BitVec.toNat_sub, offset_toNat]
    have hb := (BitVec.ofNat 64 s.text.base).isLt
    generalize (BitVec.ofNat 64 s.text.base).toNat = base at hb
    split <;> omega
  exact decide_eq_true (Nat.lt_of_le_of_lt hle h)

theorem overText_of_byte {s : State} {la : Word64} {kl b : Nat} {sel : Nat → Bool} (hb : b < 4 * kl) (hs : sel (b / 4) = true)
    (ht : s.textHolds (s.offset la b) = true) : s.overText la kl sel = true :=
  List.any_eq_true.mpr ⟨b, mem_touched.mpr ⟨hb, hs⟩, by simp [State.inText, ht]⟩

/-! ## Displacements scaled by the operand's bytes (R53, R99) -/

theorem vlBytes_dvd (vl : VL) : vlBytes vl ∣ 2 ^ 16 := by cases vl <;> decide

section
variable {n : Nat} (h : n ∣ 2 ^ 16)
include h

theorem narrow_toNat_mod (z : AddrSize) (a : Word64) : (narrow z a).toNat % n = a.toNat % n := by
  have h32 : n ∣ 2 ^ 32 := h.trans (Nat.pow_dvd_pow 2 (by decide))
  have h64 : n ∣ 2 ^ 64 := h.trans (Nat.pow_dvd_pow 2 (by decide))
  cases z <;> simp only [narrow, low32, BitVec.toNat_setWidth, Nat.mod_mod_of_dvd _ h, Nat.mod_mod_of_dvd _ h32,
    Nat.mod_mod_of_dvd _ h64]

theorem add_scaled_toNat_mod (a d : Word64) : (a + d * BitVec.ofNat 64 n).toNat % n = a.toNat % n := by
  have h64 : n ∣ 2 ^ 64 := h.trans (Nat.pow_dvd_pow 2 (by decide))
  have hd : n ∣ (d * BitVec.ofNat 64 n).toNat := by
    rw [BitVec.toNat_mul, BitVec.toNat_ofNat]
    exact (Nat.dvd_mod_iff h64).mpr (Dvd.dvd.mul_left ((Nat.dvd_mod_iff h64).mpr dvd_rfl) _)
  rw [BitVec.toNat_add, Nat.mod_mod_of_dvd _ h64, Nat.add_mod, Nat.mod_eq_zero_of_dvd hd, Nat.add_zero, Nat.mod_mod]

end

/-! ## Loads of what was stored (R52, R65) -/

theorem elemAt_eq_elem {s : State} {la : Word64} {v : Vec} {j : Nat}
    (h : ∀ b, b < 4 * (j + 1) → s.byteAt (s.offset la b) = byteOf v b) : s.elemAt (s.offset la (4 * j)) = elem v j := by
  simp only [State.elemAt, offset_offset, elem_eq_bytes]
  rw [h _ (by omega), h _ (by omega), h _ (by omega), h _ (by omega)]

/-- A whole operand whose bytes are those of a vector is loaded as that vector. -/
theorem vexValue_gather {s : State} {la : Word64} {sel : Nat → Bool} {old v : Vec} (hsel : ∀ j, sel j = true)
    (h : ∀ b, b < 64 → s.byteAt (s.offset la b) = byteOf v b) : vexValue .v512 old (s.gather la 16 sel) = v := by
  refine vec_ext fun j hj => ?_
  have hj' : j < vlElems .v512 := hj
  rw [elem_vexValue, if_pos hj', elem_gather _ _ _ _ (le_refl 16) hj (hsel j)]
  exact elemAt_eq_elem fun b hb => h b (by omega)

/-- A stored byte is read back where `Translate` answers the read as it answered the write. -/
theorem byteAt_scatter {s : State} {la : Word64} {kl b len : Nat} {sel : Nat → Bool} {src : Vec} (hm : s.mem.wf = true)
    (hk : kl ≤ 16) (hp : s.probe .write ((s.tested kl sel).map (s.offset la)) = none)
    (ht : s.translate .read (s.offset la b) = s.translate .write (s.offset la b)) (hb : b < 4 * kl) (hs : sel (b / 4) = true) :
    ((s.scatter la kl sel src).advance len).byteAt (s.offset la b) = byteOf src b := by
  have hphys : s.phys .read (s.offset la b) = s.phys .write (s.offset la b) := by simp only [State.phys, State.phys?, ht]
  have hread : ((s.scatter la kl sel src).advance len).byteAt (s.offset la b) =
      (s.scatter la kl sel src).mem.read (s.phys .read (s.offset la b)) := rfl
  rw [hread, hphys]
  exact read_scatter hm hk (fun c hc hsc => probe_tested.mp hp c hc (.inl hsc)) hb hs

/-! ## Empty masks (R60) -/

section
variable {r : Record} {s : State} (h : ∀ j, j < vlElems r.vl → r.sel s j = false)
include h

theorem accessible_of_emptyMask (hf : s.params.faultSuppression = true) (rw : Access) (la : Word64) : s.accessible r rw la := by
  intro b hb hs
  have hj : b / 4 < vlElems r.vl := Nat.div_lt_of_lt_mul hb
  simp [h _ hj, hf] at hs

theorem touched_of_emptyMask : touched (vlElems r.vl) (r.sel s) = [] :=
  List.filter_eq_nil_iff.mpr fun b hb => by
    have hj : b / 4 < vlElems r.vl := Nat.div_lt_of_lt_mul (List.mem_range.mp hb)
    simp [h _ hj]

end

/-! ## Another privilege level (R188; D29, log 20) -/

/-- The state at another privilege level. -/
def State.atLevel (c : BitVec 2) (s : State) : State := { s with cpl := c }

section
variable {c : BitVec 2} {s : State}

theorem tests_atLevel {r : Record} {k k' : Outcome} (hk : k' = onNext (State.atLevel c) k) :
    r.tests (s.atLevel c) k' = onNext (State.atLevel c) (r.tests s k) := by
  have hu : r.ud (s.atLevel c) = r.ud s := rfl
  have ht : (s.atLevel c).ts = s.ts := rfl
  simp only [Record.tests, hu, ht, hk]
  split_ifs <;> rfl

theorem address_atLevel {seg : SegReg} {ea : Word64} {n : Nat} {rw : Access} {k k' : Word64 → Outcome}
    (hk : ∀ la, k' la = onNext (State.atLevel c) (k la)) :
    (s.atLevel c).address seg ea n rw k' = onNext (State.atLevel c) (s.address seg ea n rw k) := by
  have hl : (s.atLevel c).linAddr seg ea n rw = s.linAddr seg ea n rw := rfl
  have ha : (s.atLevel c).aligned = s.aligned := rfl
  simp only [State.address, hl, ha, hk]
  split
  · rfl
  · split_ifs <;> rfl

variable (h : ∀ rw la, (s.atLevel c).translate rw la = s.translate rw la)
include h

theorem phys?_atLevel (rw : Access) (la : Word64) : (s.atLevel c).phys? rw la = s.phys? rw la := by
  rw [State.phys?, State.phys?, h]

theorem phys_atLevel (rw : Access) (la : Word64) : (s.atLevel c).phys rw la = s.phys rw la := by
  rw [State.phys, State.phys, phys?_atLevel h]

theorem probe_atLevel (rw : Access) (las : List Word64) : (s.atLevel c).probe rw las = s.probe rw las := by
  have hb (la : Word64) : (s.atLevel c).probeByte rw la = s.probeByte rw la := by
    rw [State.probeByte, State.probeByte, h]
    rfl
  induction las with
  | nil => rfl
  | cons la las ih => rw [State.probe, State.probe, hb, ih]

theorem gather_atLevel (la : Word64) (kl : Nat) (sel : Nat → Bool) : (s.atLevel c).gather la kl sel = s.gather la kl sel := by
  have hb (la : Word64) : (s.atLevel c).byteAt la = s.byteAt la := by rw [State.byteAt, State.byteAt, phys_atLevel h]; rfl
  have ho : (s.atLevel c).offset = s.offset := rfl
  simp only [State.gather, State.elemAt, hb, ho]

theorem overText_atLevel (la : Word64) (kl : Nat) (sel : Nat → Bool) : (s.atLevel c).overText la kl sel = s.overText la kl sel := by
  have ho : (s.atLevel c).offset = s.offset := rfl
  have ha : (s.atLevel c).textAddr = s.textAddr := rfl
  have hh : (s.atLevel c).textHolds = s.textHolds := rfl
  have ht : (s.atLevel c).text = s.text := rfl
  simp only [State.overText, State.inText, State.textPhys, phys?_atLevel h, phys_atLevel h, ho, ha, hh, ht]

theorem scatter_atLevel (la : Word64) (kl : Nat) (sel : Nat → Bool) (src : Vec) :
    (s.atLevel c).scatter la kl sel src = (s.scatter la kl sel src).atLevel c := by
  have ho : (s.atLevel c).offset = s.offset := rfl
  simp only [State.scatter, State.storeCells, phys_atLevel h, ho]
  rfl

theorem load_atLevel {la : Word64} {kl : Nat} {sel : Nat → Bool} {k k' : Vec → Outcome}
    (hk : ∀ v, k' v = onNext (State.atLevel c) (k v)) :
    (s.atLevel c).load la kl sel k' = onNext (State.atLevel c) (s.load la kl sel k) := by
  have ht : (s.atLevel c).tested = s.tested := rfl
  have ho : (s.atLevel c).offset = s.offset := rfl
  simp only [State.load, ht, ho, probe_atLevel h, gather_atLevel h, hk]
  split
  · exact (onNext_stop _ _).symm
  · rfl

theorem store_atLevel {la : Word64} {kl : Nat} {sel : Nat → Bool} {src : Vec} {k k' : State → Outcome}
    (hk : ∀ t : State, k' (t.atLevel c) = onNext (State.atLevel c) (k t)) :
    (s.atLevel c).store la kl sel src k' = onNext (State.atLevel c) (s.store la kl sel src k) := by
  have ht : (s.atLevel c).tested = s.tested := rfl
  have ho : (s.atLevel c).offset = s.offset := rfl
  simp only [State.store, ht, ho, probe_atLevel h, overText_atLevel h, scatter_atLevel h, hk]
  split
  · exact (onNext_stop _ _).symm
  · split_ifs <;> rfl

/-- The tests and address formation read no level; an access reads it through `Translate` alone. -/
theorem move_atLevel (r : Record) : r.move (s.atLevel c) = onNext (State.atLevel c) (r.move s) := by
  have hval : r.value (s.atLevel c) = r.value s := rfl
  rw [Record.move, Record.move, hval]
  cases r.op
  case load28 =>
    refine tests_atLevel ?_
    cases r.rm with
    | reg n => rfl
    | mem seg ea => exact address_atLevel fun la => load_atLevel h fun v => rfl
    | refused16 => rfl
  case store29 =>
    refine tests_atLevel ?_
    cases r.rm with
    | reg n => rfl
    | mem seg ea => exact address_atLevel fun la => store_atLevel h fun t => rfl
    | refused16 => rfl

end

/-! ## The statements -/

/-- Settles O13: what is fetched begins with the encoding, which decodes whatever follows. -/
theorem stepRunsEncodingAtPc : Obligations.StepRunsEncodingAtPc := by
  intro s i hwf hd h
  have hlen : (encode i).length ≤ maxLength := encode_length i ▸ Instr.len_le_of_wf hwf
  have hfetch : s.fetch = encode i ++ s.fetchFrom (maxLength - (encode i).length) (0 + (encode i).length) := by
    rw [State.fetch, ← fetchFrom_append _ (by simpa using h), Nat.add_sub_of_le hlen]
  have hdec : decode s.mode s.fetch = .instr i := hfetch ▸ decode_encode hwf _
  simp [step, hd, hdec]

/-- Settles O6: the legacy bytes before a well-formed rest are read the same but for the lock. -/
theorem lockedMoveIsInvalidOpcode : Obligations.LockedMoveIsInvalidOpcode := fun _ _ _ _ rest hwf hl =>
  decode_locked hwf hl rest

/-- Settles O38: address formation ends with the alignment test, for either address it may read. -/
theorem misalignedOperandFaults : Obligations.MisalignedOperandFaults := by
  refine ⟨rfl, rfl, rfl, ?_⟩
  intro i s seg ea la r hp hm hl hmis
  obtain ⟨k, hk⟩ := exec_address hp hm
  have hal : s.aligned la ea (vlBytes r.vl) = false := beq_eq_false_iff_ne.mpr hmis
  rw [hk, State.address, hl]
  exact if_neg (Bool.eq_false_iff.mp hal)

/-- Settles O39: the canonical test fails. -/
theorem nonCanonicalOperandFaults : Obligations.NonCanonicalOperandFaults := by
  intro i s seg ea r la hp hmode hm htop
  refine exec_addressFault hp hm ?_
  rw [linAddr_long64 hmode, base64_eq, if_neg (mt (canonical_iff _ _).mp htop), addressFault_eq]

/-- Settles O40: the segment checks fail, in Real and V86 mode by the limit alone. -/
theorem segmentViolationFaults : Obligations.SegmentViolationFaults := by
  intro i s seg ea
  dsimp only
  intro hp hm hv
  refine exec_addressFault hp hm ?_
  have hpos := vlBytes_pos (recordOf i s).vl
  rw [← addressFault_eq]
  rcases hv with ⟨hmode, hlim⟩ | ⟨hmode, hv⟩
  · rw [linAddr_realOrV86 hmode, if_neg (by omega)]
  · rw [linAddr_protected hmode, if_neg fun ha => ?_]
    obtain ⟨hnull, hlim, hrd, hwr⟩ := allows_iff.mp ha
    rcases hv with hn | hn | ⟨hop, hn⟩ | ⟨hop, hn⟩
    · simp [hnull] at hn
    · omega
    · simp [hrd (by rw [hop]; rfl)] at hn
    · simp [hwr (by rw [hop]; rfl)] at hn

/-- Settles O41: the probe of the access stops at the byte whose answer is a page fault. -/
theorem pageFaultNamesFirstByte : Obligations.PageFaultNamesFirstByte :=
  fun _ _ _ _ _ hp hm hc ha ht => exec_stop hp hm hc (probeByte_pageFault ha ht)

/-- Settles O43: a byte outside the address map stops the probe before `Translate` is asked. -/
theorem outsideAddressMapIsRefused : Obligations.OutsideAddressMapIsRefused :=
  fun _ _ _ _ hp hm hc ha => exec_stop hp hm hc (probeByte_notAdmitted _ ha)

/-- Settles O44: an admitted byte without an answer stops the probe. -/
theorem missingTranslationIsRefused : Obligations.MissingTranslationIsRefused :=
  fun _ _ _ _ hp hm hc ha ht => exec_stop hp hm hc (probeByte_noTranslation ha ht)

/-- Settles O45: the store's bytes can all be accessed, and one of them is of the text. -/
theorem storeOverTextIsRefused : Obligations.StoreOverTextIsRefused := by
  intro i s la b n r hp hop hm hacc hb hsel hn hoff
  have ho : s.overText la (vlElems r.vl) (r.sel s) = true := overText_of_byte hb hsel (hoff ▸ textHolds_offset hn)
  rcases exec_access hp (by rw [hop]; exact hm) with ⟨-, hload, -, -⟩ | ⟨-, hk⟩
  · simp [r, hload] at hop
  · rw [hk, State.store, probe_tested.mpr hacc]
    simp [ho, r]

/-- Settles O42: nothing is asked for and nothing is stored; a load blends with nothing selected. -/
theorem emptyMaskNeedsNoPage : Obligations.EmptyMaskNeedsNoPage := by
  intro i s la r hp hcls hf hmask hm
  have hacc (rw : Access) : s.accessible r rw la := accessible_of_emptyMask hmask hf rw la
  refine ⟨fun hop => ?_, fun hop => ?_⟩
  · have htouched := touched_of_emptyMask hmask
    rcases exec_access hp hm with ⟨-, hload, -, -⟩ | ⟨-, hk⟩
    · simp [r, hload] at hop
    · have hover : s.overText la (vlElems r.vl) (r.sel s) = false := by rw [State.overText, htouched]; rfl
      have hscatter (src : Vec) : s.scatter la (vlElems r.vl) (r.sel s) src = s := by
        rw [State.scatter, State.storeCells, htouched]; rfl
      rw [hk, store_ok _ (probe_tested.mpr (hacc .write)) hover, hscatter]
      rfl
  · have hval : r.value s = blend r.vl (r.sel s) r.z := by rw [Record.value, hcls]; rfl
    rw [hop] at hm
    obtain ⟨-, hload⟩ := loadForm_completes (value := r.value s) hp
    have hexec : exec i s = loadForm (r.value s) r s := by
      rw [exec_eq_move, Record.move, show (recordOf i s).op = .load28 from hop]
    refine ⟨r.value s (s.vec r.reg) (s.gather la (vlElems r.vl) (r.sel s)), fun j hj => ?_,
      hexec.trans (hload la hm (hacc .read))⟩
    rw [hval, elem_blend]
    by_cases hj : j < vlElems r.vl
    · cases hz : r.z <;> simp [hj, hmask j hj]
    · simp [hj]

/-- Settles O51: the scaled displacement is a multiple of the operand's bytes, which divide 2 to every address size. -/
theorem evexDisp8KeepsAlignment : Obligations.EvexDisp8KeepsAlignment := by
  intro s e p vl len d rm sc ix b
  have keep (a : Word64) : (narrow (addrSize s.mode p.has67) (a + sext64 d * BitVec.ofNat 64 (vlBytes vl))).toNat % vlBytes vl =
      (narrow (addrSize s.mode p.has67) (a + 0#64)).toNat % vlBytes vl := by
    rw [narrow_toNat_mod (vlBytes_dvd vl), narrow_toNat_mod (vlBytes_dvd vl), add_scaled_toNat_mod (vlBytes_dvd vl), BitVec.add_zero]
  exact ⟨keep _, keep _, keep _⟩

/-- Settles O32: the load reads each stored byte back, and without a mask it takes every element. -/
theorem storeThenLoadGivesTheVectorBack : Obligations.StoreThenLoadGivesTheVectorBack := by
  intro f g s t u seg ea hwf hf hg htr hrm hrm' hstore hload
  have hself : ∀ j, (evexRecord .v512 .store29 f s).sel s j = true := sel_of_noMask hf s
  have hselg : ∀ j, (evexRecord .v512 .load28 g t).sel t j = true := sel_of_noMask hg t
  obtain ⟨-, -, -, ⟨n, hn, -⟩ | ⟨seg₁, ea₁, la, hm, hla, -, hp, -, ht⟩⟩ := storeForm_next hstore
  · exact absurd (hn.symm.trans hrm) nofun
  obtain ⟨-, -, -, ⟨n, hn, -⟩ | ⟨seg₂, ea₂, la', hm', hla', -, -, rfl⟩⟩ := loadForm_next hload
  · exact absurd (hn.symm.trans hrm') nofun
  obtain ⟨rfl, rfl⟩ := RmOperand.mem.inj (hm.symm.trans hrm)
  obtain ⟨rfl, rfl⟩ := RmOperand.mem.inj (hm'.symm.trans hrm')
  have hsame : la' = la := by
    rw [linAddr_ok hla, linAddr_ok hla', ht]
    rfl
  subst hsame
  have hbytes : ∀ b, b < 64 → t.byteAt (t.offset la' b) = byteOf (s.vec (evexRecord .v512 .store29 f s).reg) b := fun b hb => by
    rw [ht]
    exact byteAt_scatter hwf (vlElems_le _) hp (htr la' hla b hb) hb (hself _)
  rw [State.vec_advance, State.vec_setVec_self, evexValue, blend_all _ _ _ _ _ hselg]
  exact vexValue_gather hselg hbytes

/-- Settles O23: while paging is off `Translate` answers every level alike. -/
theorem privilegeLevelIsNotTested : Obligations.PrivilegeLevelIsNotTested := by
  intro i s c h
  have htr (rw : Access) (la : Word64) : (s.atLevel c).translate rw la = s.translate rw la := by
    cases hp : s.pagingOn
    · rw [translate_of_pagingOff hp, translate_of_pagingOff (s := s.atLevel c) hp]
    · exact h hp rw la
  have hrec : recordOf i (s.atLevel c) = recordOf i s := by cases i <;> rfl
  have hexec : exec i (s.atLevel c) = onNext (State.atLevel c) (exec i s) := by
    rw [exec_eq_move, exec_eq_move, hrec, move_atLevel htr]
  exact hexec

/-- Settles O55: the branches of `linAddr` where their tests pass, and the width of each sum. -/
theorem linearAddressOfAnOperand : Obligations.LinearAddressOfAnOperand := by
  intro s seg ea la n b rw g
  refine ⟨fun hm => ⟨fun htop => ?_, ?_⟩, fun hm hlim => ?_, fun hm hnull hlim hrd hwr => ?_, fun hm => ⟨?_, ?_, fun hl => ?_⟩⟩
  · rw [linAddr_long64 hm, base64_eq, if_pos ((canonical_iff _ _).mpr htop)]
  · rw [offset_toNat, if_pos hm]
  · rw [linAddr_realOrV86 hm, if_pos hlim, low32_eq_modulo]
  · rw [linAddr_protected hm, if_pos (allows_iff.mpr ⟨hnull, hlim, hrd, hwr⟩), low32_eq_modulo]
  · rw [offset_toNat, if_neg hm]
  · rw [State.fetchAddr, if_neg hm]
    exact low32_lt _
  · rw [linAddr_ok hl, if_neg hm]
    exact low32_lt _

/-- Settles O56: paging off, the first row that fits, and no row that fits. -/
theorem translateIsTheOracle : Obligations.TranslateIsTheOracle := by
  intro s rw la
  refine ⟨fun hoff => ?_, fun hpg hmode => ?_⟩
  · have ht : s.translate rw la = some (.ok (pageOf la)) :=
      translate_of_pagingOff (Bool.eq_false_iff.mpr fun h => by
        obtain ⟨hpg, hmode⟩ := pagingOn_iff.mp h
        rcases hoff with h0 | hreal
        · exact Bool.false_ne_true (h0.symm.trans hpg)
        · exact hmode hreal) rw la
    refine ⟨ht, (phys_of_translate ht).trans ?_⟩
    simp only [pageOf, BitVec.extractLsb'_toNat]
    omega
  · have hon := pagingOn_iff.mpr ⟨hpg, hmode⟩
    refine ⟨fun front r back hrows hfront hr => ?_, fun hrows hadm => ?_⟩
    · have ht := translate_of_pagingOn hon hrows hfront hr
      exact ⟨ht, fun frame hf => phys_of_translate (hf ▸ ht)⟩
    · have ht := translate_eq_none hon hrows
      exact ⟨ht, probeByte_noTranslation hadm ht⟩

/-- Settles O57: the bits of a field of a vector, and four bytes joined. -/
theorem elementsAreLittleEndian : Obligations.ElementsAreLittleEndian := by
  intro s la v j
  refine ⟨fun i hi => getLsbD_byteOf v j i hi, fun i hi => by simp [elem, hi], ?_⟩
  simp only [State.elemAt, State.byteAt, append_toNat]
  omega

end Sys2Proof.Machine

/-! # The encoding: what decodes, what does not, and the operands an encoding names

The decoder read backwards, class by class; then bytes put before an encoding and fields that raise `#UD`; then records, tests and
addresses; then the statements. -/

namespace Sys2Proof

/-! ## What the readers of operands accept (R84, R85, R95 to R99) -/

theorem byte233_fields (m : Byte) : byte233 (field76 m) (field53 m) (field20 m) = m := by
  revert m; decide

theorem bytes16_word16 (b0 b1 : Byte) : bytes16 (word16 b0 b1) = [b0, b1] := by
  simp only [bytes16, List.cons.injEq, ← BitVec.toNat_inj, BitVec.extractLsb'_toNat, word16, Machine.append_toNat,
    Nat.shiftRight_eq_div_pow]
  refine ⟨?_, ?_, trivial⟩ <;> omega

theorem bytes32_word32 (b0 b1 b2 b3 : Byte) : bytes32 (word32 b0 b1 b2 b3) = [b0, b1, b2, b3] := by
  simp only [bytes32, List.cons.injEq, ← BitVec.toNat_inj, BitVec.extractLsb'_toNat, word32, Machine.append_toNat,
    Nat.shiftRight_eq_div_pow]
  refine ⟨?_, ?_, ?_, ?_, trivial⟩ <;> omega

/-- The last of the four values of `mod`. -/
theorem mod_eq_two {md : BitVec 2} (h0 : md ≠ 0) (h1 : md ≠ 1) (h3 : md ≠ 3) : md = 2 := by
  revert md; decide

section
variable {md : BitVec 2} (hmd : md ≠ 3) {rm : BitVec 3} {bs : List Byte} {f : MemForm} (reg : BitVec 3)
include hmd

theorem readDisp_some {d : Disp} (h : readDisp md bs = some d) : d.md = md ∧ ∃ rest, bs = d.bytes ++ rest := by
  unfold readDisp at h
  split_ifs at h with h0 h1
  · obtain rfl := Option.some.inj h
    exact ⟨h0.symm, bs, rfl⟩
  · split at h
    · obtain rfl := Option.some.inj h
      exact ⟨h1.symm, _, rfl⟩
    · nomatch h
  · split at h
    · obtain rfl := Option.some.inj h
      exact ⟨(mod_eq_two h0 h1 hmd).symm, _, by rw [Disp.bytes, bytes32_word32]; rfl⟩
    · nomatch h

theorem readDisp16_some {d : Disp16} (h : readDisp16 md bs = some d) : d.md = md ∧ ∃ rest, bs = d.bytes ++ rest := by
  unfold readDisp16 at h
  split_ifs at h with h0 h1
  · obtain rfl := Option.some.inj h
    exact ⟨h0.symm, bs, rfl⟩
  · split at h
    · obtain rfl := Option.some.inj h
      exact ⟨h1.symm, _, rfl⟩
    · nomatch h
  · split at h
    · obtain rfl := Option.some.inj h
      exact ⟨(mod_eq_two h0 h1 hmd).symm, _, by rw [Disp16.bytes, bytes16_word16]; rfl⟩
    · nomatch h

theorem readSib_some (h : readSib md bs = some f) :
    f.wf false = true ∧ ∃ rest, byte233 md reg 4 :: bs = operandBytes reg (.mem f) ++ rest := by
  unfold readSib at h
  split at h
  · nomatch h
  rename_i s t
  split_ifs at h with h5
  · obtain ⟨rfl, hbase⟩ := h5
    split at h
    · obtain rfl := Option.some.inj h
      exact ⟨rfl, _, by rw [operandBytes, bytes32_word32, ← hbase, byte233_fields]; rfl⟩
    · nomatch h
  · split at h
    · next d hd =>
      obtain rfl := Option.some.inj h
      obtain ⟨hdm, u, rfl⟩ := readDisp_some hmd hd
      have h5' : ¬ (field20 s = 5 ∧ d = .none) := fun ⟨hb, hn⟩ => h5 ⟨hdm ▸ Disp.md_eq_zero.mpr hn, hb⟩
      exact ⟨by simpa [MemForm.wf, imp_iff_not_or] using h5', u, by rw [operandBytes, hdm, byte233_fields]; rfl⟩
    · nomatch h

theorem readMem_some (h : readMem md rm bs = some f) :
    f.wf false = true ∧ ∃ rest, byte233 md reg rm :: bs = operandBytes reg (.mem f) ++ rest := by
  unfold readMem at h
  split_ifs at h with h4 h5
  · exact h4 ▸ readSib_some hmd reg h
  · obtain ⟨rfl, rfl⟩ := h5
    split at h
    · obtain rfl := Option.some.inj h
      exact ⟨rfl, _, by rw [operandBytes, bytes32_word32]; rfl⟩
    · nomatch h
  · split at h
    · next d hd =>
      obtain rfl := Option.some.inj h
      obtain ⟨hdm, u, rfl⟩ := readDisp_some hmd hd
      have h4 : ¬ rm = 4#3 := h4
      have h5' : ¬ (rm = 5 ∧ d = .none) := fun ⟨hr, hn⟩ => h5 ⟨hdm ▸ Disp.md_eq_zero.mpr hn, hr⟩
      exact ⟨by simpa [MemForm.wf, h4, imp_iff_not_or] using h5', u, by rw [operandBytes, hdm]; rfl⟩
    · nomatch h

theorem readMem16_some (h : readMem16 md rm bs = some f) :
    f.wf true = true ∧ ∃ rest, byte233 md reg rm :: bs = operandBytes reg (.mem f) ++ rest := by
  unfold readMem16 at h
  split_ifs at h with h6
  · obtain ⟨rfl, rfl⟩ := h6
    split at h
    · obtain rfl := Option.some.inj h
      exact ⟨rfl, _, by rw [operandBytes, bytes16_word16]; rfl⟩
    · nomatch h
  · split at h
    · next d hd =>
      obtain rfl := Option.some.inj h
      obtain ⟨hdm, u, rfl⟩ := readDisp16_some hmd hd
      have h6' : ¬ (rm = 6 ∧ d = .none) := fun ⟨hr, hn⟩ => h6 ⟨hdm ▸ Disp16.md_eq_zero.mpr hn, hr⟩
      exact ⟨by simpa [MemForm.wf, imp_iff_not_or] using h6', u, by rw [operandBytes, hdm]; rfl⟩
    · nomatch h

end

/-- Operands that are read are well formed, and their bytes stood there. -/
theorem readOperands_some {addr16 : Bool} {bs : List Byte} {reg : BitVec 3} {rm : Rm}
    (h : readOperands addr16 bs = some (reg, rm)) : rm.wf addr16 = true ∧ ∃ rest, bs = operandBytes reg rm ++ rest := by
  unfold readOperands at h
  split at h
  · nomatch h
  rename_i m t
  split at h
  · next h3 =>
    obtain ⟨rfl, rfl⟩ := Prod.mk.inj (Option.some.inj h)
    exact ⟨rfl, t, by rw [operandBytes, ← h3, byte233_fields]; rfl⟩
  · next h3 =>
    split at h
    · next f hf =>
      obtain ⟨rfl, rfl⟩ := Prod.mk.inj (Option.some.inj h)
      cases addr16
      · simpa only [byte233_fields, Rm.wf] using readMem_some h3 (field53 m) hf
      · simpa only [byte233_fields, Rm.wf] using readMem16_some h3 (field53 m) hf
    · nomatch h

/-! ## What the scan of the legacy bytes remembers (R87) -/

/-- The bytes a run of segment overrides and `67H` was read from. -/
def LegacyRun.bytes (r : LegacyRun) : List Byte :=
  List.replicate r.before67 0x67 ++ r.overrides.flatMap fun o => o.1.byte :: List.replicate o.2 0x67

theorem legacyByte_eq_seg {b : Byte} {s : SegReg} (h : legacyByte b = some (.seg s)) : b = s.byte := by
  revert b; cases s <;> decide

theorem legacyByte_eq_addr {b : Byte} (h : legacyByte b = some .addr) : b = 0x67 := by
  revert b; decide

/-- Legacy bytes without `F0H`, `66H`, `F2H` and `F3H` can be written again from what is remembered of them. -/
theorem scanLegacy_split {bs : List Byte} (hlock : (scanLegacy bs).1.lock = false) (hsimd : (scanLegacy bs).1.simd = false) :
    bs = (scanLegacy bs).1.bytes ++ (scanLegacy bs).2 := by
  induction bs with
  | nil => rfl
  | cons b bs ih =>
    unfold scanLegacy at hlock hsimd ⊢
    cases hb : legacyByte b with
    | none => rfl
    | some l =>
      rw [hb] at hlock hsimd
      cases l with
      | seg s =>
        conv_lhs => rw [legacyByte_eq_seg hb, ih hlock hsimd]
        simp [LegacyRun.cons, LegacyRun.bytes]
      | addr =>
        conv_lhs => rw [legacyByte_eq_addr hb, ih hlock hsimd]
        simp [LegacyRun.cons, LegacyRun.bytes, List.replicate_succ]
      | lock => nomatch hlock
      | simd => nomatch hsimd

theorem Prefixes.run_bytes (p : Prefixes) : p.run.bytes = p.bytes := by
  obtain ⟨n, _ | ⟨s, k⟩⟩ := p <;> simp [Prefixes.run, LegacyRun.bytes, Prefixes.bytes]

theorem toPrefixes_some {r : LegacyRun} {p : Prefixes} (h : r.toPrefixes = some p) (hlock : r.lock = false) (hsimd : r.simd = false) :
    r = p.run := by
  obtain ⟨n, _ | ⟨o, _ | _⟩, lock, simd⟩ := r
  · obtain rfl := Option.some.inj h
    simp_all [Prefixes.run]
  · obtain rfl := Option.some.inj h
    simp_all [Prefixes.run]
  · nomatch h

/-! ## What each class accepts (R86 to R94, R103) -/

theorem opOf_some {b : Byte} {op : Op} (h : opOf b = some op) : b = op.byte := by
  revert b; cases op <;> decide

/-- `bs` begins with the encoding of `i` after its legacy bytes, `r` is what those are read as, and `i` is well formed but
perhaps for its length. -/
def Instr.ReadFrom (i : Instr) (m : Mode) (r : LegacyRun) (bs : List Byte) : Prop :=
  (i.len ≤ maxLength → i.wf m = true) ∧
    ∃ p body rest, r = Prefixes.run p ∧ bs = body ++ rest ∧ encode i = p.bytes ++ body

/-- The REX byte of a legacy encoding, where it has one (R86). -/
def rexBytes : Option Rex → List Byte
  | some x => [x.byte]
  | none => []

theorem LegacyForm.body_eq (op : Op) (f : LegacyForm) :
    f.body op = rexBytes f.rex ++ (0x0F :: op.byte :: operandBytes f.reg f.rm) := by
  obtain ⟨p, _ | x, reg, rm⟩ := f <;> rfl

section
variable {m : Mode} {r : LegacyRun} {rexBefore : Bool} {bs : List Byte} {i : Instr} {op : Op}

theorem readFrom_legacy {f : LegacyForm} (rest : List Byte) (hrm : f.rm.wf (m.addr16 f.legacy.has67) = true)
    (hrex : m = .long64 ∨ f.rex = none) : (mkLegacy op f).ReadFrom m f.legacy.run (f.body op ++ rest) := by
  refine ⟨fun hl => ?_, f.legacy, f.body op, rest, rfl, rfl, (encode_mkLegacy op f).trans (List.append_assoc _ _ _)⟩
  rw [wf_mkLegacy]
  exact LegacyForm.wf_iff.mpr ⟨len_mkLegacy op f ▸ hl, hrm, hrex⟩

theorem readFrom_vex {l : Bool} {f : VexForm} (rest : List Byte) (hm : m.realOrV86 = false)
    (hrm : f.rm.wf (m.addr16 f.legacy.has67) = true) (hn : m = .long64 ∨ f.head.narrow = true) :
    (mkVex l op f).ReadFrom m f.legacy.run (f.body l op ++ rest) := by
  refine ⟨fun hl => ?_, f.legacy, f.body l op, rest, rfl, rfl, (encode_mkVex l op f).trans (List.append_assoc _ _ _)⟩
  rw [wf_mkVex]
  exact VexForm.wf_iff.mpr ⟨hm, len_mkVex l op f ▸ hl, hrm, hn⟩

theorem readFrom_evex {vl : VL} {f : EvexForm} (rest : List Byte) (hm : m.realOrV86 = false)
    (hrm : f.rm.wf (m.addr16 f.legacy.has67) = true)
    (hn : m = .long64 ∨ f.r = false ∧ f.x = false ∧ f.b = false ∧ f.r' = false) (hmask : f.maskWf op = true) :
    (mkEvex vl op f).ReadFrom m f.legacy.run (f.body vl op ++ rest) := by
  refine ⟨fun hl => ?_, f.legacy, f.body vl op, rest, rfl, rfl, (encode_mkEvex vl op f).trans (List.append_assoc _ _ _)⟩
  rw [wf_mkEvex]
  exact EvexForm.wf_iff.mpr ⟨hm, len_mkEvex vl op f ▸ hl, hrm, hn, hmask⟩

theorem ok_of_guard {p : Prop} [Decidable p] {e : Reject} {k : Except Reject Instr}
    (h : (if p then .error e else k) = .ok i) : ¬ p ∧ k = .ok i := by
  split_ifs at h with hp
  exact ⟨hp, h⟩

theorem finish_ok {mk : Prefixes → Instr} (h : finish r mk = .ok i) (hlock : r.lock = false) (hsimd : r.simd = false) :
    ∃ p, r = p.run ∧ i = mk p := by
  unfold finish at h
  split at h
  · next p hp => exact ⟨p, toPrefixes_some hp hlock hsimd, (Except.ok.inj h).symm⟩
  · nomatch h

theorem sharedUd_eq_none {vvvv : BitVec 4} (h : sharedUd m r rexBefore vvvv = none) :
    m.realOrV86 = false ∧ rexBefore = false ∧ r.simd = false ∧ r.lock = false ∧ vvvv = 15 := by
  unfold sharedUd at h
  split_ifs at h with hm hrex hsimd hlock hv
  exact ⟨Bool.eq_false_iff.mpr hm, Bool.eq_false_iff.mpr hrex, Bool.eq_false_iff.mpr hsimd, Bool.eq_false_iff.mpr hlock,
    not_not.mp hv⟩

theorem decodeLegacy_ok {x : Option Rex} (hrex : m = .long64 ∨ x = none) (h : decodeLegacy m r x bs = .ok i) :
    i.ReadFrom m r (rexBytes x ++ 0x0F :: bs) := by
  unfold decodeLegacy at h
  split at h
  · nomatch h
  rename_i o t
  split at h
  · nomatch h
  rename_i op ho
  obtain ⟨hsimd, h⟩ := ok_of_guard h
  split at h
  · nomatch h
  rename_i reg rm hops
  obtain ⟨hlock, h⟩ := ok_of_guard h
  obtain ⟨p, rfl, rfl⟩ := finish_ok h (Bool.eq_false_iff.mpr hlock) (Bool.eq_false_iff.mpr hsimd)
  obtain ⟨hrm, rest, rfl⟩ := readOperands_some hops
  have hread := readFrom_legacy (f := ⟨p, x, reg, rm⟩) (op := op) rest (Prefixes.run_has67 p ▸ hrm) hrex
  rw [LegacyForm.body_eq, List.append_assoc] at hread
  rw [opOf_some ho]
  exact hread

/-! ### VEX (R88 to R90) -/

/-- Outside 64-bit mode `C4H`, `C5H` and `62H` begin another instruction unless the byte after them has bits 7 and 6 set. -/
theorem bits76_of_field76 {p : Byte} (h : field76 p = 3) : p.getLsbD 7 = true ∧ p.getLsbD 6 = true := by
  revert p; decide

theorem vexLast_of_fields {q : Byte} (hv : q.extractLsb' 3 4 = 15) (hpp : q.extractLsb' 0 2 = 0) :
    vexLast (q.getLsbD 7) (q.getLsbD 2) = q := by
  revert q; decide

theorem vexMiddle_of_fields {p : Byte} (hmap : p.extractLsb' 0 5 = 1) :
    vexMiddle (p.getLsbD 7) (p.getLsbD 6) (p.getLsbD 5) = p := by
  revert p; decide

theorem decodeVex_ok {head : VexHead} {map : BitVec 5} {vvvv : BitVec 4} {l : Bool} {pp : BitVec 2}
    (hn : m = .long64 ∨ (head.b = false → head.narrow = true)) (h : decodeVex m r rexBefore head map vvvv l pp bs = .ok i) :
    rexBefore = false ∧ map = 1 ∧ vvvv = 15 ∧ pp = 0 ∧ i.ReadFrom m r (head.bytes l ++ bs) := by
  unfold decodeVex at h
  split at h
  · nomatch h
  rename_i o t
  split at h
  · nomatch h
  rename_i op ho
  obtain ⟨hfields, h⟩ := ok_of_guard h
  obtain ⟨hmap, hpp⟩ := not_or.mp hfields
  split at h
  · nomatch h
  rename_i reg rm hops
  split at h
  · nomatch h
  rename_i hud
  obtain ⟨hb, h⟩ := ok_of_guard h
  obtain ⟨hm, hrex, hsimd, hlock, hv⟩ := sharedUd_eq_none hud
  obtain ⟨p, rfl, rfl⟩ := finish_ok h hlock hsimd
  obtain ⟨hrm, rest, rfl⟩ := readOperands_some hops
  have hn : m = .long64 ∨ head.narrow = true := by
    by_cases hm : m = .long64
    · exact .inl hm
    · exact .inr (hn.resolve_left hm (by simpa [hm] using hb))
  refine ⟨hrex, not_not.mp hmap, hv, not_not.mp hpp, ?_⟩
  rw [opOf_some ho]
  simpa [VexForm.body] using readFrom_vex (f := ⟨p, head, reg, rm⟩) (l := l) (op := op) rest hm (Prefixes.run_has67 p ▸ hrm) hn

theorem decodeVex2_ok (h : decodeVex2 m r rexBefore bs = .ok i) : rexBefore = false ∧ i.ReadFrom m r (0xC5 :: bs) := by
  unfold decodeVex2 at h
  split at h
  · nomatch h
  rename_i p t
  obtain ⟨hguard, h⟩ := ok_of_guard h
  have hmode : m = .long64 ∨ field76 p = 3 := by tauto
  obtain ⟨hrex, -, hv, hpp, hread⟩ := decodeVex_ok
    (hmode.imp_right fun h3 _ => by simp [VexHead.narrow, bits76_of_field76 h3]) h
  have hbytes : VexHead.bytes (p.getLsbD 2) (.two (!p.getLsbD 7)) = [0xC5, p] := by
    rw [VexHead.bytes, Bool.not_not]
    exact congrArg (fun q => [0xC5, q]) (vexLast_of_fields hv hpp)
  rw [hbytes] at hread
  exact ⟨hrex, hread⟩

theorem decodeVex3_ok (h : decodeVex3 m r rexBefore bs = .ok i) : rexBefore = false ∧ i.ReadFrom m r (0xC4 :: bs) := by
  unfold decodeVex3 at h
  split at h
  · nomatch h
  rename_i p t
  obtain ⟨hguard, h⟩ := ok_of_guard h
  have hmode : m = .long64 ∨ field76 p = 3 := by tauto
  obtain _ | ⟨q, u⟩ := t
  · nomatch h
  obtain ⟨hrex, hmap, hv, hpp, hread⟩ := decodeVex_ok
    (hmode.imp_right fun h3 hb => by simpa [VexHead.narrow, VexHead.b, bits76_of_field76 h3] using hb) h
  have hbytes : VexHead.bytes (q.getLsbD 2) (.three (!p.getLsbD 7) (!p.getLsbD 6) (!p.getLsbD 5) (q.getLsbD 7)) =
      [0xC4, p, q] := by
    simp only [VexHead.bytes, Bool.not_not]
    exact congrArg₂ (fun p q => [0xC4, p, q]) (vexMiddle_of_fields hmap) (vexLast_of_fields hv hpp)
  rw [hbytes] at hread
  exact ⟨hrex, hread⟩

/-! ### EVEX (R91 to R94) -/

theorem evexFieldUd_eq_none {p0 p1 p2 : Byte} {rm : Rm} (h : evexFieldUd p0 p1 p2 op rm = none) :
    p1.getLsbD 7 = false ∧ p2.getLsbD 4 = false ∧ p0.extractLsb' 2 2 = 0 ∧ p1.getLsbD 2 = true ∧
      ¬ (p2.getLsbD 7 ∧ field20 p2 = 0) ∧ ¬ (p2.getLsbD 7 ∧ op = .store29 ∧ rm.isMem) := by
  unfold evexFieldUd at h
  split_ifs at h with hw hb hfix hz hzm
  obtain ⟨hfix, hone⟩ := not_or.mp hfix
  exact ⟨Bool.eq_false_iff.mpr hw, Bool.eq_false_iff.mpr hb, not_not.mp hfix, Bool.ne_false_iff.mp hone, hz, hzm⟩

theorem evexP0_of_fields {p : Byte} (hmap : p.extractLsb' 0 2 = 1) (hfix : p.extractLsb' 2 2 = 0) :
    evexP0 (p.getLsbD 7) (p.getLsbD 6) (p.getLsbD 5) (p.getLsbD 4) = p := by
  revert p; decide

theorem evexP1_of_fields {p : Byte} (hw : p.getLsbD 7 = false) (hv : p.extractLsb' 3 4 = 15) (hone : p.getLsbD 2 = true)
    (hpp : p.extractLsb' 0 2 = 0) : p = 0x7C := by
  revert p; decide

theorem evexP2_of_fields {p : Byte} {vl : VL} (hvl : evexLength (p.extractLsb' 5 2) = some vl) (hb : p.getLsbD 4 = false)
    (hv' : p.getLsbD 3 = true) : evexP2 (p.getLsbD 7) vl (field20 p) = p := by
  revert p; cases vl <;> decide

theorem EvexForm.maskWf_iff {f : EvexForm} :
    f.maskWf op = true ↔ (f.z = true → f.aaa ≠ 0 ∧ ¬ (op = .store29 ∧ f.rm.isMem = true)) := by
  simp [EvexForm.maskWf, imp_iff_not_or]

/-- The fields an EVEX instruction is read with. -/
def evexFormOf (p0 p2 : Byte) (p : Prefixes) (reg : BitVec 3) (rm : Rm) : EvexForm :=
  ⟨p, !p0.getLsbD 7, !p0.getLsbD 6, !p0.getLsbD 5, !p0.getLsbD 4, p2.getLsbD 7, field20 p2, reg, rm⟩

section
variable {p0 p1 p2 : Byte} {p : Prefixes} {reg : BitVec 3} {rm : Rm}

theorem evexFormOf_head {vl : VL} (hmap : p0.extractLsb' 0 2 = 1) (hfix : p0.extractLsb' 2 2 = 0) (hw : p1.getLsbD 7 = false)
    (hv : p1.extractLsb' 3 4 = 15) (hone : p1.getLsbD 2 = true) (hpp : p1.extractLsb' 0 2 = 0)
    (hvl : evexLength (p2.extractLsb' 5 2) = some vl) (hb : p2.getLsbD 4 = false) (hv' : p2.getLsbD 3 = true) :
    (evexFormOf p0 p2 p reg rm).head vl = [0x62, p0, p1, p2] := by
  rw [evexP1_of_fields hw hv hone hpp]
  simp only [EvexForm.head, evexFormOf, Bool.not_not]
  exact congrArg₂ (fun a b => [0x62, a, 0x7C, b]) (evexP0_of_fields hmap hfix) (evexP2_of_fields hvl hb hv')

theorem evexFormOf_narrow (hmode : m = .long64 ∨ field76 p0 = 3)
    (hext : ¬ (m ≠ .long64 ∧ (p0.getLsbD 5 = false ∨ p0.getLsbD 4 = false ∨ p2.getLsbD 3 = false))) :
    let f := evexFormOf p0 p2 p reg rm
    m = .long64 ∨ f.r = false ∧ f.x = false ∧ f.b = false ∧ f.r' = false := by
  by_cases hm : m = .long64
  · exact .inl hm
  · obtain ⟨h7, h6⟩ := bits76_of_field76 (hmode.resolve_left hm)
    simp_all [evexFormOf]

theorem evexFormOf_maskWf (hz : ¬ (p2.getLsbD 7 ∧ field20 p2 = 0)) (hzm : ¬ (p2.getLsbD 7 ∧ op = .store29 ∧ rm.isMem)) :
    (evexFormOf p0 p2 p reg rm).maskWf op = true :=
  EvexForm.maskWf_iff.mpr fun h7 => ⟨fun ha => hz ⟨h7, ha⟩, fun hs => hzm ⟨h7, hs⟩⟩

end

theorem decodeEvex_ok {p0 p1 p2 : Byte} (hmode : m = .long64 ∨ field76 p0 = 3)
    (h : decodeEvex m r rexBefore p0 p1 p2 bs = .ok i) :
    rexBefore = false ∧ i.ReadFrom m r (0x62 :: p0 :: p1 :: p2 :: bs) := by
  unfold decodeEvex at h
  split at h
  · nomatch h
  rename_i o t
  split at h
  · nomatch h
  rename_i op ho
  obtain ⟨hguard, h⟩ := ok_of_guard h
  obtain ⟨hmap, hpp⟩ := not_or.mp hguard
  split at h
  · nomatch h
  rename_i reg rm hops
  split at h
  · nomatch h
  rename_i hud
  split at h
  · nomatch h
  · nomatch h
  rename_i vl hfields hvl
  obtain ⟨hext, h⟩ := ok_of_guard h
  obtain ⟨hv', h⟩ := ok_of_guard h
  obtain ⟨hm, hrex, hsimd, hlock, hv⟩ := sharedUd_eq_none hud
  obtain ⟨p, rfl, rfl⟩ := finish_ok h hlock hsimd
  obtain ⟨hrm, rest, rfl⟩ := readOperands_some hops
  obtain ⟨hw, hb, hfix, hone, hz, hzm⟩ := evexFieldUd_eq_none hfields
  have hread := readFrom_evex (vl := vl) (op := op) (f := evexFormOf p0 p2 p reg rm) rest hm
    (Prefixes.run_has67 p ▸ hrm) (evexFormOf_narrow hmode hext) (evexFormOf_maskWf hz hzm)
  rw [EvexForm.body, evexFormOf_head (not_not.mp hmap) hfix hw hv hone (not_not.mp hpp) hvl hb (Bool.ne_false_iff.mp hv')] at hread
  rw [opOf_some ho]
  exact ⟨hrex, hread⟩

theorem decodeEvex3_ok (h : decodeEvex3 m r rexBefore bs = .ok i) : rexBefore = false ∧ i.ReadFrom m r (0x62 :: bs) := by
  unfold decodeEvex3 at h
  split at h
  · nomatch h
  rename_i p0 t
  obtain ⟨hguard, h⟩ := ok_of_guard h
  split at h
  · exact decodeEvex_ok (by tauto) h
  · nomatch h

/-! ### Any class -/

theorem decodeClass_ok {b : Byte} (h : decodeClass m r rexBefore b bs = .ok i) : rexBefore = false ∧ i.ReadFrom m r (b :: bs) := by
  unfold decodeClass at h
  split_ifs at h with hb hb' hb''
  · exact hb ▸ decodeVex2_ok h
  · exact hb' ▸ decodeVex3_ok h
  · exact hb'' ▸ decodeEvex3_ok h

theorem rexOf_byte {b : Byte} (h : isRex b = true) : (rexOf b).byte = b := by
  revert b; decide

theorem decodeWindow_ok (h : decodeWindow m bs = .ok i) : i.ReadFrom m (scanLegacy bs).1 (scanLegacy bs).2 := by
  unfold decodeWindow at h
  split at h
  · nomatch h
  rename_i b t hs
  rw [hs]
  split at h
  · next hb => exact hb ▸ decodeLegacy_ok (.inr rfl) h
  · split at h
    · next hrex =>
      obtain ⟨hm, hrex⟩ := hrex
      split at h
      · nomatch h
      rename_i c u
      split at h
      · next hc =>
        have hread := decodeLegacy_ok (.inl hm) h
        rw [rexBytes, rexOf_byte hrex] at hread
        exact hc ▸ hread
      · exact absurd (decodeClass_ok h).1 nofun
    · exact (decodeClass_ok h).2

theorem decodeWindow_of_decode (h : decode m bs = .instr i) : decodeWindow m (bs.take maxLength) = .ok i := by
  unfold decode at h
  split at h
  · next hw => exact Decoded.instr.inj h ▸ hw
  · nomatch h
  · nomatch h
  · split at h <;> nomatch h

/-- What is decoded is well formed, and the bytes begin with its encoding. -/
theorem encode_of_decode (h : decode m bs = .instr i) : i.wf m = true ∧ encode i <+: bs := by
  obtain ⟨hwf, p, body, rest, hrun, hbody, henc⟩ := decodeWindow_ok (decodeWindow_of_decode h)
  have hsplit := scanLegacy_split (bs := bs.take maxLength) (hrun ▸ rfl) (hrun ▸ rfl)
  rw [hrun, hbody, Prefixes.run_bytes, ← List.append_assoc, ← henc] at hsplit
  have hpre : encode i <+: bs.take maxLength := ⟨rest, hsplit.symm⟩
  have hlen : i.len ≤ maxLength := encode_length i ▸ hpre.length_le.trans (List.length_take_le _ _)
  exact ⟨hwf hlen, hpre.trans (List.take_prefix _ _)⟩

end

/-! ## Bytes before an encoding (R87, R100) -/

section
variable {m : Mode} {r : LegacyRun} {bs rest : List Byte} {op : Op} {b : Byte} {l : LegacyByte} {c : UdCause}

theorem decode_of_ud (h : decodeWindow m (bs.take maxLength) = .error (.ud c)) : decode m bs = .invalidOpcode c := by
  rw [decode, h]

theorem decode_of_refused {why : DecodeRefusal} (h : decodeWindow m (bs.take maxLength) = .error (.refused why)) :
    decode m bs = .refused why := by
  rw [decode, h]

theorem scanLegacy_encodeLegacy (op : Op) (f : LegacyForm) (rest : List Byte) :
    scanLegacy (encodeLegacy op f ++ rest) = (f.legacy.run, f.body op ++ rest) := by
  obtain ⟨p, _ | x, reg, rm⟩ := f
  · simpa [encodeLegacy, LegacyForm.body] using scanLegacy_bytes p _ (by decide : legacyByte 0x0F = none)
  · simpa [encodeLegacy, LegacyForm.body] using scanLegacy_bytes p _ (rex_not_legacy x)

theorem scanLegacy_encodeVex (l : Bool) (op : Op) (f : VexForm) (rest : List Byte) :
    scanLegacy (encodeVex l op f ++ rest) = (f.legacy.run, f.body l op ++ rest) := by
  obtain ⟨p, a | ⟨a, x, b, w⟩, reg, rm⟩ := f
  · simpa [encodeVex, VexForm.body, VexHead.bytes] using scanLegacy_bytes p _ (by decide : legacyByte 0xC5 = none)
  · simpa [encodeVex, VexForm.body, VexHead.bytes] using scanLegacy_bytes p _ (by decide : legacyByte 0xC4 = none)

theorem scanLegacy_encodeEvex (vl : VL) (op : Op) (f : EvexForm) (rest : List Byte) :
    scanLegacy (encodeEvex vl op f ++ rest) = (f.legacy.run, f.body vl op ++ rest) := by
  simpa [encodeEvex, EvexForm.body, EvexForm.head] using scanLegacy_bytes f.legacy _ (by decide : legacyByte 0x62 = none)

theorem take_byte_append {e : List Byte} (h : e.length ≤ 14) :
    (b :: (e ++ rest)).take maxLength = b :: (e ++ rest.take (14 - e.length)) := by
  rw [maxLength, List.take_succ_cons, List.take_append, List.take_of_length_le h]

/-- A legacy byte before bytes of which the first 14 hold the encoding `e`: it joins the legacy bytes of `e`. -/
theorem scanLegacy_window {e body : List Byte} {p : Prefixes} (hb : legacyByte b = some l) (hlen : e.length ≤ 14)
    (hs : ∀ rest, scanLegacy (e ++ rest) = (p.run, body ++ rest)) (rest : List Byte) :
    ∃ rest', scanLegacy ((b :: (e ++ rest)).take maxLength) = (p.run.cons l, body ++ rest') :=
  ⟨_, by rw [take_byte_append hlen, scanLegacy, hb, hs]⟩

theorem decodeWindow_byte_legacy {f : LegacyForm} (h : f.wf m = true) (hlen : f.len ≤ 14) (hb : legacyByte b = some l)
    (h67 : (f.legacy.run.cons l).has67 = f.legacy.has67) :
    decodeWindow m ((b :: (encodeLegacy op f ++ rest)).take maxLength) =
      (f.legacy.run.cons l).verdict (.refused .notInScope) (fun p => mkLegacy op { f with legacy := p }) := by
  obtain ⟨rest', hs⟩ := scanLegacy_window hb (Laws.EncodedLength.legacy_length op f ▸ hlen) (scanLegacy_encodeLegacy op f) rest
  exact decodeWindow_legacy h hs h67

theorem decodeWindow_byte_vex {v : Bool} {f : VexForm} (h : f.wf m = true) (hlen : f.len ≤ 14) (hb : legacyByte b = some l)
    (h67 : (f.legacy.run.cons l).has67 = f.legacy.has67) :
    decodeWindow m ((b :: (encodeVex v op f ++ rest)).take maxLength) =
      (f.legacy.run.cons l).verdict (.ud .simdBefore) (fun p => mkVex v op { f with legacy := p }) := by
  obtain ⟨rest', hs⟩ := scanLegacy_window hb (Laws.EncodedLength.vex_length v op f ▸ hlen) (scanLegacy_encodeVex v op f) rest
  exact decodeWindow_vex h hs h67

theorem decodeWindow_byte_evex {vl : VL} {f : EvexForm} (h : f.wf m op = true) (hlen : f.len ≤ 14) (hb : legacyByte b = some l)
    (h67 : (f.legacy.run.cons l).has67 = f.legacy.has67) :
    decodeWindow m ((b :: (encodeEvex vl op f ++ rest)).take maxLength) =
      (f.legacy.run.cons l).verdict (.ud .simdBefore) (fun p => mkEvex vl op { f with legacy := p }) := by
  obtain ⟨rest', hs⟩ := scanLegacy_window hb (Laws.EncodedLength.evex_length vl op f ▸ hlen) (scanLegacy_encodeEvex vl op f) rest
  exact decodeWindow_evex h hs h67

theorem run_cons_simd_has67 (p : Prefixes) : (p.run.cons .simd).has67 = p.has67 := Prefixes.run_has67 p

theorem run_cons_seg_has67 (s : SegReg) (p : Prefixes) : (p.run.cons (.seg s)).has67 = p.has67 := by
  rw [← Prefixes.run_has67]
  simp [LegacyRun.cons, LegacyRun.has67]

theorem verdict_simd (p : Prefixes) (simd : Reject) (mk : Prefixes → Instr) :
    (p.run.cons .simd).verdict simd mk = .error simd := rfl

/-- A second segment override leaves no prefixes to put into an instruction (R100, D28). -/
theorem verdict_secondOverride (s : SegReg) {p : Prefixes} (h : p.override ≠ none) (simd : Reject) (mk : Prefixes → Instr) :
    (p.run.cons (.seg s)).verdict simd mk = .error (.refused .segmentOverrides) := by
  obtain ⟨n, _ | o⟩ := p
  · exact absurd rfl h
  · rfl

theorem legacyByte_simd (h : b = 0x66 ∨ b = 0xF2 ∨ b = 0xF3) : legacyByte b = some .simd := by
  revert b; decide

end

/-! ## `#UD` by the fields of VEX and EVEX (R104) -/

section
variable (md : BitVec 2) (rm : BitVec 3) (b0 b1 b2 b3 b4 : Byte) (u : List Byte)

theorem readDisp_total : ∃ d, readDisp md (b0 :: b1 :: b2 :: b3 :: u) = some d := by
  unfold readDisp; split_ifs <;> exact ⟨_, rfl⟩

theorem readDisp16_total : ∃ d, readDisp16 md (b0 :: b1 :: u) = some d := by
  unfold readDisp16; split_ifs <;> exact ⟨_, rfl⟩

theorem readMem_total : ∃ f, readMem md rm (b0 :: b1 :: b2 :: b3 :: b4 :: u) = some f := by
  obtain ⟨d, hd⟩ := readDisp_total md b0 b1 b2 b3 (b4 :: u)
  obtain ⟨d', hd'⟩ := readDisp_total md b1 b2 b3 b4 u
  simp only [readMem, readSib, hd, hd']
  split_ifs <;> exact ⟨_, rfl⟩

theorem readMem16_total : ∃ f, readMem16 md rm (b0 :: b1 :: u) = some f := by
  obtain ⟨d, hd⟩ := readDisp16_total md b0 b1 u
  simp only [readMem16, hd]
  split_ifs <;> exact ⟨_, rfl⟩

end

/-- Six bytes hold the operands, whatever they are: ModRM, SIB and `disp32` (R84, R85, R95). -/
theorem readOperands_total (addr16 : Bool) (b : Byte) {t : List Byte} (h : 5 ≤ t.length) :
    ∃ rm, readOperands addr16 (b :: t) = some (field53 b, rm) ∧ (field76 b ≠ 3 → rm.isMem = true) := by
  match t with
  | b0 :: b1 :: b2 :: b3 :: b4 :: u =>
    by_cases h3 : field76 b = 3
    · exact ⟨.reg (field20 b), by rw [readOperands, if_pos h3], fun hn => absurd h3 hn⟩
    · obtain ⟨f, hf⟩ := readMem_total (field76 b) (field20 b) b0 b1 b2 b3 b4 u
      obtain ⟨f', hf'⟩ := readMem16_total (field76 b) (field20 b) b0 b1 (b2 :: b3 :: b4 :: u)
      rw [readOperands, if_neg h3, hf, hf']
      cases addr16 <;> exact ⟨_, rfl, fun _ => rfl⟩

section
variable {m : Mode} {r : LegacyRun} {rexBefore : Bool} {op : Op} {rm : Rm} {c : UdCause}

/-- The opcode and the operands stand after the VEX or EVEX bytes (R103). -/
def OperandsAt (m : Mode) (r : LegacyRun) (op : Op) (rm : Rm) (bs : List Byte) : Prop :=
  ∃ o t reg, bs = o :: t ∧ opOf o = some op ∧ readOperands (m.addr16 r.has67) t = some (reg, rm)

theorem decodeVex_sharedUd {head : VexHead} {vvvv : BitVec 4} {l : Bool} {bs : List Byte} (h : OperandsAt m r op rm bs)
    (hud : sharedUd m r rexBefore vvvv = some c) : decodeVex m r rexBefore head 1 vvvv l 0 bs = .error (.ud c) := by
  obtain ⟨o, t, reg, rfl, ho, hops⟩ := h
  simp [decodeVex, ho, hops, hud]

theorem decodeVex2_sharedUd {p : Byte} {bs : List Byte} (h : OperandsAt m r op rm bs) (hmode : m = .long64 ∨ field76 p = 3)
    (hpp : p.extractLsb' 0 2 = 0) (hud : sharedUd m r rexBefore (p.extractLsb' 3 4) = some c) :
    decodeClass m r rexBefore 0xC5 (p :: bs) = .error (.ud c) := by
  have hmode : ¬ (m ≠ .long64 ∧ field76 p ≠ 3) := by tauto
  rw [decodeClass, if_pos rfl, decodeVex2, if_neg hmode, hpp, decodeVex_sharedUd h hud]

theorem decodeVex3_sharedUd {p q : Byte} {bs : List Byte} (h : OperandsAt m r op rm bs) (hmode : m = .long64 ∨ field76 p = 3)
    (hmap : p.extractLsb' 0 5 = 1) (hpp : q.extractLsb' 0 2 = 0) (hud : sharedUd m r rexBefore (q.extractLsb' 3 4) = some c) :
    decodeClass m r rexBefore 0xC4 (p :: q :: bs) = .error (.ud c) := by
  have hmode : ¬ (m ≠ .long64 ∧ field76 p ≠ 3) := by tauto
  rw [decodeClass, if_neg (by decide), if_pos rfl, decodeVex3, if_neg hmode, hmap, hpp, decodeVex_sharedUd h hud]

theorem decodeEvex_eq {p0 p1 p2 : Byte} {bs : List Byte} (hmode : m = .long64 ∨ field76 p0 = 3) :
    decodeClass m r rexBefore 0x62 (p0 :: p1 :: p2 :: bs) = decodeEvex m r rexBefore p0 p1 p2 bs := by
  have hmode : ¬ (m ≠ .long64 ∧ field76 p0 ≠ 3) := by tauto
  rw [decodeClass, if_neg (by decide), if_neg (by decide), if_pos rfl, decodeEvex3, if_neg hmode]

theorem decodeEvex_sharedUd {p0 p1 p2 : Byte} {bs : List Byte} (h : OperandsAt m r op rm bs)
    (hmap : p0.extractLsb' 0 2 = 1) (hpp : p1.extractLsb' 0 2 = 0) (hud : sharedUd m r rexBefore (p1.extractLsb' 3 4) = some c) :
    decodeEvex m r rexBefore p0 p1 p2 bs = .error (.ud c) := by
  obtain ⟨o, t, reg, rfl, ho, hops⟩ := h
  simp [decodeEvex, ho, hmap, hpp, hops, hud]

theorem decodeEvex_reserved {p0 p1 p2 : Byte} {bs : List Byte} (h : OperandsAt m r op rm bs)
    (hmap : p0.extractLsb' 0 2 = 1) (hpp : p1.extractLsb' 0 2 = 0)
    (hres : (m = .long64 ∧ p2.getLsbD 3 = false) ∨ evexLength (p2.extractLsb' 5 2) = none ∨ evexFieldUd p0 p1 p2 op rm ≠ none) :
    ∃ c, decodeEvex m r rexBefore p0 p1 p2 bs = .error (.ud c) := by
  cases hud : sharedUd m r rexBefore (p1.extractLsb' 3 4) with
  | some c => exact ⟨c, decodeEvex_sharedUd h hmap hpp hud⟩
  | none =>
    obtain ⟨o, t, reg, rfl, ho, hops⟩ := h
    simp only [decodeEvex, ho, hmap, hpp, hops, hud, ne_eq, not_true_eq_false, or_self, if_false]
    cases hf : evexFieldUd p0 p1 p2 op rm with
    | some c => exact ⟨c, rfl⟩
    | none =>
      cases hl : evexLength (p2.extractLsb' 5 2) with
      | none => exact ⟨_, rfl⟩
      | some vl =>
        obtain ⟨hm, hv'⟩ := hres.resolve_right (by simp [hf, hl])
        exact ⟨.vPrime, (if_neg fun hc => hc.1 hm).trans (if_pos hv')⟩

end

section
variable {m : Mode} {r : LegacyRun} {bs : List Byte} {c : UdCause}

theorem scanLegacy_none {b : Byte} (t : List Byte) (h : legacyByte b = none) : scanLegacy (b :: t) = (.empty, b :: t) := by
  rw [scanLegacy, h]

/-- The first byte of a VEX or EVEX encoding is no legacy byte and no REX byte: it decides the class. -/
theorem decodeWindow_classByte {b : Byte} (u : List Byte) (hb : b = 0xC5 ∨ b = 0xC4 ∨ b = 0x62) :
    decodeWindow m (b :: u) = decodeClass m .empty false b u :=
  decodeWindow_class (scanLegacy_none u (by rcases hb with rfl | rfl | rfl <;> decide)) hb

theorem decodeWindow_rex (x : Rex) {b : Byte} (u : List Byte) (hb : b = 0xC5 ∨ b = 0xC4 ∨ b = 0x62) :
    decodeWindow .long64 (x.byte :: b :: u) = decodeClass .long64 .empty true b u := by
  have hb : ¬ b = 0x0F := by rcases hb with rfl | rfl | rfl <;> decide
  simp [decodeWindow, scanLegacy_none _ (rex_not_legacy x), rex_ne_0F x, isRex_rex x, show ¬ b = 15#8 from hb]

theorem sharedUd_vvvv {vvvv : BitVec 4} {rexBefore : Bool} (h : vvvv ≠ 15) : ∃ c, sharedUd m r rexBefore vvvv = some c := by
  unfold sharedUd
  split_ifs <;> exact ⟨_, rfl⟩

theorem sharedUd_rex (vvvv : BitVec 4) : sharedUd .long64 r true vvvv = some .rexBefore := rfl

theorem opOf_opcode {o : Byte} (h : o = 0x28 ∨ o = 0x29) : ∃ op, opOf o = some op ∧ (o = 0x29 → op = .store29) := by
  rcases h with rfl | rfl
  · exact ⟨.load28, rfl, by decide⟩
  · exact ⟨.store29, rfl, fun _ => rfl⟩

/-- An opcode in scope and six bytes after it are an opcode and operands. -/
theorem operandsAt_of_length (m : Mode) (r : LegacyRun) {o b : Byte} {t : List Byte} (ho : o = 0x28 ∨ o = 0x29) (ht : 5 ≤ t.length) :
    ∃ op rm, OperandsAt m r op rm (o :: b :: t) ∧ (o = 0x29 → op = .store29) ∧ (field76 b ≠ 3 → rm.isMem = true) := by
  obtain ⟨op, hop, hstore⟩ := opOf_opcode ho
  obtain ⟨rm, hrm, hmem⟩ := readOperands_total (m.addr16 r.has67) b ht
  exact ⟨op, rm, ⟨o, _, _, rfl, hop, hrm⟩, hstore, hmem⟩

theorem operandsAt_encoded {rm : Rm} (op : Op) (reg : BitVec 3) (rest : List Byte) (h : rm.wf (m.addr16 r.has67) = true) :
    OperandsAt m r op rm (op.byte :: (operandBytes reg rm ++ rest)) :=
  ⟨_, _, reg, rfl, opOf_byte op, readOperands_bytes reg rest h⟩

end

/-! ## A REX byte before VEX or EVEX (R90, R93) -/

theorem rm_len_le (rm : Rm) : rm.len ≤ 6 := by
  rcases rm with _ | m
  · simp [Rm.len]
  · cases m with
    | base _ d | sib _ _ _ d => cases d <;> simp [Rm.len, Disp.len]
    | addr16 _ d => cases d <;> simp [Rm.len, Disp16.len]
    | _ => simp [Rm.len]

section
variable {r : LegacyRun} {op : Op} {rest : List Byte}

theorem encodeVex_of_noLegacy {l : Bool} {f : VexForm} (h : f.legacy = ⟨0, none⟩) : encodeVex l op f = f.body l op := by
  rw [encodeVex, h]; rfl

theorem encodeEvex_of_noLegacy {vl : VL} {f : EvexForm} (h : f.legacy = ⟨0, none⟩) : encodeEvex vl op f = f.body vl op := by
  rw [encodeEvex, h]; rfl

theorem vex_len_of_noLegacy {l : Bool} {f : VexForm} (h : f.legacy = ⟨0, none⟩) : (encodeVex l op f).length ≤ 14 := by
  have hrm := rm_len_le f.rm
  have hhead : f.head.len ≤ 3 := by cases f.head <;> simp [VexHead.len]
  rw [Laws.EncodedLength.vex_length, VexForm.len, h]
  simp only [Prefixes.len]
  omega

theorem evex_len_of_noLegacy {vl : VL} {f : EvexForm} (h : f.legacy = ⟨0, none⟩) : (encodeEvex vl op f).length ≤ 14 := by
  have hrm := rm_len_le f.rm
  rw [Laws.EncodedLength.evex_length, EvexForm.len, h]
  simp only [Prefixes.len]
  omega

/-- A REX byte forbids what would else be a VEX encoding (R90). -/
theorem decodeClass_rex_vex {l : Bool} {f : VexForm} (hrm : f.rm.wf (Mode.addr16 .long64 r.has67) = true) :
    ∃ b u, f.body l op ++ rest = b :: u ∧ (b = 0xC5 ∨ b = 0xC4 ∨ b = 0x62) ∧
      decodeClass .long64 r true b u = .error (.ud .rexBefore) := by
  have hops := operandsAt_encoded op f.reg rest hrm
  obtain ⟨p, a | ⟨a, x, b, w⟩, reg, rm⟩ := f
  · obtain ⟨-, -, -, hpp, -⟩ := vexLast_fields (!a) l
    exact ⟨0xC5, _, rfl, by decide, decodeVex2_sharedUd hops (.inl rfl) hpp (sharedUd_rex _)⟩
  · obtain ⟨-, -, -, hpp, -⟩ := vexLast_fields w l
    obtain ⟨-, -, -, hmap, -⟩ := vexMiddle_fields (!a) (!x) (!b)
    exact ⟨0xC4, _, rfl, by decide, decodeVex3_sharedUd hops (.inl rfl) hmap hpp (sharedUd_rex _)⟩

theorem decodeClass_rex_evex {vl : VL} {f : EvexForm} (hrm : f.rm.wf (Mode.addr16 .long64 r.has67) = true) :
    ∃ u, f.body vl op ++ rest = 0x62 :: u ∧ decodeClass .long64 r true 0x62 u = .error (.ud .rexBefore) := by
  have hops := operandsAt_encoded op f.reg rest hrm
  obtain ⟨-, -, -, -, hmap, -⟩ := evexP0_fields (!f.r) (!f.x) (!f.b) (!f.r')
  obtain ⟨-, -, -, hpp⟩ := evexP1_fields
  exact ⟨_, rfl, (decodeEvex_eq (.inl rfl)).trans (decodeEvex_sharedUd hops hmap hpp (sharedUd_rex _))⟩

end

end Sys2Proof

namespace Sys2Proof.Machine

/-! ## The Level A record (R108) -/

theorem vecNumber_lt_16 (lo : Bool) (n : BitVec 3) : vecNumber false lo n < 16 := by
  revert lo n; decide

theorem vecNumber_lt_8 (n : BitVec 3) : vecNumber false false n < 8 := by
  revert n; decide

theorem rmOperand_reg_lt {s : State} {b : Fin 32} {e : Ext} {hi : Bool} {p : Prefixes} {n len : Nat} {rm : Rm}
    (h : ∀ k, vecNumber hi e.b k < b) : ∀ d, s.rmOperand e hi p n len rm = .reg d → d < b := by
  intro d hd
  cases rm with
  | reg k => exact RmOperand.reg.inj hd ▸ h k
  | mem m =>
    rw [rmOperand_mem] at hd
    split at hd <;> nomatch hd

theorem legacyExt_narrow {f : LegacyForm} (h : f.rex = none) : legacyExt f = ⟨false, false, false, false⟩ := by
  rw [legacyExt, h]

theorem vexExt_narrow {f : VexForm} (h : f.head.narrow = true) : vexExt f = ⟨false, false, false, false⟩ := by
  obtain ⟨p, a | ⟨a, x, b, w⟩, reg, rm⟩ := f <;> simp_all [vexExt, VexHead.narrow]

theorem recordOf_mkLegacy (op : Op) (f : LegacyForm) (s : State) : recordOf (mkLegacy op f) s = legacyRecord op f s := by
  cases op <;> rfl

theorem recordOf_mkVex (l : Bool) (op : Op) (f : VexForm) (s : State) :
    recordOf (mkVex l op f) s = vexRecord (if l then .v256 else .v128) op f s := by
  cases l <;> cases op <;> rfl

theorem recordOf_mkEvex (vl : VL) (op : Op) (f : EvexForm) (s : State) : recordOf (mkEvex vl op f) s = evexRecord vl op f s := by
  cases vl <;> cases op <;> rfl

/-- The two forms answer alike on the two records of a register copy (R105). -/
theorem move_sameCopy {a b : Record} {s : State} (ha : a.op = .load28) (hb : b.op = .store29) (hcls : a.cls = b.cls)
    (hvl : a.vl = b.vl) (h : sameCopy a b) : a.move s = b.move s := by
  obtain ⟨hra, hrb, haaa, hz, hlen⟩ := h
  have hsel : a.sel s = b.sel s := by funext j; rw [Record.sel, Record.sel, haaa]
  have hval : a.value s = b.value s := by rw [Record.value, Record.value, evexValue, evexValue, hcls, hvl, hsel, hz]
  have hud : a.ud s = b.ud s := by
    simp only [Record.ud, hcls, hvl, hz, haaa, ha, hra, hrb, RmOperand.isMem, Bool.and_false]
  simp only [Record.move, ha, hb, loadForm, storeForm, Record.tests, hlen, hud, hra, hrb, hval]

/-! ## Where the tests and a 16-bit form stop an instruction (R102, R173, R181, R183) -/

theorem exec_tooLong {i : Instr} {s : State} (h : maxLength < i.len) : exec i s = .fault .generalProtection := by
  have tests (k : Outcome) : (recordOf i s).tests s k = .fault .generalProtection := if_pos (recordOf_len i s ▸ h)
  obtain ⟨value, ⟨-, he⟩ | ⟨-, he⟩⟩ := exec_form i s
  · rw [he, loadForm, tests]
  · rw [he, storeForm, tests]

theorem exec_refused16 {i : Instr} {s : State} (hp : (recordOf i s).passes s) (hr : (recordOf i s).rm = .refused16) :
    exec i s = .refused .sixteenBitAddressing := by
  obtain ⟨hl, hu, ht⟩ := hp
  obtain ⟨value, ⟨-, he⟩ | ⟨-, he⟩⟩ := exec_form i s
  · rw [he, loadForm, tests_pass _ hl hu ht, hr]
  · rw [he, storeForm, tests_pass _ hl hu ht, hr]

theorem udEvex_iff {s : State} {vl : VL} : s.udEvex vl = true ↔
    s.mode = .real ∨ s.mode = .v86 ∨ s.osxsave = false ∨ s.xcr0.extractLsb' 1 2 ≠ 3 ∨ s.xcr0.extractLsb' 5 3 ≠ 7 ∨
      s.params.avx512f = false ∨ (vl ≠ .v512 ∧ s.params.avx512vl = false) := by
  have hm : s.mode.realOrV86 = true ↔ s.mode = .real ∨ s.mode = .v86 := by cases s.mode <;> decide
  simp only [State.udEvex, State.xcr0Avx, State.xcr0Evex, Bool.or_eq_true, Bool.and_eq_true, Bool.not_eq_true', hm,
    bne_iff_ne, beq_eq_false_iff_ne, or_assoc]

/-! ## Effective addresses (R95 to R101) -/

theorem setWidth_16_eq_modulo (a : Word64) : (a.setWidth 16).setWidth 64 = modulo 16 a := by
  apply BitVec.eq_of_toNat_eq
  simp only [modulo, BitVec.toNat_setWidth, BitVec.toNat_ofNat]

theorem modulo_64 (a : Word64) : modulo 64 a = a := by
  rw [modulo, Nat.mod_eq_of_lt a.isLt, BitVec.ofNat_toNat, BitVec.setWidth_eq]

/-- An address size in bits (R101). -/
def AddrSize.bits : AddrSize → Nat
  | .a64 => 64
  | .a32 => 32
  | .a16 => 16

theorem addrSize_bits (m : Mode) (has67 : Bool) : (addrSize m has67).bits = addressBits m has67 := by
  cases m <;> cases has67 <;> rfl

theorem narrow_eq_modulo (z : AddrSize) (a : Word64) : narrow z a = modulo z.bits a := by
  cases z with
  | a64 => exact (modulo_64 a).symm
  | a32 => exact low32_eq_modulo a
  | a16 => exact setWidth_16_eq_modulo a

theorem effectiveAddress_eq (s : State) (e : Ext) (p : Prefixes) (n len : Nat) (f : MemForm) :
    s.effectiveAddress e p n len f = modulo (addressBits s.mode p.has67) (s.formSum e n len f) := by
  rw [State.effectiveAddress, narrow_eq_modulo, addrSize_bits]

theorem shiftLeft_eq_mul (a : Word64) (n : Nat) : a <<< n = a * BitVec.ofNat 64 (2 ^ n) := by
  apply BitVec.eq_of_toNat_eq
  simp only [BitVec.toNat_shiftLeft, BitVec.toNat_mul, BitVec.toNat_ofNat, Nat.shiftLeft_eq, Nat.mul_mod_mod]

theorem setWidth_sext64 (d : BitVec 16) : (sext64 d).setWidth 16 = d := by
  apply BitVec.eq_of_getLsbD_eq
  intro i hi
  rw [BitVec.getLsbD_setWidth, sext64, BitVec.getLsbD_signExtend]
  simp [hi, show i < 64 by omega]

theorem dispValue_eq (n : Nat) (d : Disp) : dispValue n d = displacement n d := by cases d <;> rfl

theorem disp16Value_eq (n : Nat) (d : Disp16) : disp16Value n d = displacement16 n d := by cases d <;> rfl

theorem gprNumber_val (hi : Bool) (n : BitVec 3) : (gprNumber hi n).val = (if hi then 8 else 0) + n.toNat := by
  revert hi n; decide

/-! ## The statements -/

/-- Settles O1: the legacy bytes, and the bytes of the class after them, are read back whatever follows. -/
theorem decodeEncodeRoundTrip : Obligations.DecodeEncodeRoundTrip := fun _ _ rest hwf => decode_encode hwf rest

/-- Settles O2: the bytes begin with the encoding of what they decode to. -/
theorem decodedBytesAreTheEncoding : Obligations.DecodedBytesAreTheEncoding := by
  intro m bs i h
  obtain ⟨hwf, hpre⟩ := encode_of_decode h
  rw [← encode_length]
  exact ⟨hwf, hpre.length_le, List.prefix_iff_eq_take.mp hpre⟩

/-- Settles O4: each class fixes its fields; outside 64-bit mode no extension bit is set. -/
theorem recordIsWellFormed : Obligations.RecordIsWellFormed := by
  intro i s hwf
  dsimp only
  refine ⟨recordOf_len i s ▸ three_le_len i, recordOf_len i s ▸ Instr.len_le_of_wf hwf, ?_⟩
  induction i using Instr.byClass with
  | legacy op f =>
    obtain ⟨-, -, hrex⟩ := LegacyForm.wf_iff.mp (wf_mkLegacy _ op f ▸ hwf)
    rw [recordOf_mkLegacy]
    refine ⟨fun _ => ⟨rfl, rfl, rfl, vecNumber_lt_16 _ _, rmOperand_reg_lt (vecNumber_lt_16 _)⟩, nofun, nofun, fun hm => ?_⟩
    rw [legacyRecord, legacyExt_narrow (hrex.resolve_left hm)]
    exact ⟨vecNumber_lt_8 _, rmOperand_reg_lt vecNumber_lt_8⟩
  | vex l op f =>
    obtain ⟨-, -, -, hn⟩ := VexForm.wf_iff.mp (wf_mkVex _ l op f ▸ hwf)
    rw [recordOf_mkVex]
    refine ⟨nofun, fun _ => ⟨?_, rfl, rfl, vecNumber_lt_16 _ _, rmOperand_reg_lt (vecNumber_lt_16 _)⟩, nofun, fun hm => ?_⟩
    · cases l <;> simp [vexRecord]
    · rw [vexRecord, vexExt_narrow (hn.resolve_left hm)]
      exact ⟨vecNumber_lt_8 _, rmOperand_reg_lt vecNumber_lt_8⟩
  | evex vl op f =>
    obtain ⟨-, -, -, hn, hmask⟩ := EvexForm.wf_iff.mp (wf_mkEvex _ vl op f ▸ hwf)
    rw [recordOf_mkEvex]
    refine ⟨nofun, nofun, fun hz => ?_, fun hm => ?_⟩
    · rw [evexRecord, rmOperand_isMem]
      exact EvexForm.maskWf_iff.mp hmask hz
    · obtain ⟨hr, hx, hb, hr'⟩ := hn.resolve_left hm
      rw [evexRecord, evexExt, hr, hx, hb, hr']
      exact ⟨vecNumber_lt_8 _, rmOperand_reg_lt vecNumber_lt_8⟩

/-- Settles O5: `0F 28 CA` and `0F 29 D1` are decoded; every pair moves the same register into the same one. -/
theorem registerCopiesAgree : Obligations.RegisterCopiesAgree := by
  have decoded : decode .long64 [0x0F, 0x28, 0xCA] = .instr (.movapsLoad ⟨⟨0, none⟩, none, 1, .reg 2⟩) ∧
      decode .long64 [0x0F, 0x29, 0xD1] = .instr (.movapsStore ⟨⟨0, none⟩, none, 2, .reg 1⟩) := by decide
  have copy {i j : Instr} {s : State} (ha : (recordOf i s).op = .load28) (hb : (recordOf j s).op = .store29)
      (hcls : (recordOf i s).cls = (recordOf j s).cls) (hvl : (recordOf i s).vl = (recordOf j s).vl)
      (h : sameCopy (recordOf i s) (recordOf j s)) : exec i s = exec j s := by
    rw [exec_eq_move, exec_eq_move, move_sameCopy ha hb hcls hvl h]
  obtain ⟨hload, hstore⟩ := decoded
  exact ⟨hload, hstore, fun s => ⟨copy rfl rfl rfl rfl ⟨rfl, rfl, rfl, rfl, rfl⟩,
    fun f g => copy (i := .movapsLoad f) (j := .movapsStore g) rfl rfl rfl rfl,
    fun f g => copy (i := .vmovapsVex128Load f) (j := .vmovapsVex128Store g) rfl rfl rfl rfl,
    fun f g => copy (i := .vmovapsVex256Load f) (j := .vmovapsVex256Store g) rfl rfl rfl rfl,
    fun f g => copy (i := .vmovapsEvex128Load f) (j := .vmovapsEvex128Store g) rfl rfl rfl rfl,
    fun f g => copy (i := .vmovapsEvex256Load f) (j := .vmovapsEvex256Store g) rfl rfl rfl rfl,
    fun f g => copy (i := .vmovapsEvex512Load f) (j := .vmovapsEvex512Store g) rfl rfl rfl rfl⟩⟩

/-- Settles O7: the answer for `66H`, `F2H` or `F3H` among the legacy bytes comes first. -/
theorem simdByteBeforeMove : Obligations.SimdByteBeforeMove := by
  intro m b op rest hb
  have hb := legacyByte_simd hb
  refine ⟨fun f hwf hlen => decode_of_refused ?_, fun l f hwf hlen => decode_of_ud ?_, fun vl f hwf hlen => decode_of_ud ?_⟩
  · rw [decodeWindow_byte_legacy hwf hlen hb (run_cons_simd_has67 _), verdict_simd]
  · rw [decodeWindow_byte_vex hwf hlen hb (run_cons_simd_has67 _), verdict_simd]
  · rw [decodeWindow_byte_evex hwf hlen hb (run_cons_simd_has67 _), verdict_simd]

/-- Settles O8: the REX byte is tested before the fields; the encoding and it are of at most 15 bytes. -/
theorem rexBeforeVexOrEvex : Obligations.RexBeforeVexOrEvex := by
  intro x op rest
  refine ⟨fun l f hleg hwf => decode_of_ud ?_, fun vl f hleg hwf => decode_of_ud ?_⟩
  · obtain ⟨-, -, hrm, -⟩ := VexForm.wf_iff.mp hwf
    rw [take_byte_append (vex_len_of_noLegacy hleg), encodeVex_of_noLegacy hleg]
    obtain ⟨b, u, hbu, hb, hcls⟩ := decodeClass_rex_vex (r := .empty) hrm
    rw [hbu, decodeWindow_rex x u hb, hcls]
  · obtain ⟨-, -, hrm, -⟩ := EvexForm.wf_iff.mp hwf
    rw [take_byte_append (evex_len_of_noLegacy hleg), encodeEvex_of_noLegacy hleg]
    obtain ⟨u, hu, hcls⟩ := decodeClass_rex_evex (r := .empty) hrm
    rw [hu, decodeWindow_rex x u (by decide), hcls]

/-- Settles O9: the byte and the override of the encoding are two. -/
theorem severalSegmentOverridesAreRefused : Obligations.SeveralSegmentOverridesAreRefused := by
  intro m r op rest
  have hb := legacyByte_seg r
  refine ⟨fun f ho hwf hlen => decode_of_refused ?_, fun l f ho hwf hlen => decode_of_refused ?_,
    fun vl f ho hwf hlen => decode_of_refused ?_⟩
  · rw [decodeWindow_byte_legacy hwf hlen hb (run_cons_seg_has67 _ _), verdict_secondOverride r ho]
  · rw [decodeWindow_byte_vex hwf hlen hb (run_cons_seg_has67 _ _), verdict_secondOverride r ho]
  · rw [decodeWindow_byte_evex hwf hlen hb (run_cons_seg_has67 _ _), verdict_secondOverride r ho]

/-- Settles O10: the fields that VEX and EVEX share are tested before all others. -/
theorem vvvvOtherThanOnesIsInvalidOpcode : Obligations.VvvvOtherThanOnesIsInvalidOpcode := by
  intro m o t ho ht
  obtain ⟨b, t, rfl⟩ : ∃ b u, t = b :: u := List.exists_cons_of_length_pos (by omega)
  have operands (k : Nat) (hk : 5 ≤ k) : ∃ op rm, OperandsAt m .empty op rm (o :: b :: t.take k) := by
    obtain ⟨op, rm, hops, -⟩ := operandsAt_of_length m .empty (b := b) (t := t.take k) ho (by simp at ht ⊢; omega)
    exact ⟨op, rm, hops⟩
  refine ⟨fun p hmode hv hpp => ?_, fun p q hmode hmap hv hpp => ?_, fun p0 p1 p2 hmode hmap hv hpp => ?_⟩
  · obtain ⟨op, rm, hops⟩ := operands 11 (by decide)
    obtain ⟨c, hc⟩ := sharedUd_vvvv (m := m) (r := .empty) (rexBefore := false) hv
    exact ⟨c, decode_of_ud ((decodeWindow_classByte _ (by decide)).trans (decodeVex2_sharedUd hops hmode hpp hc))⟩
  · obtain ⟨op, rm, hops⟩ := operands 10 (by decide)
    obtain ⟨c, hc⟩ := sharedUd_vvvv (m := m) (r := .empty) (rexBefore := false) hv
    exact ⟨c, decode_of_ud ((decodeWindow_classByte _ (by decide)).trans (decodeVex3_sharedUd hops hmode hmap hpp hc))⟩
  · obtain ⟨op, rm, hops⟩ := operands 9 (by decide)
    obtain ⟨c, hc⟩ := sharedUd_vvvv (m := m) (r := .empty) (rexBefore := false) hv
    exact ⟨c, decode_of_ud ((decodeWindow_classByte _ (by decide)).trans
      ((decodeEvex_eq hmode).trans (decodeEvex_sharedUd hops hmap hpp hc)))⟩

/-- Settles O11: each setting fails a test of the EVEX fields. -/
theorem evexReservedSettingsAreInvalidOpcode : Obligations.EvexReservedSettingsAreInvalidOpcode := by
  intro md p0 p1 p2 o m t ho ht hmode hmap hpp hset
  obtain ⟨op, rm, hops, hstore, hmem⟩ := operandsAt_of_length md .empty (b := m) (t := t.take 9) ho (by simp; omega)
  have hres : (md = .long64 ∧ p2.getLsbD 3 = false) ∨ evexLength (p2.extractLsb' 5 2) = none ∨
      evexFieldUd p0 p1 p2 op rm ≠ none := by
    by_contra hn
    simp only [not_or, not_not] at hn
    obtain ⟨hv', hll, hf⟩ := hn
    obtain ⟨hw, hb, hfix, hone, hz, hzm⟩ := evexFieldUd_eq_none hf
    rcases hset with h | h | h | h | h | h | h | ⟨hz7, ho, hmod⟩
    · exact hv' h
    · exact Bool.false_ne_true (hw.symm.trans h)
    · exact hll (h ▸ rfl)
    · exact Bool.false_ne_true (hb.symm.trans h)
    · exact h hfix
    · exact Bool.false_ne_true (h.symm.trans hone)
    · exact hz h
    · exact hzm ⟨hz7, hstore ho, hmem hmod⟩
  obtain ⟨c, hc⟩ := decodeEvex_reserved (rexBefore := false) hops hmap hpp hres
  exact ⟨c, decode_of_ud ((decodeWindow_classByte _ (by decide)).trans ((decodeEvex_eq hmode).trans hc))⟩

/-- Settles O33: a condition of R171 holds of the state; among the legacy bytes the lock is remembered. -/
theorem legacyInvalidOpcode : Obligations.LegacyInvalidOpcode := by
  refine ⟨fun f s hl hs => ?_, fun m op f a b rest hwf hlock => ?_⟩
  · have hud : s.udLegacy = true := by simpa [State.udLegacy, or_assoc] using hs
    exact ⟨exec_of_ud (i := .movapsLoad f) hl hud, exec_of_ud (i := .movapsStore f) hl hud⟩
  · exact decode_locked (wf_mkLegacy m op f ▸ hwf) (encode_mkLegacy op f ▸ hlock) rest

/-- Settles O53: the operand of the record is the refusal, which is answered once the tests pass. -/
theorem sixteenBitAddressingIsRefused : Obligations.SixteenBitAddressingIsRefused := by
  refine ⟨rfl, fun i s => exec_refused16, fun s m hm hs => ?_⟩
  have hr (e hi p n len) : s.rmOperand e hi p n len (.mem m) = .refused16 := by
    rw [rmOperand_mem, if_pos ⟨hm, hs⟩]
  exact ⟨fun op f hf => by rw [legacyRecord, hf, hr], fun vl op f hf => by rw [vexRecord, hf, hr],
    fun vl op f hf => by rw [evexRecord, hf, hr]⟩

/-- Settles O3: the decoder evaluated on each word. -/
theorem specWordsDecode : Obligations.SpecWordsDecode := by
  unfold Obligations.SpecWordsDecode; decide

/-- Settles O12: nothing stands between the decoder and `exec`. -/
theorem stepRunsDecodedInstruction : Obligations.StepRunsDecodedInstruction := by
  intro s i hd hi
  simp only [step, hd, hi, Bool.false_eq_true, if_false]

/-- Settles O14: each answer of the decoder by its branch of `step`. -/
theorem stepStopsWhereDecodingStops : Obligations.StepStopsWhereDecodingStops := by
  intro s
  refine ⟨fun hd => if_pos hd, fun hd => ?_⟩
  simp only [step, hd, Bool.false_eq_true, if_false]
  refine ⟨fun why h => ?_, fun h => ?_, fun h => ?_, fun h => ?_, fun h => ?_, fun h => ?_⟩ <;> rw [h] <;> rfl

/-- Settles O35: a condition of R173 holds of the state, or of the record's `z`. -/
theorem evexInvalidOpcode : Obligations.EvexInvalidOpcode := by
  intro f s hl
  have exec_ud {i : Instr} (hi : i.len = f.len) (hu : (recordOf i s).ud s = true) : exec i s = .fault .invalidOpcode :=
    exec_of_ud (hi ▸ hl) hu
  have state {vl op} (h : s.udEvex vl = true) : (evexRecord vl op f s).ud s = true := by simp [Record.ud, evexRecord, h]
  have noMask {vl op} (hz : f.z = true) (ha : f.aaa = 0) : (evexRecord vl op f s).ud s = true := by
    simp [Record.ud, evexRecord, hz, ha]
  have memory {vl} (hz : f.z = true) (ha : f.aaa = 0 ∨ f.rm.isMem = true) : (evexRecord vl .store29 f s).ud s = true := by
    rcases ha with ha | ha
    · exact noMask hz ha
    · simp [Record.ud, evexRecord, hz, ha, rmOperand_isMem]
  refine ⟨fun h => ?_, fun h => ?_, fun hz ha => ?_, fun hz ha => ?_⟩
  · have h512 := udEvex_iff (vl := .v512).mpr (by tauto)
    exact ⟨exec_ud rfl (state h512), exec_ud rfl (state h512)⟩
  · have h128 := udEvex_iff (vl := .v128).mpr (by tauto)
    have h256 := udEvex_iff (vl := .v256).mpr (by tauto)
    exact ⟨exec_ud rfl (state h128), exec_ud rfl (state h128), exec_ud rfl (state h256), exec_ud rfl (state h256)⟩
  · exact ⟨exec_ud rfl (noMask hz ha), exec_ud rfl (noMask hz ha), exec_ud rfl (noMask hz ha)⟩
  · exact ⟨exec_ud rfl (memory hz ha), exec_ud rfl (memory hz ha), exec_ud rfl (memory hz ha)⟩

/-- Settles O37: no test comes before that of the length. -/
theorem lengthIsTestedFirst : Obligations.LengthIsTestedFirst := fun _ _ => exec_tooLong

/-- Settles O47: the sum of the form, modulo 2 to the address size. -/
theorem baseAddress : Obligations.BaseAddress := by
  intro s e p n len rm d d32
  refine ⟨gprNumber_val _ _, ?_, fun hm => ?_⟩
  · rw [effectiveAddress_eq, State.formSum, dispValue_eq]
  · rw [effectiveAddress_eq, State.formSum, if_neg hm, zero_add, sext64]

/-- Settles O48: the scaled index is a product, or 0 for register number 4. -/
theorem sibAddress : Obligations.SibAddress := by
  intro s e p n len sc ix b d d32 w index
  refine ⟨fun hix => ?_, fun hix => ?_⟩
  · have hindex : s.indexValue e.x sc ix = index := by
      rw [State.indexValue, if_neg hix, shiftLeft_eq_mul]
    simp only [effectiveAddress_eq, State.formSum, hindex, dispValue_eq]
    exact ⟨rfl, rfl⟩
  · have hindex : s.indexValue e.x sc ix = 0 := if_pos hix
    simp only [effectiveAddress_eq, State.formSum, hindex, dispValue_eq, add_zero, zero_add]
    exact ⟨rfl, rfl⟩

/-- Settles O49: the operand is no refused form; its displacement is scaled by the bytes of the class's operand. -/
theorem operandOfEachClass : Obligations.OperandOfEachClass := by
  intro s m hm
  have hr (e hi p n len) : s.rmOperand e hi p n len (.mem m) =
      .mem (operandSegment s.mode e p m) (s.effectiveAddress e p n len m) := by
    rw [rmOperand_mem, if_neg]
    rintro ⟨h16, hs⟩
    simp [h16, hs] at hm
  refine ⟨fun op f hf => ?_, fun vl op f hf => ?_, fun vl op f hf => ?_⟩
  · simp only [legacyRecord, hf, hr]
  · simp only [vexRecord, hf, hr]
  · simp only [evexRecord, hf, hr]
    cases vl <;> rfl

/-- Settles O50: only the form without a SIB byte adds `pc`, and `67H` alone truncates the sum. -/
theorem ripRelativeAddress : Obligations.RipRelativeAddress := by
  intro s e p n len sc d hm
  have hsum : s.formSum e n len (.disp32 d) = s.pc + BitVec.ofNat 64 len + d.signExtend 64 := by
    rw [State.formSum, if_pos hm, State.nextPc, State.wrap, if_pos hm, sext64]
  refine ⟨fun h67 => ⟨?_, fun hx => ?_⟩, fun ix v => rfl, fun h67 => ?_⟩
  · rw [State.effectiveAddress, hsum, hm, h67]
    rfl
  · have hindex : s.indexValue e.x sc 4 = 0 := if_pos (hx ▸ rfl)
    rw [State.effectiveAddress, State.formSum, hindex, zero_add, hm, h67]
    rfl
  · rw [State.effectiveAddress, hsum, hm, h67]
    rfl

/-- Settles O52: each register form by the table of R98; a `disp16` alone is its own low 16 bits. -/
theorem sixteenBitForms : Obligations.SixteenBitForms := by
  intro s e p n len d h16 ea w
  have hea (rm : BitVec 3) : ea rm = w (s.base16 rm) := by
    simp only [ea, w, effectiveAddress_eq, h16, State.formSum, disp16Value_eq]
  refine ⟨hea 0, hea 1, hea 2, hea 3, hea 4, hea 5, hea 7, fun _ => hea 6, fun d16 => ?_⟩
  rw [effectiveAddress_eq, h16, State.formSum, ← setWidth_16_eq_modulo, setWidth_sext64]

/-- Settles O54: the default of each form, and the overrides that replace it. -/
theorem operandSegment_eq : Obligations.OperandSegment := by
  intro m e n k r f
  refine ⟨?_, fun hr => ?_, fun hm => ?_, fun hm hfs hgs => ?_⟩
  · cases f <;> simp [operandSegment, defaultSegment, stackBase, or_assoc]
  · rcases hr with rfl | rfl <;> rfl
  · cases r <;> simp [operandSegment, hm]
  · cases r <;> simp_all [operandSegment]

end Sys2Proof.Machine

/-! # Legacy `MOVAPS` completes (R130, R131) -/

namespace Sys2Proof.Machine

/-- What `MOVAPS` makes of the four elements loaded at `la`: elements 0 to 3, the others as they were (R22, R130). -/
theorem elem_legacyValue_gather (s : State) (la : Word64) {sel : Nat → Bool} (old : Vec) (hsel : ∀ j, sel j = true) {j : Nat}
    (hj : j < 16) :
    elem (legacyValue old (s.gather la 4 sel)) j = if j < 4 then s.elemAt (s.offset la (4 * j)) else elem old j := by
  rw [elem_legacyValue _ _ hj]
  exact ite_congr rfl (fun h4 => elem_gather s la 4 sel (by decide) h4 (hsel j)) (fun _ => rfl)

/-- Settles O24: the load form completes, and writes the elements that `legacyValue` takes from its source. -/
theorem legacyLoadCompletes : Obligations.LegacyLoadCompletes := by
  intro f s r hlen hen
  obtain ⟨fromReg, fromMem⟩ := loadForm_completes (value := legacyValue) (passes_legacy (op := .load28) hlen hen)
  refine ⟨fun n hn => ?_, fun la hop hacc => ?_⟩
  · exact ⟨_, fun j hj => elem_legacyValue _ _ hj, fromReg n hn⟩
  · exact ⟨_, fun j hj => elem_legacyValue_gather s la _ (sel_of_noMask rfl s) hj, fromMem la hop hacc⟩

/-- Settles O25: the store form completes, into a register by `legacyValue`, into memory byte by byte. -/
theorem legacyStoreCompletes : Obligations.LegacyStoreCompletes := by
  intro f s r hlen hen
  obtain ⟨intoReg, intoMem⟩ := storeForm_completes (value := legacyValue) (passes_legacy (op := .store29) hlen hen)
  refine ⟨fun d hd => ?_, intoMem⟩
  exact ⟨_, fun j hj => elem_legacyValue _ _ hj, intoReg d hd⟩

end Sys2Proof.Machine

/-! # VEX `VMOVAPS` completes (R140 to R143), and does what EVEX does without a writemask (R150) -/

namespace Sys2Proof.Machine

/-- What a VEX write makes of the elements loaded at `la`: `KL` of them, the others 0 (R22, R140, R142). -/
theorem elem_vexValue_gather (s : State) (la : Word64) {vl : VL} {sel : Nat → Bool} (old : Vec) (hsel : ∀ j, sel j = true)
    (j : Nat) :
    elem (vexValue vl old (s.gather la (vlElems vl) sel)) j =
      if j < vlElems vl then s.elemAt (s.offset la (4 * j)) else 0 := by
  rw [elem_vexValue]
  exact ite_congr rfl (fun hj => elem_gather s la _ sel (vlElems_le vl) hj (hsel j)) (fun _ => rfl)

section
variable {vl : VL} {f : VexForm} {s : State} (hlen : f.len ≤ 15) (hen : s.enabled .vex .v128 = true)
include hlen hen

theorem loadForm_vexLoadCompletes : vexLoadCompletes vl f s (loadForm (vexValue vl) (vexRecord vl .load28 f s) s) := by
  obtain ⟨fromReg, fromMem⟩ := loadForm_completes (value := vexValue vl) (passes_vex (vl := vl) (op := .load28) hlen hen)
  refine ⟨fun n hn => ?_, fun la hop hacc => ?_⟩
  · exact ⟨_, fun j _ => elem_vexValue vl _ _ j, fromReg n hn⟩
  · exact ⟨_, fun j _ => elem_vexValue_gather s la _ (sel_of_noMask rfl s) j, fromMem la hop hacc⟩

theorem storeForm_vexStoreCompletes : vexStoreCompletes vl f s (storeForm (vexValue vl) (vexRecord vl .store29 f s) s) := by
  obtain ⟨intoReg, intoMem⟩ := storeForm_completes (value := vexValue vl) (passes_vex (vl := vl) (op := .store29) hlen hen)
  refine ⟨fun d hd => ?_, intoMem⟩
  exact ⟨_, fun j _ => elem_vexValue vl _ _ j, intoReg d hd⟩

end

/-! ## Two records of one move -/

/-- Two operations on one operand that both answer a next state had it at the same linear address. -/
theorem address_next_both {s t u : State} {seg : SegReg} {ea : Word64} {n : Nat} {rw : Access} {k k' : Word64 → Outcome}
    (ht : s.address seg ea n rw k = .next t) (hu : s.address seg ea n rw k' = .next u) :
    ∃ la, k la = .next t ∧ k' la = .next u := by
  obtain ⟨la, hla, -, ht⟩ := address_next ht
  obtain ⟨la', hla', -, hu⟩ := address_next hu
  obtain rfl := Except.ok.inj (hla.symm.trans hla')
  exact ⟨la, ht, hu⟩

/-- Two records that move the same elements between the same operands, of whatever class and length in bytes. -/
structure SameMove (a b : Record) (s : State) : Prop where
  op : a.op = b.op
  vl : a.vl = b.vl
  reg : a.reg = b.reg
  rm : a.rm = b.rm
  sel : a.sel s = b.sel s
  value : a.value s = b.value s

section
variable {value : Vec → Vec → Vec} {a b : Record} {s t u : State} (h : SameMove a b s)
include h

theorem SameMove.loadForm_next (ht : loadForm value a s = .next t) (hu : loadForm value b s = .next u) :
    { t with pc := u.pc } = u := by
  obtain ⟨-, -, -, ht⟩ := tests_next ht
  obtain ⟨-, -, -, hu⟩ := tests_next hu
  rw [h.rm, h.reg, h.vl, h.sel] at ht
  cases hrm : b.rm <;> rw [hrm] at ht hu
  case reg n => cases ht; cases hu; rfl
  case mem seg ea =>
    obtain ⟨la, ht, hu⟩ := address_next_both ht hu
    obtain ⟨-, ht⟩ := load_next ht
    obtain ⟨-, hu⟩ := load_next hu
    cases ht; cases hu; rfl
  case refused16 => nomatch ht

theorem SameMove.storeForm_next (ht : storeForm value a s = .next t) (hu : storeForm value b s = .next u) :
    { t with pc := u.pc } = u := by
  obtain ⟨-, -, -, ht⟩ := tests_next ht
  obtain ⟨-, -, -, hu⟩ := tests_next hu
  rw [h.rm, h.reg, h.vl, h.sel] at ht
  cases hrm : b.rm <;> rw [hrm] at ht hu
  case reg d => cases ht; cases hu; rfl
  case mem seg ea =>
    obtain ⟨la, ht, hu⟩ := address_next_both ht hu
    obtain ⟨-, -, ht⟩ := store_next ht
    obtain ⟨-, -, hu⟩ := store_next hu
    cases ht; cases hu; rfl
  case refused16 => nomatch ht

/-- Where both complete, they end in the same state but for `pc`. -/
theorem SameMove.move_next (ht : a.move s = .next t) (hu : b.move s = .next u) : { t with pc := u.pc } = u := by
  rw [Record.move, h.op, h.value] at ht
  rw [Record.move] at hu
  cases hop : b.op <;> rw [hop] at ht hu
  case load28 => exact h.loadForm_next ht hu
  case store29 => exact h.storeForm_next ht hu

end

/-- Without a writemask EVEX selects every element, and its blend is the VEX write (R94, R150). -/
theorem sameMove_evex_vex {vl : VL} {op : Op} {f : EvexForm} {g : VexForm} {s : State} (hmask : f.aaa = 0)
    (hreg : (evexRecord vl op f s).reg = (vexRecord vl op g s).reg)
    (hrm : (evexRecord vl op f s).rm = (vexRecord vl op g s).rm) :
    SameMove (evexRecord vl op f s) (vexRecord vl op g s) s := by
  have hsel : ∀ j, (evexRecord vl op f s).sel s j = true := sel_of_noMask hmask s
  exact
    { op := rfl, vl := rfl, reg := hreg, rm := hrm
      sel := funext fun j => (hsel j).trans (sel_of_noMask rfl s j).symm
      value := funext fun old => funext fun src => blend_all vl _ _ old src hsel }

/-! ## The statements -/

/-- Settles O26: the load form at both lengths. -/
theorem vexLoadsComplete : Obligations.VexLoadsComplete := fun _ _ hlen hen =>
  ⟨loadForm_vexLoadCompletes hlen hen, loadForm_vexLoadCompletes hlen hen⟩

/-- Settles O27: the store form at both lengths. -/
theorem vexStoresComplete : Obligations.VexStoresComplete := fun _ _ hlen hen =>
  ⟨storeForm_vexStoreCompletes hlen hen, storeForm_vexStoreCompletes hlen hen⟩

/-- Settles O31: the two records of each row pair are one move. -/
theorem evexWithoutMaskEqualsVex : Obligations.EvexWithoutMaskEqualsVex := by
  intro f g s t u vl op hmask hreg hrm
  have same := (sameMove_evex_vex hmask hreg hrm).move_next (t := t) (u := u)
  refine ⟨?_, ?_, ?_, ?_⟩ <;> rintro ⟨rfl, rfl⟩ <;> exact same

end Sys2Proof.Machine

/-! # EVEX `VMOVAPS` under a writemask completes (R150 to R156), and what it leaves of its destination (R157) -/

namespace Sys2Proof.Machine

/-! ## The elements of a blend, case by case (R150, R157) -/

section
variable {vl : VL} {sel : Nat → Bool} (z : Bool) (old src : Vec) {j : Nat}

theorem elem_blend_of_sel (hj : j < vlElems vl) (hs : sel j = true) : elem (blend vl sel z old src) j = elem src j := by
  rw [elem_blend, if_pos hj, if_pos hs]

theorem elem_blend_of_not_sel (hj : j < vlElems vl) (hs : sel j = false) :
    elem (blend vl sel z old src) j = if z then 0 else elem old j := by
  rw [elem_blend, if_pos hj, hs, if_neg Bool.false_ne_true]

theorem elem_blend_of_ge (hj : vlElems vl ≤ j) : elem (blend vl sel z old src) j = 0 := by
  rw [elem_blend, if_neg (Nat.not_lt.mpr hj)]

end

/-! ## The two forms under a writemask -/

/-- The record selects what the mask of its instruction does (R94, R150). -/
theorem sel_evexRecord {vl : VL} {op : Op} {f : EvexForm} {s : State} {j : Nat} :
    (evexRecord vl op f s).sel s j = true ↔ selects f s j := by
  simp [Record.sel, evexRecord, selects]

section
variable {vl : VL} {f : EvexForm} {s : State}

/-- An EVEX write of a vector register blends the old elements with those that the source has where selected. -/
theorem blended_evexValue {op : Op} (old : Vec) {src : Vec} {new : Nat → Elem}
    (hsrc : ∀ j, j < vlElems vl → (evexRecord vl op f s).sel s j = true → elem src j = new j) :
    blended vl f s (elem old) new (elem (evexValue (evexRecord vl op f s) s old src)) := by
  refine fun j _ => ⟨fun hj hs => ?_, fun hj hs => ?_, fun hj => ?_⟩
  · have hsel := sel_evexRecord (vl := vl) (op := op).mpr hs
    exact (elem_blend_of_sel f.z old src hj hsel).trans (hsrc j hj hsel)
  · exact elem_blend_of_not_sel f.z old src hj (Bool.eq_false_iff.mpr (mt sel_evexRecord.mp hs))
  · exact elem_blend_of_ge f.z old src hj

variable (hlen : f.len ≤ 15)
include hlen

theorem loadForm_evexLoadCompletes :
    evexLoadCompletes vl f s (loadForm (evexValue (evexRecord vl .load28 f s) s) (evexRecord vl .load28 f s) s) := by
  intro hmask hen
  obtain ⟨fromReg, fromMem⟩ := loadForm_completes (value := evexValue (evexRecord vl .load28 f s) s) (passes_evex hlen hen hmask)
  refine ⟨fun n hn => ?_, fun la hop hacc => ?_⟩
  · exact ⟨_, blended_evexValue _ fun _ _ _ => rfl, _, fun _ _ => rfl, fromReg n hn⟩
  · exact ⟨_, blended_evexValue _ fun _ hj hs => elem_gather s la _ _ (vlElems_le vl) hj hs, _, fun _ _ => rfl,
      fromMem la hop hacc⟩

theorem storeForm_evexStoreCompletes :
    evexStoreCompletes vl f s (storeForm (evexValue (evexRecord vl .store29 f s) s) (evexRecord vl .store29 f s) s) := by
  intro hmask hen
  obtain ⟨intoReg, intoMem⟩ := storeForm_completes (value := evexValue (evexRecord vl .store29 f s) s) (passes_evex hlen hen hmask)
  refine ⟨fun d hd => ?_, intoMem⟩
  exact ⟨_, blended_evexValue _ fun _ _ _ => rfl, _, fun _ _ => rfl, intoReg d hd⟩

end

/-! ## What a completed move wrote into its register -/

/-- With a register destination, the rule of the record's class gives what it holds next, from what it held and a source. -/
theorem exec_next_value {i : Instr} {s t : State} {d : Fin 32} (h : exec i s = .next t)
    (hd : (recordOf i s).op = .load28 ∧ d = (recordOf i s).reg ∨ (recordOf i s).op = .store29 ∧ (recordOf i s).rm = .reg d) :
    ∃ src, t.vec d = (recordOf i s).value s (s.vec d) src := by
  rw [exec_eq_move, Record.move] at h
  rcases hd with ⟨hop, rfl⟩ | ⟨hop, hrm⟩ <;> rw [hop] at h
  · obtain ⟨-, -, -, ⟨n, -, rfl⟩ | ⟨seg, ea, la, -, -, -, -, rfl⟩⟩ := loadForm_next h
    · exact ⟨_, by rw [State.vec_advance, State.vec_setVec_self]⟩
    · exact ⟨_, by rw [State.vec_advance, State.vec_setVec_self]⟩
  · obtain ⟨-, -, -, ⟨d', hd', rfl⟩ | ⟨seg, ea, la, hm, -⟩⟩ := storeForm_next h
    · obtain rfl := RmOperand.reg.inj (hd'.symm.trans hrm)
      exact ⟨_, by rw [State.vec_advance, State.vec_setVec_self]⟩
    · cases hm.symm.trans hrm

/-! ## The statements -/

/-- Settles O28: the load form at the three lengths. -/
theorem evexLoadsComplete : Obligations.EvexLoadsComplete := fun _ _ hlen =>
  ⟨loadForm_evexLoadCompletes hlen, loadForm_evexLoadCompletes hlen, loadForm_evexLoadCompletes hlen⟩

/-- Settles O29: the store form at the three lengths. -/
theorem evexStoresComplete : Obligations.EvexStoresComplete := fun _ _ hlen =>
  ⟨storeForm_evexStoreCompletes hlen, storeForm_evexStoreCompletes hlen, storeForm_evexStoreCompletes hlen⟩

/-- Settles O30: the destination holds a blend, 0 above `VL`, with the old element where merging selects none. -/
theorem maskingZeroesUpperBits : Obligations.MaskingZeroesUpperBits := by
  intro i s t d r hcls h hd j _
  obtain ⟨src, hv⟩ := exec_next_value h hd
  have hval : t.vec d = blend r.vl (r.sel s) r.z (s.vec d) src := by rw [hv, Record.value, hcls, evexValue]
  rw [hval]
  refine ⟨fun hj => elem_blend_of_ge _ _ _ hj, fun hj hz hs => ?_⟩
  rw [elem_blend_of_not_sel _ _ _ hj hs, hz, if_neg Bool.false_ne_true]

end Sys2Proof.Machine

/-! # Exceptions: `#UD` of the VEX rows (R172), `#NM` (R174), and the table (R170) -/

namespace Sys2Proof.Machine

theorem udVex_iff {s : State} : s.udVex = true ↔
    s.mode = .real ∨ s.mode = .v86 ∨ s.osxsave = false ∨ s.xcr0.extractLsb' 1 2 ≠ 3 ∨ s.params.avx = false := by
  have hm : s.mode.realOrV86 = true ↔ s.mode = .real ∨ s.mode = .v86 := by cases s.mode <;> decide
  simp only [State.udVex, State.xcr0Avx, Bool.or_eq_true, Bool.not_eq_true', hm, beq_eq_false_iff_ne, ne_eq, or_assoc]

/-- What the tests answer, whatever would follow them, is the answer of the instruction (R129 steps 1 and 2). -/
theorem exec_of_tests {i : Instr} {s : State} {o : Outcome} (h : ∀ k, (recordOf i s).tests s k = o) : exec i s = o := by
  obtain ⟨value, ⟨-, he⟩ | ⟨-, he⟩⟩ := exec_form i s
  · rw [he, loadForm, h]
  · rw [he, storeForm, h]

/-- Of the tests, `CR0.TS` is the third: a record that passes the first two raises `#NM` there (R129, R174, R181). -/
theorem tests_of_ts {r : Record} {s : State} (k : Outcome) (hl : r.len ≤ maxLength) (hu : r.ud s = false) (ht : s.ts = true) :
    r.tests s k = .fault .deviceNotAvailable := by
  rw [Record.tests, if_neg (Nat.not_lt.mpr hl), hu, if_neg Bool.false_ne_true, if_pos ht, raise]

/-! ## The statements -/

/-- Settles O34: the conditions of R172 are those that the tests of the four rows look at. -/
theorem vexInvalidOpcode : Obligations.VexInvalidOpcode := by
  intro f s hl hs
  have hud : s.udVex = true := udVex_iff.mpr hs
  exact ⟨exec_of_ud (i := .vmovapsVex128Load f) hl hud, exec_of_ud (i := .vmovapsVex128Store f) hl hud,
    exec_of_ud (i := .vmovapsVex256Load f) hl hud, exec_of_ud (i := .vmovapsVex256Store f) hl hud⟩

/-- Settles O36: length and `#UD` pass, so the tests end at `CR0.TS`. -/
theorem taskSwitchedRaisesNotAvailable : Obligations.TaskSwitchedRaisesNotAvailable := fun i s hl ht hu =>
  exec_of_tests fun k => tests_of_ts k (recordOf_len i s ▸ hl) hu ht

/-- Settles O46: `Fault.vector` and `Fault.errorCode` at each fault, and `Fault.cr2`, which a page fault alone has. -/
theorem exceptionTable : Obligations.ExceptionTable :=
  ⟨rfl, rfl, rfl, rfl, rfl, rfl, rfl, rfl, fun _ _ _ => ⟨rfl, rfl, rfl, rfl, rfl, rfl, rfl⟩⟩

end Sys2Proof.Machine
